-- ==== Sys2Proof/Word.lean ====
section
/-! DEFINITION. The word types: a byte, the 32-bit word of the host port, and the byte string. -/

namespace Sys2Proof

/-- One byte of a buffer (10_state.md R33). -/
abbrev Byte := BitVec 8

/-- One 32-bit word: a register, a command word, the data of a host access (10_state.md R20). -/
abbrev Word := BitVec 32

/-- A byte string, its first byte at the lowest index (00_scope.md R10). -/
abbrev Bytes := List Byte

end Sys2Proof
end

