-- ==== Sys2Proof/Syntax.lean ====
section
/-! DEFINITION. The fourteen commands (30_encoding.md R87), one constructor per row of the opcode table. -/

namespace Sys2Proof

/-- A command with its operand fields: `sz` is SZ, the byte length (30_encoding.md R83), and `cin` is CIN read as a
signed value (30_encoding.md R84). Every other operand is implicit (30_encoding.md R86). -/
inductive Instr where
  /-- NOP, 44_control.md R200 -/
  | nop
  /-- ZEROIZE, 44_control.md R201 -/
  | zeroize
  /-- CMP, 40_bigint.md R100 -/
  | cmp (sz : Nat) (cin : Int)
  /-- ADD, 40_bigint.md R101 -/
  | add (sz : Nat)
  /-- SUB, 40_bigint.md R102 -/
  | sub (sz : Nat)
  /-- RSHIFT, 40_bigint.md R103 -/
  | rshift (sz : Nat)
  /-- TRUNC, 40_bigint.md R104 -/
  | trunc (sz : Nat)
  /-- BITS2INT, 40_bigint.md R105 -/
  | bits2int (sz : Nat)
  /-- BITS2OCT, 40_bigint.md R106 -/
  | bits2oct (sz : Nat)
  /-- D2OP, 40_bigint.md R107 -/
  | d2op (sz : Nat)
  /-- NONCE_RND, 41_nonce_random.md R130 -/
  | nonceRnd
  /-- NONCE_DET, 42_nonce_rfc6979.md R142 -/
  | nonceDet
  /-- SIGN_RND, 43_retry_controller.md R174 -/
  | signRnd
  /-- SIGN_DET, 43_retry_controller.md R176 -/
  | signDet
deriving DecidableEq, Repr

/-- The commands in {NONCE_RND, NONCE_DET} (60_exceptions.md R215). -/
def Instr.isNonce : Instr → Bool
  | .nonceRnd | .nonceDet => true
  | .nop | .zeroize | .cmp _ _ | .add _ | .sub _ | .rshift _ | .trunc _ | .bits2int _ | .bits2oct _ | .d2op _
  | .signRnd | .signDet => false

/-- The commands in {SIGN_RND, SIGN_DET} (60_exceptions.md R214, R215). -/
def Instr.isSign : Instr → Bool
  | .signRnd | .signDet => true
  | .nop | .zeroize | .cmp _ _ | .add _ | .sub _ | .rshift _ | .trunc _ | .bits2int _ | .bits2oct _ | .d2op _
  | .nonceRnd | .nonceDet => false

/-- The commands whose nonce comes from the RFC 6979 machine (42_nonce_rfc6979.md R142, 43_retry_controller.md R176). -/
def Instr.isDet : Instr → Bool
  | .nonceDet | .signDet => true
  | .nop | .zeroize | .cmp _ _ | .add _ | .sub _ | .rshift _ | .trunc _ | .bits2int _ | .bits2oct _ | .d2op _
  | .nonceRnd | .signRnd => false

end Sys2Proof
end

