-- ==== Sys2Proof/WellFormed.lean ====
section
/-! DEFINITION. Which commands have an encoding: SZ is an 8-bit field (30_encoding.md R80, R83) and CIN is −1, 0 or +1
(30_encoding.md R84). -/

namespace Sys2Proof

/-- SZ fits its field (30_encoding.md R83: 0..255). -/
abbrev sizeFits (sz : Nat) : Prop := sz ≤ 255

/-- CIN is one of the three values that have a legal pattern (30_encoding.md R84). -/
abbrev carryLegal (cin : Int) : Prop := cin = -1 ∨ cin = 0 ∨ cin = 1

/-- The command has an encoding. -/
def Instr.wellFormed : Instr → Bool
  | .cmp sz cin => decide (sizeFits sz ∧ carryLegal cin)
  | .add sz | .sub sz | .rshift sz | .trunc sz | .bits2int sz | .bits2oct sz | .d2op sz => decide (sizeFits sz)
  | .nop | .zeroize | .nonceRnd | .nonceDet | .signRnd | .signDet => true

end Sys2Proof
end

