-- ==== Sys2Proof/Decode.lean ====
section
/-! DEFINITION. The command word CMDW (30_encoding.md R80): the decoder of R81, total on every word and on any bytes,
and the encoder. -/

namespace Sys2Proof

/-! ## Fields -/

/-- OPC, bits [7:0] (30_encoding.md R80). -/
def fieldOpc (w : Word) : BitVec 8 := w.extractLsb' 0 8

/-- SZ, bits [15:8] (30_encoding.md R80). -/
def fieldSz (w : Word) : BitVec 8 := w.extractLsb' 8 8

/-- CIN, bits [17:16] (30_encoding.md R80). -/
def fieldCin (w : Word) : BitVec 2 := w.extractLsb' 16 2

/-- RSV, bits [31:18] (30_encoding.md R80). -/
def fieldRsv (w : Word) : BitVec 14 := w.extractLsb' 18 14

/-- The word of four fields (30_encoding.md R80). -/
def packWord (opc sz : BitVec 8) (cin : BitVec 2) : Word := (0 : BitVec 14) ++ cin ++ sz ++ opc

/-- The byte length SZ = zext(w[15:8]) (30_encoding.md R83). -/
def sizeOf8 (sz : BitVec 8) : Nat := sz.toNat

/-- The carry-in sext_2(w[17:16]) (30_encoding.md R84). -/
def carryOf2 (cin : BitVec 2) : Int := cin.toInt

/-! ## Decoding -/

/-- Why a word is ILLEGAL (30_encoding.md R88), and the one reason a byte string is not a word. -/
inductive IllegalWord where
  /-- RSV ≠ 0 -/
  | reservedBits
  /-- an OPC that is not in the opcode map -/
  | unassignedOpcode
  /-- SZ ≠ 0 in a command that does not use SZ -/
  | sizeUnused
  /-- CIN ≠ 00 in a command that does not use CIN -/
  | carryUnused
  /-- CIN = 10 in CMP -/
  | carryReserved
  /-- not the four bytes of one word (30_encoding.md R80: no command is longer or shorter) -/
  | notOneWord
deriving DecidableEq, Repr

/-- One row of the opcode map (30_encoding.md R87). -/
structure OpcodeRow where
  opc : BitVec 8
  usesSz : Bool
  usesCin : Bool
  build : Nat → Int → Instr

/-- The opcode map (30_encoding.md R87). -/
def opcodeMap : List OpcodeRow :=
  [ ⟨0x00, false, false, fun _ _ => .nop⟩,
    ⟨0x01, false, false, fun _ _ => .zeroize⟩,
    ⟨0x10, true, true, fun sz cin => .cmp sz cin⟩,
    ⟨0x11, true, false, fun sz _ => .add sz⟩,
    ⟨0x12, true, false, fun sz _ => .sub sz⟩,
    ⟨0x13, true, false, fun sz _ => .rshift sz⟩,
    ⟨0x14, true, false, fun sz _ => .trunc sz⟩ ] ++
  [ ⟨0x15, true, false, fun sz _ => .bits2int sz⟩,
    ⟨0x16, true, false, fun sz _ => .bits2oct sz⟩,
    ⟨0x17, true, false, fun sz _ => .d2op sz⟩,
    ⟨0x20, false, false, fun _ _ => .nonceRnd⟩,
    ⟨0x21, false, false, fun _ _ => .nonceDet⟩,
    ⟨0x30, false, false, fun _ _ => .signRnd⟩,
    ⟨0x31, false, false, fun _ _ => .signDet⟩ ]

/-- The checks of 30_encoding.md R81 on a word whose row is known. -/
def decodeRow (row : OpcodeRow) (sz : BitVec 8) (cin : BitVec 2) : Except IllegalWord Instr :=
  if row.usesSz = false ∧ sz ≠ 0 then .error .sizeUnused
  else if row.usesCin = false ∧ cin ≠ 0 then .error .carryUnused
  else if row.usesCin = true ∧ cin = 0b10 then .error .carryReserved
  else .ok (row.build (sizeOf8 sz) (carryOf2 cin))

/-- decode(w) (30_encoding.md R81). -/
def decode (w : Word) : Except IllegalWord Instr :=
  if fieldRsv w ≠ 0 then .error .reservedBits
  else
    match opcodeMap.find? (fun row => row.opc == fieldOpc w) with
    | none => .error .unassignedOpcode
    | some row => decodeRow row (fieldSz w) (fieldCin w)

/-- Decoding of any bytes: exactly four, byte 0 on data bits [7:0] (30_encoding.md R80, 20_memory.md R54). -/
def decodeBytes : Bytes → Except IllegalWord Instr
  | [b0, b1, b2, b3] => decode (b3 ++ b2 ++ b1 ++ b0)
  | _ => .error .notOneWord

/-- What the decoder reads from the opcode table's numbering of a word, `nbits` bits of `w`. -/
def decodeTableWord (nbits w : Nat) : Option Instr :=
  (decode (BitVec.ofNat 32 (w % 2 ^ nbits))).toOption

/-! ## Encoding -/

/-- The SZ field of a byte length. -/
def szField (sz : Nat) : BitVec 8 := BitVec.ofNat 8 sz

/-- The CIN field of a carry-in, two's complement (30_encoding.md R84). -/
def cinField (cin : Int) : BitVec 2 := BitVec.ofInt 2 cin

/-- The command word of a command (30_encoding.md R87, R92). -/
def encode : Instr → Word
  | .nop => packWord 0x00 0 0
  | .zeroize => packWord 0x01 0 0
  | .cmp sz cin => packWord 0x10 (szField sz) (cinField cin)
  | .add sz => packWord 0x11 (szField sz) 0
  | .sub sz => packWord 0x12 (szField sz) 0
  | .rshift sz => packWord 0x13 (szField sz) 0
  | .trunc sz => packWord 0x14 (szField sz) 0
  | .bits2int sz => packWord 0x15 (szField sz) 0
  | .bits2oct sz => packWord 0x16 (szField sz) 0
  | .d2op sz => packWord 0x17 (szField sz) 0
  | .nonceRnd => packWord 0x20 0 0
  | .nonceDet => packWord 0x21 0 0
  | .signRnd => packWord 0x30 0 0
  | .signDet => packWord 0x31 0 0

end Sys2Proof
end

