-- ==== Sys2Proof/Config.lean ====
section
/-! DEFINITION. The OPEN parameters of 00_scope.md R7: their type as plain data, what R7 asks of their values, and the
opaque constants the machine after reset takes them from. -/

namespace Sys2Proof

/-- Which bytes digest2op keeps of a digest longer than the operand (00_scope.md R7, 40_bigint.md R113). -/
inductive D2opSelect where
  | trailing
  | leading
deriving DecidableEq, Repr, Inhabited

/-- One known answer of the HMAC unit: `answer` for the hash id, key and message (log entry 2). -/
structure HmacRow where
  alg : BitVec 4
  key : Bytes
  msg : Bytes
  answer : Bytes
deriving DecidableEq, Repr

/-- The OPEN parameters of 00_scope.md R7 that a rule reads, as plain data (log entry 1). -/
structure Params where
  /-- BASE, the physical address of the register window -/
  base : Nat
  /-- MAX_OPSZ, the largest operand size in bytes -/
  maxOpsz : Nat
  /-- MAX_HLEN, the largest digest size in bytes -/
  maxHlen : Nat
  /-- digest_size(alg) for alg = 0..15: `none` where the hash id is unsupported -/
  digestSizes : List (Option Nat)
  /-- RND_MAX_DRAWS, the draw bound of the randomized path -/
  rndMaxDraws : Nat
  /-- DIGEST2OP_SELECT -/
  d2opSelect : D2opSelect
  /-- the part of hmacFn that is given as data (log entry 2) -/
  hmacRows : List HmacRow
deriving DecidableEq, Repr

/-- BUFCAP = max(MAX_HLEN, MAX_OPSZ) (00_scope.md R7). -/
def Params.bufcap (p : Params) : Nat := max p.maxHlen p.maxOpsz

/-- digest_size(alg), `none` when the hash id is unsupported (00_scope.md R7). -/
def Params.digestSize (p : Params) (alg : BitVec 4) : Option Nat := p.digestSizes.getD alg.toNat none

/-- What 00_scope.md R7 says of the parameters' values. -/
abbrev Params.ok (p : Params) : Prop :=
  p.base % 4096 = 0 ∧ (1 ≤ p.maxOpsz ∧ p.maxOpsz ≤ 128) ∧ (1 ≤ p.maxHlen ∧ p.maxHlen ≤ 128) ∧
    p.digestSizes.length = 16 ∧ (∀ o ∈ p.digestSizes, ∀ n ∈ o, 1 ≤ n ∧ n ≤ p.maxHlen) ∧ 1 ≤ p.rndMaxDraws

namespace Config

/-- BASE is `basePage` times 4 KiB (OPEN, 92_eei_decisions.md D2). -/
opaque basePage : Nat

/-- MAX_OPSZ − 1 (OPEN, 92_eei_decisions.md D45). -/
opaque maxOpszPred : Fin 128

/-- MAX_HLEN − 1 (OPEN, 92_eei_decisions.md D45). -/
opaque maxHlenPred : Fin 128

/-- digest_size before it is brought into 1..MAX_HLEN (OPEN, 92_eei_decisions.md D20). -/
opaque rawDigestSize : Nat → Option Nat

/-- RND_MAX_DRAWS − 1 (OPEN, 92_eei_decisions.md D28). -/
opaque rndMaxDrawsPred : Nat

/-- DIGEST2OP_SELECT (OPEN, 92_eei_decisions.md D29). -/
opaque d2opSelect : D2opSelect

/-- hmacFn(alg, key, msg) (OPEN, 92_eei_decisions.md D20 and D54): a total function of which nothing is known. The
machine reads it through `Machine.State.hmac`, which brings the answer to digest_size(alg) bytes. -/
opaque hmacFn : BitVec 4 → Bytes → Bytes → Bytes

/-- HBLK(alg), the HMAC block size (OPEN, 00_scope.md R7): no rule reads it and nothing a program sees depends on it. -/
opaque hmacBlockSize : BitVec 4 → Nat

/-- The parameters of the machine after reset: every value R7 admits, and none in particular (log entry 1). -/
def params : Params where
  base := 4096 * basePage
  maxOpsz := maxOpszPred.val + 1
  maxHlen := maxHlenPred.val + 1
  digestSizes := (List.range 16).map fun a => (rawDigestSize a).map fun n => n % (maxHlenPred.val + 1) + 1
  rndMaxDraws := rndMaxDrawsPred + 1
  d2opSelect := d2opSelect
  hmacRows := []

end Config

end Sys2Proof
end

