-- ==== Sys2Proof/Machine/State.lean ====
section
/-! DEFINITION. The state of the block (10_state.md), the inputs that reach it, why a step can stop, and the state after
reset (70_reset_and_hazards.md R240). -/

namespace Sys2Proof.Machine

open Sys2Proof

/-! ## Parts of the state -/

/-- The error codes of STATUS.ERR (60_exceptions.md R211). INVALID_SIGNATURE is reserved: no command raises it. -/
inductive ErrCode where
  | none
  | invalidArgument
  | hardwareFault
  | tooManyAttempts
  | insufficientEntropy
  | illegalCommand
  | invalidSignature
deriving DecidableEq, Repr

/-- The result of CMP in STATUS.CMP (10_state.md R25): the pattern 10 does not exist. -/
inductive CmpResult where
  | equal
  | greater
  | less
deriving DecidableEq, Repr

/-- FAULTINFO.CAUSE (10_state.md R30): 0 is `none`, and 5..15 do not exist. -/
inductive FaultCause where
  | none
  | dma
  | busy
  | uninit
  | entropy
deriving DecidableEq, Repr

/-- STEP of the RFC 6979 machine (10_state.md R39): the value 7 does not exist. -/
inductive RfcStep where
  | step0
  | step1
  | step2
  | step3
  | step4
  | step5
  | step6
deriving DecidableEq, Repr

/-- NonceState (10_state.md R35). -/
@[ext]
structure NonceState where
  k : Bytes
  v : Bytes
  t : Bytes
  tlen : Nat
  step : RfcStep
  retry : BitVec 8
  det : Bool
deriving DecidableEq, Repr

/-- The named points of the commands' rules at which an engine step begins (10_state.md R37, log entry 10). -/
inductive Point where
  /-- the first engine step: the argument checks (60_exceptions.md R213) -/
  | start
  /-- rnd_k, at the bound test and the entropy call (41_nonce_random.md R131) -/
  | draw
  /-- rnd_k, at the test-and-redraw decision (41_nonce_random.md R131) -/
  | test
  /-- derive, at the step that STEP names (42_nonce_rfc6979.md R140) -/
  | derive
  /-- derive(CONTINUE), at forced_reject (42_nonce_rfc6979.md R151) -/
  | reject
  /-- submit, at Ch.acquire (43_retry_controller.md R172) -/
  | acquire
  /-- submit, at Ch.write_operand(SLOT_PRIV) -/
  | writePriv
  /-- submit, at Ch.write_operand(SLOT_NONCE) -/
  | writeNonce
  /-- submit, at Ch.write_operand(SLOT_DIGEST) -/
  | writeDigest
  /-- submit, at Ch.run -/
  | run
  /-- submit, at Ch.wait -/
  | wait
  /-- NONCE_RND, at the write of NONCE and finish() (41_nonce_random.md R130) -/
  | finish
deriving DecidableEq, Repr

/-- The engine's control point (10_state.md R37). -/
inductive Control where
  | idle
  /-- the start of "raise ILLEGAL_COMMAND" (60_exceptions.md R214) -/
  | illegal
  /-- command `i` at point `p` of its rule -/
  | running (i : Instr) (p : Point)
deriving DecidableEq, Repr

/-- A list of bytes by window offset, in one canonical form: offsets strictly rising, no entry equal to what an unlisted
offset reads as. It holds the nine byte buffers (10_state.md R33, 20_memory.md R52). -/
abbrev Memory := List Host.Cell

/-! ## The external agents -/

/-- A FATAL cause of the offload channel (43_retry_controller.md R170). -/
inductive FatalCause where
  | dma
  | busy
  | uninit
deriving DecidableEq, Repr

/-- An answer of Entropy(L) (00_scope.md R13, 41_nonce_random.md R132). -/
inductive EntropyAnswer where
  | bytes (b : Bytes)
  | fail
deriving DecidableEq, Repr

/-- An answer of Ch.acquire (43_retry_controller.md R170). -/
inductive AcquireAnswer where
  | ok (h : Nat)
  | fatal (c : FatalCause)
deriving DecidableEq, Repr

/-- An answer of Ch.write_operand or Ch.run (43_retry_controller.md R170). -/
inductive CallAnswer where
  | ok
  | fatal (c : FatalCause)
deriving DecidableEq, Repr

/-- An answer of Ch.wait (43_retry_controller.md R170). -/
inductive WaitAnswer where
  | success (r s : Bytes)
  | notInvertible
  | invalidSignature
  | fatal (c : FatalCause)
deriving DecidableEq, Repr

/-- The answers the oracles have still to give, in call order (00_scope.md R13). A script that is empty does not answer:
the engine stays in its call (70_reset_and_hazards.md R248, log entry 4). -/
structure Oracles where
  entropy : List EntropyAnswer
  acquire : List AcquireAnswer
  write : List CallAnswer
  run : List CallAnswer
  wait : List WaitAnswer
  /-- how many calls the HMAC unit still answers; `none`: every call -/
  hmacAnswers : Option Nat
deriving DecidableEq, Repr

/-- The channel's operand slots, three opaque identifiers (43_retry_controller.md R170). -/
inductive Slot where
  | priv
  | nonce
  | digest
deriving DecidableEq, Repr

/-- An oracle call the engine has made, with its operands (00_scope.md R13, 43_retry_controller.md R172). -/
inductive OracleCall where
  | hmac (alg : BitVec 4) (key msg : Bytes)
  | entropy (len : Nat)
  | acquire
  | writeOperand (h : Option Nat) (slot : Slot) (bytes : Bytes)
  | run (h : Option Nat)
  | wait (h : Option Nat)
deriving DecidableEq, Repr

/-- The width of a host access: n ∈ {1, 2, 4} bytes (00_scope.md R12). -/
inductive Width where
  | w8
  | w16
  | w32
deriving DecidableEq, Repr

/-- A host load or store at a physical address (20_memory.md R69). -/
inductive Access where
  | read (addr : Nat) (n : Width)
  | write (addr : Nat) (n : Width) (v : Word)
deriving DecidableEq, Repr

/-- What moves next (20_memory.md R60, log entry 3). -/
inductive Input where
  /-- the host port performs an access -/
  | host (a : Access)
  /-- the engine takes its next step -/
  | engine
  /-- reset (70_reset_and_hazards.md R241) -/
  | reset
deriving DecidableEq, Repr

/-- The host port's answer to an access: error response and read data (20_memory.md R55, R69). -/
structure Resp where
  error : Bool
  data : Word
deriving DecidableEq, Repr

end Sys2Proof.Machine

namespace Sys2Proof.Machine

open Sys2Proof

/-! ## The state -/

/-- The state of the block. The last five fields are the model's own (INVENTORY.md, '## State'). -/
@[ext]
structure State where
  /-- CTRL.RFCRETRY (R22) -/
  rfcRetry : Bool
  /-- CTRL.HASHALG (R22) -/
  hashAlg : BitVec 4
  /-- CFG.OPSZ (R23) -/
  opsz8 : BitVec 8
  /-- CFG.DIGLEN (R23) -/
  diglen8 : BitVec 8
  /-- STATUS.BUSY (R25) -/
  busy : Bool
  /-- STATUS.DONE (R25) -/
  done : Bool
  /-- STATUS.ERR (R25) -/
  err : ErrCode
  /-- STATUS.CMP (R25) -/
  cmp : CmpResult
  /-- STATUS.BORROW (R25) -/
  borrow : Bool
  /-- INTEN.DONE_EN (R26) -/
  doneEn : Bool
  /-- INTEN.WERR_EN (R26) -/
  werrEn : Bool
  /-- INTSTAT.DONE (R27) -/
  donePend : Bool
  /-- INTSTAT.WERR (R27) -/
  werrPend : Bool
  /-- MAXATT.MAX_ATTEMPTS (R28) -/
  maxAtt : BitVec 8
  /-- ATTEMPTS (R29) -/
  attempts : BitVec 9
  /-- FAULTINFO.CAUSE (R30) -/
  faultInfo : FaultCause
  /-- ALU_IMM (R31) -/
  aluImm : Word
  /-- the nine byte buffers (R33) -/
  mem : Memory
  /-- NonceState (R35) -/
  nonce : NonceState
  /-- DRAWS (R36) -/
  draws : Nat
  /-- HANDLE (R36) -/
  handle : Option Nat
  /-- D2O (R36) -/
  d2o : Bytes
  /-- the engine's control point (R37) -/
  ctl : Control
  /-- the OPEN parameters (00_scope.md R7) -/
  params : Params
  /-- the oracle answers still to come (00_scope.md R13) -/
  oracles : Oracles
  /-- the interleaving still to come (20_memory.md R60) -/
  inputs : List Input
  /-- the oracle calls made, newest first (00_scope.md R13) -/
  trace : List OracleCall
  /-- the host port's last answer (20_memory.md R69) -/
  resp : Resp
deriving DecidableEq, Repr

/-- Why the machine stops. -/
inductive Fault where
  /-- Raised by the port (`hostStep`) on an access outside BASE .. BASE + 0xFFF: no such address exists in the block
  (20_memory.md R50). Safe: the access would reach something else than this block. -/
  | outsideWindow
deriving DecidableEq, Repr

/-- Why an instruction has no meaning. -/
inductive Refusal where
  /-- Raised by `exec` on an instruction the model gives no meaning yet. Safe: no next state is claimed. -/
  | notModelled (mnemonic : String)
deriving DecidableEq, Repr

/-- What a step answers. -/
abbrev Outcome := Host.Outcome State Fault Refusal

/-! ## Reset -/

/-- NonceState with every byte and every field zero (10_state.md R35), its buffers `cap` bytes long. -/
def NonceState.zero (cap : Nat) : NonceState where
  k := List.replicate cap 0
  v := List.replicate cap 0
  t := List.replicate cap 0
  tlen := 0
  step := .step0
  retry := 0
  det := false

/-- No answer scripted; the HMAC unit answers every call (log entry 4). -/
def Oracles.unscripted : Oracles where
  entropy := []
  acquire := []
  write := []
  run := []
  wait := []
  hmacAnswers := none

/-- Every item of 70_reset_and_hazards.md R240 at its value, for given parameters and surroundings. -/
def State.resetWith (p : Params) (o : Oracles) (ins : List Input) (tr : List OracleCall) (r : Resp) : State where
  rfcRetry := false
  hashAlg := 0
  opsz8 := 0
  diglen8 := 0
  busy := false
  done := false
  err := .none
  cmp := .equal
  borrow := false
  doneEn := false
  werrEn := false
  donePend := false
  werrPend := false
  maxAtt := 255
  attempts := 0
  faultInfo := .none
  aluImm := 0
  mem := []
  nonce := NonceState.zero p.bufcap
  draws := 0
  handle := none
  d2o := List.replicate p.bufcap 0
  ctl := .idle
  params := p
  oracles := o
  inputs := ins
  trace := tr
  resp := r

/-- The machine right after reset (70_reset_and_hazards.md R240). The parameters are `Config`'s opaque values (log entry
1), and the surroundings are empty (log entries 3, 4, 7, 8). -/
def State.reset : State := State.resetWith Config.params Oracles.unscripted [] [] ⟨false, 0⟩

end Sys2Proof.Machine
end

