-- ==== Sys2Proof/Machine/Ops.lean ====
section
/-! DEFINITION. The shared operations: big-endian byte strings, the memory of the byte buffers, the oracle calls,
acceptance, zeroization, and the one termination every command ends in (60_exceptions.md R214 to R216). -/

namespace Sys2Proof.Machine

open Sys2Proof

/-! ## Big-endian byte strings (00_scope.md R10, R11) -/

/-- `int(s, L)` of a byte string of length L, the first byte the most significant (00_scope.md R11). -/
def beInt (s : Bytes) : Nat := s.foldl (fun acc b => acc * 256 + b.toNat) 0

/-- `be(L, v)`: byte j is bits [8·(L−1−j)+7 : 8·(L−1−j)] of v (00_scope.md R11). -/
def be : Nat → Nat → Bytes
  | 0, _ => []
  | L + 1, v => BitVec.ofNat 8 (v >>> (8 * L)) :: be L v

/-- `0x00^L` (00_scope.md R10). -/
def zeros (L : Nat) : Bytes := List.replicate L 0x00

/-- `0x01^L` (00_scope.md R10). -/
def ones (L : Nat) : Bytes := List.replicate L 0x01

/-- `bitlen(v)`: the smallest k with v < 2^k (00_scope.md R10). -/
def bitlen (v : Nat) : Nat := if v = 0 then 0 else Nat.log2 v + 1

/-- A byte string brought to exactly L bytes: cut at the end, or filled with zero bytes at the end (log entry 5). -/
def fit (L : Nat) (s : Bytes) : Bytes := s.take L ++ zeros (L - s.length)

/-- `X[off..off+len(y)) ← y` on a hidden buffer (00_scope.md R12). -/
def splice (x : Bytes) (off : Nat) (y : Bytes) : Bytes := x.take off ++ y ++ x.drop (off + y.length)

/-! ## The memory of the byte buffers -/

/-- What an offset that the memory does not list reads as: every buffer byte is 0x00 at reset
(70_reset_and_hazards.md R240). -/
def unlisted : Byte := 0x00

/-- The byte at a window offset. -/
def memRead : Memory → Nat → Byte
  | [], _ => unlisted
  | (k, b) :: m, a => if k = a then b else memRead m a

/-- Write of one byte at a window offset; the canonical form is kept. -/
def memWrite : Memory → Nat → Byte → Memory
  | [], a, v => if v = unlisted then [] else [(a, v)]
  | (k, b) :: m, a, v =>
    if a < k then (if v = unlisted then (k, b) :: m else (a, v) :: (k, b) :: m)
    else if a = k then (if v = unlisted then m else (a, v) :: m)
    else (k, b) :: memWrite m a v

/-- The canonical form: offsets strictly rising, no entry equal to what an unlisted offset reads as. -/
def memWf (m : Memory) : Bool :=
  decide (m.Pairwise (fun x y => x.1 < y.1)) && m.all (fun c => decide (c.2 ≠ unlisted))

/-- The bytes at `a`, `a+1`, …, `a+n−1`. -/
def memReadBytes (m : Memory) (a n : Nat) : Bytes := (List.range n).map fun j => memRead m (a + j)

/-- Write of a byte string from offset `a` on. -/
def memWriteBytes : Memory → Nat → Bytes → Memory
  | m, _, [] => m
  | m, a, b :: bs => memWriteBytes (memWrite m a b) (a + 1) bs

/-! ## The nine buffers (10_state.md R33) -/

/-- The host-visible byte buffers (10_state.md R33). -/
inductive Buf where
  | key
  | digest
  | n
  | a
  | b
  | r
  | nonce
  | sigR
  | sigS
deriving DecidableEq, Repr

/-- The window base of a buffer (10_state.md R33, 20_memory.md R51). -/
def bufBase : Buf → Nat
  | .key => 0x100
  | .digest => 0x180
  | .n => 0x200
  | .a => 0x280
  | .b => 0x300
  | .r => 0x380
  | .nonce => 0x400
  | .sigR => 0x480
  | .sigS => 0x500

/-- BUFCAP (00_scope.md R7). -/
def State.bufcap (s : State) : Nat := s.params.bufcap

/-- X[0..L). -/
def State.bytes (s : State) (x : Buf) (L : Nat) : Bytes := memReadBytes s.mem (bufBase x) L

/-- `X[0..len(v)) ← v`; the other bytes of X stay. -/
def State.setBytes (s : State) (x : Buf) (v : Bytes) : State :=
  { s with mem := memWriteBytes s.mem (bufBase x) v }

/-- `X[0..L) ← v; X[L..BUFCAP) ← 0` for a v of L bytes (40_bigint.md R99, 41_nonce_random.md R130). -/
def State.fill (s : State) (x : Buf) (v : Bytes) : State :=
  s.setBytes x (v ++ zeros (s.bufcap - v.length))

/-- `X[0..BUFCAP) ← 0`. -/
def State.wipe (s : State) (x : Buf) : State := s.setBytes x (zeros s.bufcap)

/-! ## Acceptance and the control point -/

/-- The control point that a command word leads to (60_exceptions.md R214). -/
def startOf (w : Word) : Control :=
  match decode w with
  | .ok i => .running i .start
  | .error _ => .illegal

/-- Whether a word decodes to SIGN_RND or SIGN_DET (60_exceptions.md R214). -/
def isSignWord (w : Word) : Bool :=
  match decode w with
  | .ok i => i.isSign
  | .error _ => false

/-- accept(w) (60_exceptions.md R214). -/
def State.accept (s : State) (w : Word) : State :=
  { s with
    busy := true
    done := false
    err := .none
    faultInfo := .none
    attempts := if isSignWord w then 0 else s.attempts
    ctl := startOf w }

/-- The point of command `i` at which the engine stands; `start` where it is not inside `i` (log entry 15). -/
def State.pointOf (s : State) (i : Instr) : Point :=
  match s.ctl with
  | .running j p => if j = i then p else .start
  | .idle => .start
  | .illegal => .start

/-- The engine's next step of command `i` begins at point `p`. -/
def State.goto (s : State) (i : Instr) (p : Point) : State := { s with ctl := .running i p }

/-! ## Zeroization and termination: the end of every command, error or not -/

/-- zeroize_session() (60_exceptions.md R216). -/
def State.zeroizeSession (s : State) : State :=
  let s := (s.wipe .key).wipe .digest
  { s with
    nonce := NonceState.zero s.bufcap
    draws := 0
    handle := none
    d2o := zeros s.bufcap }

/-- The wipe of a failed command's output (60_exceptions.md R215). -/
def State.wipeOutput (s : State) (cmd : Option Instr) (e : ErrCode) : State :=
  match cmd with
  | none => s
  | some i =>
    if e ≠ .none ∧ i.isNonce then s.wipe .nonce
    else if e ≠ .none ∧ i.isSign then (s.wipe .sigR).wipe .sigS
    else s

/-- The session zeroization of a nonce or signing command (60_exceptions.md R215). -/
def State.wipeSession (s : State) (cmd : Option Instr) : State :=
  match cmd with
  | none => s
  | some i => if i.isNonce || i.isSign then s.zeroizeSession else s

/-- STATUS, INTSTAT and the control point at termination (60_exceptions.md R215). -/
def State.close (s : State) (e : ErrCode) : State :=
  { s with err := e, busy := false, done := true, donePend := true, ctl := .idle }

/-- terminate(E) of command `cmd`, `none` for a word that did not decode (60_exceptions.md R215). `raise E` and `finish()`
are this one operation (00_scope.md R12), and there is nothing to return to (60_exceptions.md R210, R219). -/
def State.terminate (s : State) (cmd : Option Instr) (e : ErrCode) : State :=
  ((s.wipeOutput cmd e).wipeSession cmd).close e

/-- `raise E` in command `i` (00_scope.md R12). -/
def State.raise (s : State) (i : Instr) (e : ErrCode) : State := s.terminate (some i) e

/-- `finish()` of command `i` (00_scope.md R12). -/
def State.finish (s : State) (i : Instr) : State := s.terminate (some i) .none

/-- `FAULTINFO.CAUSE ← c; raise HARDWARE_FAULT` (41_nonce_random.md R131, 43_retry_controller.md R172). -/
def State.hwFault (s : State) (i : Instr) (c : FaultCause) : State :=
  { s with faultInfo := c }.raise i .hardwareFault

/-- The FAULTINFO cause of a channel FATAL (43_retry_controller.md R172 chfault). -/
def chanCause : FatalCause → FaultCause
  | .dma => .dma
  | .busy => .busy
  | .uninit => .uninit

/-! ## The HMAC unit -/

/-- HLEN = digest_size(CTRL.HASHALG) (42_nonce_rfc6979.md R141); 0 where the hash id is unsupported, which hash_ok
excludes. -/
def State.hlen (s : State) : Nat := (s.params.digestSize s.hashAlg).getD 0

/-- hmacFn(CTRL.HASHALG, key, msg), HLEN bytes (00_scope.md R7, R13, log entry 2). -/
def State.hmac (s : State) (key msg : Bytes) : Bytes :=
  fit s.hlen <|
    match s.params.hmacRows.find? (fun row => row.alg == s.hashAlg && row.key == key && row.msg == msg) with
    | some row => row.answer
    | none => Config.hmacFn s.hashAlg key msg

/-- One HMAC call: `f` gets the answer; a unit that does not answer leaves the engine in its call
(00_scope.md R13, 70_reset_and_hazards.md R248). -/
def State.withHmac (s : State) (key msg : Bytes) (f : State → Bytes → State) : State :=
  match s.oracles.hmacAnswers with
  | some 0 => s
  | left =>
    f { s with
        oracles := { s.oracles with hmacAnswers := left.map (· - 1) }
        trace := .hmac s.hashAlg key msg :: s.trace } (s.hmac key msg)

/-! ## Reset as an input -/

/-- Reset (70_reset_and_hazards.md R240, R241): every item of the block at its reset value; what surrounds the block goes
on (log entry 13). -/
def State.resetInput (s : State) : State := State.resetWith s.params s.oracles s.inputs s.trace s.resp

end Sys2Proof.Machine
end

