-- ==== Sys2Proof/Machine/Functions.lean ====
section
/-! DEFINITION. The bigint functions of 40_bigint.md R110 to R114, on byte strings and their lengths. -/

namespace Sys2Proof.Machine

open Sys2Proof

/-- sign(d) (40_bigint.md R110). -/
def signOf (d : Int) : CmpResult := if d = 0 then .equal else if 0 < d then .greater else .less

/-- cmp3(a, b, L, cin) for byte strings of one length (40_bigint.md R110). -/
def cmp3 (a b : Bytes) (cin : Int) : CmpResult := signOf ((beInt a : Int) + cin - (beInt b : Int))

/-- mask(v, bits) (40_bigint.md R114). -/
def mask (v bits : Nat) : Nat := v % 2 ^ bits

/-- bits2int(data, dlen, qlen), dlen the length of data (40_bigint.md R111). -/
def bits2int (data : Bytes) (qlen : Nat) : Nat :=
  if qlen < 8 * data.length then beInt data >>> (8 * data.length - qlen) else beInt data

/-- bits2octets(data, dlen, N, OPSZ), OPSZ the length of N (40_bigint.md R112). -/
def bits2octets (data n : Bytes) : Bytes :=
  let q := beInt n
  let v := bits2int data (bitlen q)
  be n.length (if cmp3 (be n.length v) n 0 = .less then v else v - q)

/-- digest2op(d, dlen, OPSZ), dlen the length of d (40_bigint.md R113). -/
def digest2op (sel : D2opSelect) (d : Bytes) (opsz : Nat) : Bytes :=
  if d.length < opsz then zeros (opsz - d.length) ++ d
  else
    match sel with
    | .trailing => d.drop (d.length - opsz)
    | .leading => d.take opsz

/-- A candidate that step 6 and rnd_k refuse: zero, or not below n (41_nonce_random.md R131, 42_nonce_rfc6979.md R149). -/
def outOfRange (c n : Bytes) : Bool := decide (beInt c = 0) || decide (cmp3 c n 0 ≠ .less)

end Sys2Proof.Machine
end

