-- ==== Sys2Proof/Machine/Operands.lean ====
section
/-! DEFINITION. The operands of the commands: the size and immediate operands, the implicit buffers and registers, and
the argument checks of 60_exceptions.md R213. -/

namespace Sys2Proof.Machine

open Sys2Proof

/-- CFG.OPSZ as a length (10_state.md R23). -/
def State.opsz (s : State) : Nat := s.opsz8.toNat

/-- CFG.DIGLEN as a length (10_state.md R23). -/
def State.diglen (s : State) : Nat := s.diglen8.toNat

/-- imm = ALU_IMM[31:0], unsigned (30_encoding.md R85). -/
def State.imm (s : State) : Nat := s.aluImm.toNat

/-- MAX = MAXATT.MAX_ATTEMPTS (43_retry_controller.md R175). -/
def State.maxAttempts (s : State) : Nat := s.maxAtt.toNat

/-- A[0..SZ) (40_bigint.md R100 to R107). -/
def State.opA (s : State) (sz : Nat) : Bytes := s.bytes .a sz

/-- B[0..SZ) (40_bigint.md R100, R102). -/
def State.opB (s : State) (sz : Nat) : Bytes := s.bytes .b sz

/-- The order N[0..OPSZ) (42_nonce_rfc6979.md R141). -/
def State.order (s : State) : Bytes := s.bytes .n s.opsz

/-- The private key x = KEY[0..OPSZ) (42_nonce_rfc6979.md R141). -/
def State.privKey (s : State) : Bytes := s.bytes .key s.opsz

/-- The digest DIGEST[0..DIGLEN) (43_retry_controller.md R173). -/
def State.digest (s : State) : Bytes := s.bytes .digest s.diglen

/-- q = int(N, OPSZ) (42_nonce_rfc6979.md R141). -/
def State.q (s : State) : Nat := beInt s.order

/-- qlen = bitlen(q) (42_nonce_rfc6979.md R141). -/
def State.qlen (s : State) : Nat := bitlen s.q

/-- The candidate T[0..OPSZ) (41_nonce_random.md R131, 42_nonce_rfc6979.md R150). -/
def State.cand (s : State) : Bytes := s.nonce.t.take s.opsz

/-- K[0..HLEN) (42_nonce_rfc6979.md R141). -/
def State.kKey (s : State) : Bytes := s.nonce.k.take s.hlen

/-- V[0..HLEN) (42_nonce_rfc6979.md R143). -/
def State.vVal (s : State) : Bytes := s.nonce.v.take s.hlen

/-- sz_ok() (60_exceptions.md R213). -/
def State.szOk (s : State) (sz : Nat) : Bool := decide (1 ≤ sz) && decide (sz ≤ s.bufcap)

/-- 1 ≤ CFG.OPSZ ≤ MAX_OPSZ (60_exceptions.md R213). -/
def State.opszOk (s : State) : Bool := decide (1 ≤ s.opsz) && decide (s.opsz ≤ s.params.maxOpsz)

/-- curve_ok() (60_exceptions.md R213). -/
def State.curveOk (s : State) : Bool := s.opszOk && decide (2 ≤ s.q)

/-- hash_ok() (60_exceptions.md R213). -/
def State.hashOk (s : State) : Bool := decide (s.params.digestSize s.hashAlg = some s.diglen)

/-- 1 ≤ ALU_IMM ≤ 8·BUFCAP (40_bigint.md R105, 60_exceptions.md R213). -/
def State.immOk (s : State) : Bool := decide (1 ≤ s.imm) && decide (s.imm ≤ 8 * s.bufcap)

end Sys2Proof.Machine
end

