-- ==== Sys2Proof/Machine/Flags.lean ====
section
/-! DEFINITION. The two flags a command writes, STATUS.CMP and STATUS.BORROW, the bit patterns of STATUS's fields, and the
interrupt line. -/

namespace Sys2Proof.Machine

open Sys2Proof

/-- STATUS.BORROW of a − b (40_bigint.md R102). -/
def borrowOf (a b : Bytes) : Bool := decide ((beInt a : Int) - (beInt b : Int) < 0)

/-- STATUS.CMP (10_state.md R25, 40_bigint.md R100). -/
def cmpBits : CmpResult → BitVec 2
  | .equal => 0b00
  | .greater => 0b01
  | .less => 0b11

/-- STATUS.ERR (60_exceptions.md R211). -/
def errBits : ErrCode → BitVec 4
  | .none => 0
  | .invalidArgument => 1
  | .hardwareFault => 2
  | .tooManyAttempts => 3
  | .insufficientEntropy => 4
  | .illegalCommand => 5
  | .invalidSignature => 6

/-- STATUS.STEP (10_state.md R25, R39). -/
def stepBits : RfcStep → BitVec 3
  | .step0 => 0
  | .step1 => 1
  | .step2 => 2
  | .step3 => 3
  | .step4 => 4
  | .step5 => 5
  | .step6 => 6

/-- FAULTINFO.CAUSE (10_state.md R30). -/
def causeBits : FaultCause → BitVec 4
  | .none => 0
  | .dma => 1
  | .busy => 2
  | .uninit => 3
  | .entropy => 4

/-- STATUS as a word, bit 31 first (10_state.md R25). -/
def State.statusWord (s : State) : Word :=
  (0 : BitVec 8) ++ s.nonce.retry ++ (0 : BitVec 1) ++ BitVec.ofBool s.borrow ++ cmpBits s.cmp ++
    BitVec.ofBool s.nonce.det ++ stepBits (if s.nonce.det then s.nonce.step else .step0) ++ errBits s.err ++
    (0 : BitVec 2) ++ BitVec.ofBool s.done ++ BitVec.ofBool s.busy

/-- IRQ (10_state.md R38, 60_exceptions.md R220). -/
def State.irq (s : State) : Bool := (s.donePend && s.doneEn) || (s.werrPend && s.werrEn)

end Sys2Proof.Machine
end

