-- ==== Sys2Proof/Machine/Bigint.lean ====
section
/-! DEFINITION. The bigint family (40_bigint.md R100 to R107). -/

namespace Sys2Proof.Machine

open Sys2Proof

/-- The shape of every command of the family: one engine step that checks, writes and terminates (40_bigint.md R99). -/
def State.bigint (s : State) (i : Instr) (ok : Bool) (effect : State → State) : State :=
  if ok then (effect s).finish i else s.raise i .invalidArgument

/-- "Write R with the bytes v" (40_bigint.md R99). -/
def State.writeR (s : State) (v : Bytes) : State := s.fill .r v

/-- CMP, compare with carry-in (40_bigint.md R100). -/
def execCmp (sz : Nat) (cin : Int) (s : State) : Outcome :=
  .next (s.bigint (.cmp sz cin) (s.szOk sz) fun s => { s with cmp := cmp3 (s.opA sz) (s.opB sz) cin })

/-- ADD, add ALU_IMM to A in place (40_bigint.md R101). -/
def execAdd (sz : Nat) (s : State) : Outcome :=
  .next (s.bigint (.add sz) (s.szOk sz) fun s =>
    s.setBytes .a (be sz ((beInt (s.opA sz) + s.imm) % 2 ^ (8 * sz))))

/-- SUB, R = A − B and the borrow (40_bigint.md R102). -/
def execSub (sz : Nat) (s : State) : Outcome :=
  .next (s.bigint (.sub sz) (s.szOk sz) fun s =>
    let d : Int := (beInt (s.opA sz) : Int) - (beInt (s.opB sz) : Int)
    { s.writeR (be sz (d % 2 ^ (8 * sz)).toNat) with borrow := borrowOf (s.opA sz) (s.opB sz) })

/-- RSHIFT, logical right shift of A by ALU_IMM (40_bigint.md R103). -/
def execRshift (sz : Nat) (s : State) : Outcome :=
  .next (s.bigint (.rshift sz) (s.szOk sz) fun s =>
    s.writeR (be sz (if 8 * sz ≤ s.imm then 0 else beInt (s.opA sz) >>> s.imm)))

/-- TRUNC, the ALU_IMM low bits of A (40_bigint.md R104). -/
def execTrunc (sz : Nat) (s : State) : Outcome :=
  .next (s.bigint (.trunc sz) (s.szOk sz) fun s =>
    s.writeR (be sz (if 8 * sz ≤ s.imm then beInt (s.opA sz) else mask (beInt (s.opA sz)) s.imm)))

/-- BITS2INT of A with qlen = ALU_IMM (40_bigint.md R105). -/
def execBits2int (sz : Nat) (s : State) : Outcome :=
  .next (s.bigint (.bits2int sz) (s.szOk sz && s.immOk) fun s =>
    s.writeR (be ((s.imm + 7) / 8) (bits2int (s.opA sz) s.imm)))

/-- BITS2OCT of A with the order N (40_bigint.md R106). -/
def execBits2oct (sz : Nat) (s : State) : Outcome :=
  .next (s.bigint (.bits2oct sz) (s.szOk sz && s.curveOk) fun s =>
    s.writeR (bits2octets (s.opA sz) s.order))

/-- D2OP of A to OPSZ bytes (40_bigint.md R107). -/
def execD2op (sz : Nat) (s : State) : Outcome :=
  .next (s.bigint (.d2op sz) (s.szOk sz && s.opszOk) fun s =>
    s.writeR (digest2op s.params.d2opSelect (s.opA sz) s.opsz))

end Sys2Proof.Machine
end

