-- ==== Sys2Proof/Machine/Control.lean ====
section
/-! DEFINITION. The control family: NOP and ZEROIZE (44_control.md). -/

namespace Sys2Proof.Machine

open Sys2Proof

/-- NOP (44_control.md R200). -/
def execNop (s : State) : Outcome := .next (s.finish .nop)

/-- Every buffer that ZEROIZE wipes beside the session (44_control.md R201). -/
def State.wipeOperands (s : State) : State :=
  ((((((s.wipe .n).wipe .a).wipe .b).wipe .r).wipe .nonce).wipe .sigR).wipe .sigS

/-- ZEROIZE (44_control.md R201). -/
def execZeroize (s : State) : Outcome := .next (s.zeroizeSession.wipeOperands.finish .zeroize)

end Sys2Proof.Machine
end

