-- ==== Sys2Proof/Machine/NonceRandom.lean ====
section
/-! DEFINITION. The randomized nonce: rnd_k (41_nonce_random.md R131), shared with SIGN_RND, and NONCE_RND (R130). -/

namespace Sys2Proof.Machine

open Sys2Proof

/-- `T[0..len(c)) ← c` on the hidden T. -/
def State.putT (s : State) (c : Bytes) : State :=
  { s with nonce := { s.nonce with t := splice s.nonce.t 0 c } }

/-- The head of rnd_k: DRAWS ← 0, and on to the first draw (41_nonce_random.md R131). -/
def State.startDraws (s : State) (i : Instr) : State := { s with draws := 0 }.goto i .draw

/-- The draw's bytes into T (41_nonce_random.md R131). -/
def State.takeDraw (s : State) (i : Instr) (e : Bytes) : State :=
  let s := s.putT (fit s.opsz e)
  { s with nonce := { s.nonce with tlen := s.opsz } }.goto i .test

/-- An Entropy call that the source answers: the draw is counted, and the answer taken (41_nonce_random.md R131). -/
def State.entropyAnswered (s : State) (i : Instr) (a : EntropyAnswer) (rest : List EntropyAnswer) : State :=
  let s := { s with
    draws := s.draws + 1
    oracles := { s.oracles with entropy := rest }
    trace := .entropy s.opsz :: s.trace }
  match a with
  | .fail => s.hwFault i .entropy
  | .bytes e => s.takeDraw i e

/-- rnd_k at its bound test and Entropy call; an unanswered call leaves the engine in it (41_nonce_random.md R131,
70_reset_and_hazards.md R248). -/
def State.drawStep (s : State) (i : Instr) : State :=
  if s.draws = s.params.rndMaxDraws then s.raise i .insufficientEntropy
  else
    match s.oracles.entropy with
    | [] => s
    | a :: rest => s.entropyAnswered i a rest

/-- The masked candidate be(OPSZ, mask(int(T), qlen)) (41_nonce_random.md R131). -/
def State.maskedCand (s : State) : Bytes := be s.opsz (mask (beInt s.cand) s.qlen)

/-- rnd_k at its test-and-redraw decision: on to `accepted`, or to the next draw (41_nonce_random.md R131). -/
def State.testStep (s : State) (i : Instr) (accepted : Point) : State :=
  (s.putT s.maskedCand).goto i (if outOfRange s.maskedCand s.order then .draw else accepted)

/-- The end of NONCE_RND and NONCE_DET: the candidate into NONCE, zero above it, and finish()
(41_nonce_random.md R130, 42_nonce_rfc6979.md R142). -/
def State.giveNonce (s : State) (i : Instr) : State := (s.fill .nonce s.cand).finish i

/-- NONCE_RND (41_nonce_random.md R130): its engine step at the control point. -/
def execNonceRnd (s : State) : Outcome :=
  .next (match s.pointOf .nonceRnd with
    | .draw => s.drawStep .nonceRnd
    | .test => s.testStep .nonceRnd .finish
    | .finish => s.giveNonce .nonceRnd
    | _ => if s.curveOk then s.startDraws .nonceRnd else s.raise .nonceRnd .invalidArgument)

end Sys2Proof.Machine
end

