-- ==== Sys2Proof/Machine/NonceDet.lean ====
section
/-! DEFINITION. The RFC 6979 machine: its steps 0 to 6 and forced_reject (42_nonce_rfc6979.md R143 to R151), shared with
SIGN_DET, and NONCE_DET (R142). -/

namespace Sys2Proof.Machine

open Sys2Proof

/-- derive(FRESH): a new NonceState at step 0 (42_nonce_rfc6979.md R140). -/
def State.startDerive (s : State) (i : Instr) : State :=
  { s with nonce := { s.nonce with det := true, retry := 0, step := .step0 } }.goto i .derive

/-- `K[0..HLEN) ← k; STEP ← st` on a state that an HMAC call has answered. -/
def State.putK (s : State) (st : RfcStep) (k : Bytes) : State :=
  { s with nonce := { s.nonce with k := splice s.nonce.k 0 k, step := st } }

/-- `V[0..HLEN) ← v; STEP ← st` on a state that an HMAC call has answered. -/
def State.putV (s : State) (st : RfcStep) (v : Bytes) : State :=
  { s with nonce := { s.nonce with v := splice s.nonce.v 0 v, step := st } }

/-- h = DIGEST[0..HLEN) (42_nonce_rfc6979.md R141). -/
def State.hashDigest (s : State) : Bytes := s.bytes .digest s.hlen

/-- T0 = bits2octets(h) (42_nonce_rfc6979.md R143). -/
def State.t0 (s : State) : Bytes := bits2octets s.hashDigest s.order

/-- The message of steps 0 and 2: V ‖ sep ‖ private_key ‖ T0 (42_nonce_rfc6979.md R143, R145). -/
def State.keyMsg (s : State) (v : Bytes) (sep : Byte) (t0 : Bytes) : Bytes := v ++ [sep] ++ s.privKey ++ t0

/-- K, V, T and TLEN as step 0 sets them before its HMAC call (42_nonce_rfc6979.md R143). -/
def State.initKVT (s : State) : State :=
  { s with nonce := { s.nonce with
      k := splice s.nonce.k 0 (zeros s.hlen)
      v := splice s.nonce.v 0 (ones s.hlen)
      t := splice s.nonce.t 0 s.t0
      tlen := s.opsz } }

/-- step0() (42_nonce_rfc6979.md R143). -/
def State.rfc0 (s : State) : State :=
  s.withHmac (zeros s.hlen) (s.keyMsg (ones s.hlen) 0x00 s.t0) fun s k => s.initKVT.putK .step1 k

/-- step1() (42_nonce_rfc6979.md R144). -/
def State.rfc1 (s : State) : State := s.withHmac s.kKey s.vVal (State.putV · .step2)

/-- step2() (42_nonce_rfc6979.md R145). -/
def State.rfc2 (s : State) : State :=
  s.withHmac s.kKey (s.keyMsg s.vVal 0x01 s.cand) (State.putK · .step3)

/-- `T[0..BUFCAP) ← 0; TLEN ← 0` (42_nonce_rfc6979.md R146). -/
def State.emptyT (s : State) : State :=
  { s with nonce := { s.nonce with t := zeros s.bufcap, tlen := 0 } }

/-- step3() (42_nonce_rfc6979.md R146). -/
def State.rfc3 (s : State) : State := s.withHmac s.kKey s.vVal fun s v => (s.putV .step4 v).emptyT

/-- step4() (42_nonce_rfc6979.md R147). -/
def State.rfc4 (s : State) : State := s.withHmac s.kKey s.vVal (State.putV · .step5)

/-- step5(): append min(HLEN, OPSZ − TLEN) bytes of V (42_nonce_rfc6979.md R148). -/
def State.rfc5 (s : State) : State :=
  let m := min s.hlen (s.opsz - s.nonce.tlen)
  let len := s.nonce.tlen + m
  { s with nonce := { s.nonce with
      t := splice s.nonce.t s.nonce.tlen (s.nonce.v.take m)
      tlen := len
      step := if len < s.opsz then .step4 else .step6 } }

/-- The candidate of step 6: be(OPSZ, bits2int(T[0..OPSZ), OPSZ, qlen)) (42_nonce_rfc6979.md R149). -/
def State.reducedCand (s : State) : Bytes := be s.opsz (bits2int s.cand s.qlen)

/-- The key update of a rejection, K ← HMAC_K(V ‖ 0x00), and back to step 3 (42_nonce_rfc6979.md R149, R151). -/
def State.rejectKey (s : State) (f : State → State) : State :=
  s.withHmac s.kKey (s.vVal ++ [0x00]) fun s k => f (s.putK .step3 k)

/-- step6() in command `i`: what the caller does with an accepted candidate is `accept` (42_nonce_rfc6979.md R149, R150). -/
def State.rfc6 (s : State) (i : Instr) (accept : State → State) : State :=
  if outOfRange s.reducedCand s.order then
    if s.nonce.retry = s.maxAtt then (s.putT s.reducedCand).raise i .tooManyAttempts
    else
      s.rejectKey fun s' =>
        let s' := s'.putT s.reducedCand
        { s' with nonce := { s'.nonce with retry := s.nonce.retry + 1 } }
  else accept (s.putT s.reducedCand)

/-- One step of derive's loop, at the step that STEP names (42_nonce_rfc6979.md R140). -/
def State.deriveStep (s : State) (i : Instr) (accept : State → State) : State :=
  match s.nonce.step with
  | .step0 => s.rfc0
  | .step1 => s.rfc1
  | .step2 => s.rfc2
  | .step3 => s.rfc3
  | .step4 => s.rfc4
  | .step5 => s.rfc5
  | .step6 => s.rfc6 i accept

/-- derive(FRESH) as a command's first engine step enters it: the fresh NonceState and step 0. An HMAC call that is not
answered leaves the engine in step 0 (42_nonce_rfc6979.md R140, R143, 70_reset_and_hazards.md R248, R251, log entry 10). -/
def State.enterDerive (s : State) (i : Instr) : State := (s.startDerive i).rfc0

/-- forced_reject() (42_nonce_rfc6979.md R151). -/
def State.forcedReject (s : State) (i : Instr) : State := s.rejectKey fun s => s.goto i .derive

/-- NONCE_DET (42_nonce_rfc6979.md R142): its engine step at the control point. The checks belong to the step of step 0
and the end to the step of the accepting step 6, so that its steps are those that R251 counts (log entry 10). -/
def execNonceDet (s : State) : Outcome :=
  .next (match s.pointOf .nonceDet with
    | .derive => s.deriveStep .nonceDet (·.giveNonce .nonceDet)
    | _ => if s.hashOk && s.curveOk then s.enterDerive .nonceDet else s.raise .nonceDet .invalidArgument)

end Sys2Proof.Machine
end

