-- ==== Sys2Proof/Machine/Sign.lean ====
section
/-! DEFINITION. The retry controller: the attempt loop (43_retry_controller.md R175), the channel round trip (R172), and
SIGN_RND (R174) and SIGN_DET (R176). -/

namespace Sys2Proof.Machine

open Sys2Proof

/-- nonce_for_attempt(a) for a > 0: rnd_k for SIGN_RND (43_retry_controller.md R174); for SIGN_DET derive(FRESH) with
RFCRETRY = 0, else derive(CONTINUE) (R176 to R178). -/
def State.nonceForRetry (s : State) (i : Instr) : State :=
  if i.isDet then
    if s.rfcRetry then s.goto i .reject else s.startDerive i
  else s.startDraws i

/-- The start of the loop: ATTEMPTS ← 0, and attempt 0 begins, with derive(FRESH) at its step 0 for SIGN_DET
(43_retry_controller.md R175, R176). -/
def State.firstAttempt (s : State) (i : Instr) : State :=
  let s := { s with attempts := 1 }
  if i.isDet then s.enterDerive i else s.startDraws i

/-- After a retryable outcome: the next attempt, or TOO_MANY_ATTEMPTS when a = MAX is done (43_retry_controller.md R175). -/
def State.nextAttempt (s : State) (i : Instr) : State :=
  if s.attempts.toNat = s.maxAttempts + 1 then s.raise i .tooManyAttempts
  else { s with attempts := s.attempts + 1 }.nonceForRetry i

/-- chfault(c) (43_retry_controller.md R172). -/
def State.chFault (s : State) (i : Instr) (c : FatalCause) : State := s.hwFault i (chanCause c)

/-- D2O[0..OPSZ) ← digest2op(DIGEST[0..DIGLEN), DIGLEN, OPSZ) (43_retry_controller.md R173). -/
def State.putD2o (s : State) : State :=
  { s with d2o := splice s.d2o 0 (digest2op s.params.d2opSelect s.digest s.opsz) }

/-- D2O[0..OPSZ) (43_retry_controller.md R172). -/
def State.d2oVal (s : State) : Bytes := s.d2o.take s.opsz

/-- submit at Ch.acquire (43_retry_controller.md R172). -/
def State.acquireStep (s : State) (i : Instr) : State :=
  let s := s.putD2o
  match s.oracles.acquire with
  | [] => s
  | a :: rest =>
    let s := { s with oracles := { s.oracles with acquire := rest }, trace := .acquire :: s.trace }
    match a with
    | .fatal c => s.chFault i c
    | .ok h => { s with handle := some h }.goto i .writePriv

/-- submit at one Ch.write_operand, then on to `next` (43_retry_controller.md R172). -/
def State.writeStep (s : State) (i : Instr) (slot : Slot) (bytes : Bytes) (next : Point) : State :=
  match s.oracles.write with
  | [] => s
  | a :: rest =>
    let s := { s with
      oracles := { s.oracles with write := rest }
      trace := .writeOperand s.handle slot bytes :: s.trace }
    match a with
    | .fatal c => s.chFault i c
    | .ok => s.goto i next

/-- submit at Ch.run (43_retry_controller.md R172). -/
def State.runStep (s : State) (i : Instr) : State :=
  match s.oracles.run with
  | [] => s
  | a :: rest =>
    let s := { s with oracles := { s.oracles with run := rest }, trace := .run s.handle :: s.trace }
    match a with
    | .fatal c => s.chFault i c
    | .ok => s.goto i .wait

/-- SIG_R and SIG_S take the channel's r and s, zero above OPSZ, unchecked (43_retry_controller.md R175, R179). -/
def State.giveSignature (s : State) (i : Instr) (r t : Bytes) : State :=
  ((s.fill .sigR (fit s.opsz r)).fill .sigS (fit s.opsz t)).finish i

/-- submit at Ch.wait, and the loop's classification of the outcome (43_retry_controller.md R171, R172, R175). -/
def State.waitStep (s : State) (i : Instr) : State :=
  match s.oracles.wait with
  | [] => s
  | a :: rest =>
    let s := { s with oracles := { s.oracles with wait := rest }, trace := .wait s.handle :: s.trace }
    match a with
    | .fatal c => s.chFault i c
    | .success r t => { s with handle := none }.giveSignature i r t
    | .notInvertible => { s with handle := none }.nextAttempt i
    | .invalidSignature => { s with handle := none }.nextAttempt i

/-- A SIGN command at its first engine step (43_retry_controller.md R174, R176). -/
def State.signStart (s : State) (i : Instr) : State :=
  if s.hashOk && s.curveOk then s.firstAttempt i else s.raise i .invalidArgument

/-- SIGN_RND (43_retry_controller.md R174): its engine step at the control point. -/
def execSignRnd (s : State) : Outcome :=
  .next (match s.pointOf .signRnd with
    | .draw => s.drawStep .signRnd
    | .test => s.testStep .signRnd .acquire
    | .acquire => s.acquireStep .signRnd
    | .writePriv => s.writeStep .signRnd .priv s.privKey .writeNonce
    | .writeNonce => s.writeStep .signRnd .nonce s.cand .writeDigest
    | .writeDigest => s.writeStep .signRnd .digest s.d2oVal .run
    | .run => s.runStep .signRnd
    | .wait => s.waitStep .signRnd
    | _ => s.signStart .signRnd)

/-- SIGN_DET (43_retry_controller.md R176): its engine step at the control point. -/
def execSignDet (s : State) : Outcome :=
  .next (match s.pointOf .signDet with
    | .derive => s.deriveStep .signDet (·.goto .signDet .acquire)
    | .reject => s.forcedReject .signDet
    | .acquire => s.acquireStep .signDet
    | .writePriv => s.writeStep .signDet .priv s.privKey .writeNonce
    | .writeNonce => s.writeStep .signDet .nonce s.cand .writeDigest
    | .writeDigest => s.writeStep .signDet .digest s.d2oVal .run
    | .run => s.runStep .signDet
    | .wait => s.waitStep .signDet
    | _ => s.signStart .signDet)

end Sys2Proof.Machine
end

