-- ==== Sys2Proof/Machine/Dispatch.lean ====
section
/-! DEFINITION. exec: the engine's next step of a command, one arm per constructor of Instr. -/

namespace Sys2Proof.Machine

open Sys2Proof

def exec (i : Instr) (s : State) : Host.Outcome State Fault Refusal :=
  match i with
  | .nop => Sys2Proof.Machine.execNop s
  | .zeroize => Sys2Proof.Machine.execZeroize s
  | .cmp sz cin => Sys2Proof.Machine.execCmp sz cin s
  | .add sz => Sys2Proof.Machine.execAdd sz s
  | .sub sz => Sys2Proof.Machine.execSub sz s
  | .rshift sz => Sys2Proof.Machine.execRshift sz s
  | .trunc sz => Sys2Proof.Machine.execTrunc sz s
  | .bits2int sz => Sys2Proof.Machine.execBits2int sz s
  | .bits2oct sz => Sys2Proof.Machine.execBits2oct sz s
  | .d2op sz => Sys2Proof.Machine.execD2op sz s
  | .nonceRnd => Sys2Proof.Machine.execNonceRnd s
  | .nonceDet => Sys2Proof.Machine.execNonceDet s
  | .signRnd => Sys2Proof.Machine.execSignRnd s
  | .signDet => Sys2Proof.Machine.execSignDet s

end Sys2Proof.Machine
end

