-- ==== Sys2Proof/Machine/Port.lean ====
section
/-! DEFINITION. The host port: the address map (20_memory.md R51 to R53), the legality of an access (R55), the registers'
views and writes (10_state.md R21 to R32), and the loads and stores MemRead and MemWrite (20_memory.md R69). -/

namespace Sys2Proof.Machine

open Sys2Proof

/-! ## The address map -/

/-- The twelve control and status registers (10_state.md R20). -/
inductive Reg where
  | id
  | ctrl
  | cfg
  | cmd
  | status
  | inten
  | intstat
  | maxatt
  | attempts
  | faultinfo
  | aluImm
  | qlen
deriving DecidableEq, Repr

/-- The registers' window offsets (20_memory.md R51). -/
def regOffset : Reg → Nat
  | .id => 0x000
  | .ctrl => 0x004
  | .cfg => 0x008
  | .cmd => 0x00C
  | .status => 0x010
  | .inten => 0x014
  | .intstat => 0x018
  | .maxatt => 0x01C
  | .attempts => 0x020
  | .faultinfo => 0x024
  | .aluImm => 0x028
  | .qlen => 0x02C

/-- The twelve registers in the order of their offsets. -/
def allRegs : List Reg :=
  [.id, .ctrl, .cfg, .cmd, .status, .inten, .intstat, .maxatt, .attempts, .faultinfo, .aluImm, .qlen]

/-- The register at a window offset; none at a reserved offset (20_memory.md R51, R53). -/
def regAt (o : Nat) : Option Reg := allRegs.find? fun r => regOffset r == o

/-- The nine buffers in the order of their windows. -/
def allBufs : List Buf := [.key, .digest, .n, .a, .b, .r, .nonce, .sigR, .sigS]

/-- The buffer and index of a window offset; none where the offset is reserved, the bytes at BUFCAP and above among them
(20_memory.md R52). -/
def State.bufAt (s : State) (o : Nat) : Option (Buf × Nat) :=
  (allBufs.find? fun x => decide (bufBase x ≤ o ∧ o < bufBase x + s.bufcap ∧ o < bufBase x + 128)).map
    fun x => (x, o - bufBase x)

/-- KEY and DIGEST are write-only (10_state.md R33). -/
def hostReads : Buf → Bool
  | .key | .digest => false
  | .n | .a | .b | .r | .nonce | .sigR | .sigS => true

/-- R, NONCE, SIG_R and SIG_S are read-only (10_state.md R33). -/
def hostWrites : Buf → Bool
  | .key | .digest | .n | .a | .b => true
  | .r | .nonce | .sigR | .sigS => false

/-- The registers a host write reaches (10_state.md R21 to R32). -/
def regWritable : Reg → Bool
  | .ctrl | .cfg | .cmd | .inten | .intstat | .maxatt | .aluImm => true
  | .id | .status | .attempts | .faultinfo | .qlen => false

/-- writable(o): the offset takes a write while BUSY = 0 (20_memory.md R58, R69). -/
def State.writable (s : State) (o : Nat) : Bool :=
  if o < 0x100 then (match regAt o with | some r => regWritable r | none => false)
  else (match s.bufAt o with | some (x, _) => hostWrites x | none => false)

/-! ## Accesses -/

/-- n ∈ {1, 2, 4} (00_scope.md R12). -/
def widthBytes : Width → Nat
  | .w8 => 1
  | .w16 => 2
  | .w32 => 4

/-- legal(o, n) (20_memory.md R55). -/
def legal (o : Nat) (n : Width) : Bool :=
  if o < 0x100 then decide (n = .w32) && decide (o % 4 = 0) else decide (o % widthBytes n = 0)

/-- o = addr − BASE, for an address in BASE .. BASE + 0xFFF (20_memory.md R50, R69). -/
def State.offsetOf (s : State) (addr : Nat) : Option Nat :=
  if s.params.base ≤ addr ∧ addr < s.params.base + 0x1000 then some (addr - s.params.base) else none

/-- bitlen(int(N, OPSZ')) with OPSZ' = min(OPSZ, BUFCAP) (10_state.md R32). -/
def State.qlenView (s : State) : Nat := bitlen (beInt (s.bytes .n (min s.opsz s.bufcap)))

/-- What a register reads as (10_state.md R21 to R32). -/
def State.regView (s : State) : Reg → Word
  | .id => 0x69790001
  | .ctrl => (0 : BitVec 24) ++ s.hashAlg ++ (0 : BitVec 3) ++ BitVec.ofBool s.rfcRetry
  | .cfg => (0 : BitVec 16) ++ s.diglen8 ++ s.opsz8
  | .cmd => 0
  | .status => s.statusWord
  | .inten => (0 : BitVec 30) ++ BitVec.ofBool s.werrEn ++ BitVec.ofBool s.doneEn
  | .intstat => (0 : BitVec 30) ++ BitVec.ofBool s.werrPend ++ BitVec.ofBool s.donePend
  | .maxatt => (0 : BitVec 24) ++ s.maxAtt
  | .attempts => (0 : BitVec 23) ++ s.attempts
  | .faultinfo => (0 : BitVec 28) ++ causeBits s.faultInfo
  | .aluImm => s.aluImm
  | .qlen => (0 : BitVec 21) ++ BitVec.ofNat 11 s.qlenView

/-- reg_read(o) (20_memory.md R53, R69). -/
def State.regRead (s : State) (o : Nat) : Word :=
  match regAt o with
  | some r => s.regView r
  | none => 0

/-- A write to a register (10_state.md R21 to R32): CMD issues a command (R24, 60_exceptions.md R214), INTSTAT clears
(R27, 60_exceptions.md R221), the read-only ones ignore it. -/
def State.regSet (s : State) (r : Reg) (v : Word) : State :=
  match r with
  | .ctrl => { s with rfcRetry := v.getLsbD 0, hashAlg := v.extractLsb' 4 4 }
  | .cfg => { s with opsz8 := v.extractLsb' 0 8, diglen8 := v.extractLsb' 8 8 }
  | .cmd => s.accept v
  | .inten => { s with doneEn := v.getLsbD 0, werrEn := v.getLsbD 1 }
  | .intstat => { s with donePend := s.donePend && !v.getLsbD 0, werrPend := s.werrPend && !v.getLsbD 1 }
  | .maxatt => { s with maxAtt := v.extractLsb' 0 8 }
  | .aluImm => { s with aluImm := v }
  | .id | .status | .attempts | .faultinfo | .qlen => s

/-- reg_write(o, v) (20_memory.md R53, R69). -/
def State.regWrite (s : State) (o : Nat) (v : Word) : State :=
  match regAt o with
  | some r => s.regSet r v
  | none => s

/-- byte_read(o) (20_memory.md R52, R53). -/
def State.byteRead (s : State) (o : Nat) : Byte :=
  match s.bufAt o with
  | some (x, j) => if hostReads x then memRead s.mem (bufBase x + j) else 0
  | none => 0

/-- byte_write(o, b) (20_memory.md R52, R53). -/
def State.byteWrite (s : State) (o : Nat) (b : Byte) : State :=
  match s.bufAt o with
  | some (x, j) => if hostWrites x then { s with mem := memWrite s.mem (bufBase x + j) b } else s
  | none => s

/-- Σ byte_read(o+i) << 8i for i < n: little-endian byte lanes (20_memory.md R54, R69). -/
def State.lanesRead (s : State) (o : Nat) : Nat → Nat
  | 0 => 0
  | n + 1 => (s.byteRead o).toNat + 256 * s.lanesRead (o + 1) n

/-- byte_write(o+i, v[8i+7:8i]) for i < n (20_memory.md R54, R69). -/
def State.lanesWrite (s : State) (o : Nat) (v : Word) : Nat → State
  | 0 => s
  | n + 1 => (s.byteWrite o (v.extractLsb' 0 8)).lanesWrite (o + 1) (v >>> 8) n

/-- What a legal read at offset o returns (20_memory.md R59, R69). -/
def State.readValue (s : State) (o : Nat) (n : Width) : Word :=
  if o < 0x100 then s.regRead o
  else if s.busy then 0
  else BitVec.ofNat 32 (s.lanesRead o (widthBytes n))

/-- A busy-time write that is dropped (20_memory.md R58). -/
def State.dropsWrite (s : State) (o : Nat) : Bool :=
  s.busy && decide (o ≠ 0x014) && decide (o ≠ 0x018) && s.writable o

/-- The effect of a legal write at offset o (20_memory.md R58, R69). -/
def State.writeEffect (s : State) (o : Nat) (n : Width) (v : Word) : State :=
  if s.dropsWrite o then { s with werrPend := true }
  else if o < 0x100 then s.regWrite o v
  else s.lanesWrite o v (widthBytes n)

/-- The port's answer, as the host sees it. -/
def State.respond (s : State) (error : Bool) (data : Word) : State := { s with resp := ⟨error, data⟩ }

/-- MemRead(addr, n) (20_memory.md R69): a refused read has no effect and returns 0 with the error response (R55). -/
def portRead (addr : Nat) (n : Width) (s : State) : Outcome :=
  match s.offsetOf addr with
  | none => .fault .outsideWindow
  | some o => if legal o n then .next (s.respond false (s.readValue o n)) else .next (s.respond true 0)

/-- MemWrite(addr, n, v) (20_memory.md R69): a refused write has no effect (R55). -/
def portWrite (addr : Nat) (n : Width) (v : Word) (s : State) : Outcome :=
  match s.offsetOf addr with
  | none => .fault .outsideWindow
  | some o => if legal o n then .next ((s.writeEffect o n v).respond false 0) else .next (s.respond true 0)

/-- One host access (20_memory.md R60, R69). -/
def hostStep (a : Access) (s : State) : Outcome :=
  match a with
  | .read addr n => portRead addr n s
  | .write addr n v => portWrite addr n v s

end Sys2Proof.Machine
end

