-- ==== Sys2Proof/Machine/Step.lean ====
section
/-! DEFINITION. One step of the machine (20_memory.md R60): a host access, a reset, or an engine step. -/

namespace Sys2Proof.Machine

open Sys2Proof

/-- The engine's step: none while it is idle (10_state.md R37), the termination of a word that did not decode
(60_exceptions.md R213, R215), or the next step of the running command. -/
def engineStep (s : State) : Outcome :=
  match s.ctl with
  | .idle => .next s
  | .illegal => .next (s.terminate none .illegalCommand)
  | .running i _ => exec i s

/-- One step: the next input of the interleaving; the engine's step when no other input is left
(20_memory.md R60, 70_reset_and_hazards.md R252, log entry 3). -/
def step (s : State) : Host.Outcome State Fault Refusal :=
  match s.inputs with
  | [] => engineStep s
  | .engine :: rest => engineStep { s with inputs := rest }
  | .host a :: rest => hostStep a { s with inputs := rest }
  | .reset :: rest => .next { s with inputs := rest }.resetInput

/-- `s` with the command word accepted (60_exceptions.md R214) and the engine to move next: the engine has no fetch, and
its next command is the one its control point holds (20_memory.md R65, log entry 11). -/
def State.withFetchWord (s : State) (nbits w : Nat) : State :=
  { s.accept (BitVec.ofNat 32 (w % 2 ^ nbits)) with inputs := .engine :: s.inputs }

end Sys2Proof.Machine
end

