-- ==== Sys2Proof/Safety.lean ====
section
/-! DEFINITION. The terms claims are stated in: the end of a command, what a store leaves alone, the invariant of every
run, and runs of the engine alone. -/

namespace Sys2Proof.Machine

open Sys2Proof

/-! ## The end of a command and the frame of a store -/

/-- `s` with the fields that termination with code `e` writes (60_exceptions.md R215), and nothing else changed. -/
def State.ended (s : State) (e : ErrCode) : State :=
  { s with err := e, busy := false, done := true, donePend := true, ctl := .idle }

/-- `s` with the hidden state at its zero values (60_exceptions.md R216). -/
def State.hiddenWiped (s : State) : State :=
  { s with
    nonce := NonceState.zero s.bufcap
    draws := 0
    handle := none
    d2o := List.replicate s.bufcap 0 }

/-- `s` after an HMAC call that the unit answered: the call is counted and traced (00_scope.md R13). -/
def State.hmacSpent (s : State) (key msg : Bytes) : State :=
  { s with
    oracles := { s.oracles with hmacAnswers := s.oracles.hmacAnswers.map (· - 1) }
    trace := .hmac s.hashAlg key msg :: s.trace }

/-- Every byte outside the buffers `xs` reads in `t` as in `s`. -/
def SameOutside (xs : List Buf) (s t : State) : Prop :=
  ∀ a, (∀ x ∈ xs, a < bufBase x ∨ bufBase x + s.bufcap ≤ a) → memRead t.mem a = memRead s.mem a

/-- Every byte of buffer `x` is zero. -/
def BufZero (s : State) (x : Buf) : Prop := ∀ j, j < s.bufcap → memRead s.mem (bufBase x + j) = 0

/-- Buffer `x` holds the bytes `v` and is zero above them. -/
def BufHolds (s : State) (x : Buf) (v : Bytes) : Prop :=
  s.bytes x v.length = v ∧ ∀ j, v.length ≤ j → j < s.bufcap → memRead s.mem (bufBase x + j) = 0

/-- A nonce or signing command ended with code `e`: the session is zeroized, `xs` are the other buffers it wrote, and
nothing else of `s` changed (60_exceptions.md R215, R216). -/
def SessionEnded (xs : List Buf) (e : ErrCode) (s t : State) : Prop :=
  BufZero t .key ∧ BufZero t .digest ∧ SameOutside (.key :: .digest :: xs) s t ∧
    { t with mem := s.mem } = (s.ended e).hiddenWiped

/-- The output buffers of a nonce or signing command (60_exceptions.md R215). -/
def outputsOf (i : Instr) : List Buf := if i.isSign then [.sigR, .sigS] else [.nonce]

/-- A nonce or signing command failed with code `e`: its session and its outputs are zeroized, and nothing else of `s`
changed (60_exceptions.md R215, R216). -/
def SessionFailed (i : Instr) (e : ErrCode) (s t : State) : Prop :=
  SessionEnded (outputsOf i) e s t ∧ ∀ x ∈ outputsOf i, BufZero t x

/-- The command word with the given OPC, SZ and CIN fields and RSV = 0 (30_encoding.md R80, R92). -/
def cmdWord (opc sz cin : Nat) : Word := BitVec.ofNat 32 (opc + 256 * sz + 65536 * cin)

/-- The next input is a host access at window offset `o`. -/
def State.hostNext (s : State) (a : Nat → Access) (o : Nat) (rest : List Input) : Prop :=
  s.inputs = .host (a (s.params.base + o)) :: rest

/-! ## The invariant -/

/-- The hidden state holds its zero values. -/
def HiddenZero (s : State) : Prop :=
  s.nonce = NonceState.zero s.bufcap ∧ s.draws = 0 ∧ s.handle = none ∧ s.d2o = List.replicate s.bufcap 0

/-- The engine is inside a nonce or signing command, past its checks. -/
def State.inside (s : State) : Bool :=
  match s.ctl with
  | .running i p => (i.isNonce || i.isSign) && decide (p ≠ .start)
  | .idle | .illegal => false

/-- The points of a nonce or signing command's rule at which a tested candidate is in T. -/
def afterNonce : Point → Bool
  | .acquire | .writePriv | .writeNonce | .writeDigest | .run | .wait | .finish => true
  | .start | .draw | .test | .derive | .reject => false

/-- The points of a command's rule (40_bigint.md R99, 41_nonce_random.md R130, 42_nonce_rfc6979.md R142,
43_retry_controller.md R174, R176). -/
def hasPoint (i : Instr) (p : Point) : Bool :=
  match p with
  | .start => true
  | .draw | .test => (i.isNonce || i.isSign) && !i.isDet
  | .derive => i.isDet
  | .reject => i.isDet && i.isSign
  | .finish => i.isNonce && !i.isDet
  | .acquire | .writePriv | .writeNonce | .writeDigest | .run | .wait => i.isSign

/-- The argument checks of a nonce or signing command (60_exceptions.md R213). -/
def State.checksOf (s : State) (i : Instr) : Bool := s.curveOk && (i == .nonceRnd || s.hashOk)

/-- 1 ≤ k ≤ n − 1 for the candidate in T (41_nonce_random.md R133, 42_nonce_rfc6979.md R150). -/
def State.candInRange (s : State) : Prop := 1 ≤ beInt s.cand ∧ beInt s.cand < s.q

/-- What holds in every state a run from reset can reach. -/
structure State.Inv (s : State) : Prop where
  /-- the parameters are as 00_scope.md R7 asks -/
  params : s.params.ok
  /-- the memory is in its canonical form -/
  memForm : memWf s.mem = true
  /-- only bytes of the nine buffers below BUFCAP are stored (20_memory.md R52) -/
  memRange : ∀ a, memRead s.mem a ≠ unlisted → ∃ x j, j < s.bufcap ∧ a = bufBase x + j
  /-- the hidden buffers keep their size (10_state.md R35) -/
  lengths : s.nonce.k.length = s.bufcap ∧ s.nonce.v.length = s.bufcap ∧ s.nonce.t.length = s.bufcap ∧
    s.d2o.length = s.bufcap
  /-- TLEN is in 0..BUFCAP (10_state.md R35) -/
  tlen : s.nonce.tlen ≤ s.bufcap
  /-- BUSY = 0 exactly while the engine is idle (10_state.md R37) -/
  busyIff : s.busy = true ↔ s.ctl ≠ .idle
  /-- BUSY and DONE are never both 1, and ERR is NONE while BUSY = 1 (10_state.md R25) -/
  status : s.busy = true → s.done = false ∧ s.err = .none
  /-- code 6 is never produced (60_exceptions.md R211) -/
  errCode : s.err ≠ .invalidSignature
  /-- outside nonce and signing commands the hidden state is zero (60_exceptions.md R216) -/
  wiped : s.inside = false → HiddenZero s
  /-- past its checks a command stands at a point of its rule and its checks still hold (20_memory.md R61) -/
  checked : ∀ i p, s.ctl = .running i p → p ≠ .start → hasPoint i p = true ∧ s.checksOf i = true
  /-- DRAWS is in 0..RND_MAX_DRAWS (10_state.md R36) -/
  draws : s.draws ≤ s.params.rndMaxDraws
  /-- RETRY never exceeds MAX_ATTEMPTS (42_nonce_rfc6979.md R149) -/
  retry : s.nonce.retry.toNat ≤ s.maxAttempts
  /-- DET is 1 exactly inside a command of the RFC 6979 machine (10_state.md R25) -/
  det : ∀ i p, s.ctl = .running i p → p ≠ .start → s.nonce.det = i.isDet
  /-- ATTEMPTS is at most 256, and 1..MAX_ATTEMPTS + 1 inside a signing command (10_state.md R29, R40) -/
  attempts : s.attempts.toNat ≤ 256
  attemptsIn : ∀ i p, s.ctl = .running i p → p ≠ .start → i.isSign = true →
    1 ≤ s.attempts.toNat ∧ s.attempts.toNat ≤ s.maxAttempts + 1
  /-- an accepted candidate is a nonce in 1..n−1, and the RFC 6979 machine stands at STEP 6 with it
  (42_nonce_rfc6979.md R150, R151) -/
  candidate : ∀ i p, s.ctl = .running i p → afterNonce p = true → s.candInRange
  accepted : ∀ i p, s.ctl = .running i p → afterNonce p = true ∨ p = .reject → i.isDet = true → s.nonce.step = .step6

/-! ## Runs -/

/-- `k` steps of the machine, up to the first fault or refusal. -/
def runSteps : Nat → State → Outcome
  | 0, s => .next s
  | k + 1, s =>
    match step s with
    | .next t => runSteps k t
    | .fault r => .fault r
    | .refused r => .refused r

/-- Command `i` has just been accepted and only the engine moves from now on. -/
def State.justAccepted (s : State) (i : Instr) : Prop := s.ctl = .running i .start ∧ s.busy = true ∧ s.inputs = []

end Sys2Proof.Machine
end

