-- ==== Sys2Proof/Certificates/Slice0/Obligations.lean ====
section
/-! DEFINITION. The statements for the provers. -/

open Sys2Proof Sys2Proof.Machine

/-! ## Encoding -/

/-- Decoding the encoding of a well-formed command gives the command back, every operand at every value the word format
admits (30_encoding.md R80, R81, R87). -/
def Obligations.EncodeThenDecodeGivesTheCommand : Prop :=
  ∀ i : Instr, i.wellFormed = true → decode (encode i) = .ok i

/-- A word that decodes is the encoding of the command it decodes to, so no two words mean one command (30_encoding.md R81). -/
def Obligations.DecodedWordIsTheCommandsEncoding : Prop :=
  ∀ (w : Word) (i : Instr), decode w = .ok i → i.wellFormed = true ∧ encode i = w

/-- 30_encoding.md R88: the illegal words are exactly those listed, and issuing one ends in ILLEGAL_COMMAND and changes
nothing but the acceptance and termination fields (and the port's answer and the input list, which are the model's). -/
def Obligations.IllegalWordsRaiseIllegalCommand : Prop :=
  (∀ w : Word, (∃ e, decode w = .error e) ↔
    (w.toNat / 262144 ≠ 0 ∨
      (0x02 ≤ w.toNat % 256 ∧ w.toNat % 256 ≤ 0x0F ∨ 0x18 ≤ w.toNat % 256 ∧ w.toNat % 256 ≤ 0x1F ∨
        0x22 ≤ w.toNat % 256 ∧ w.toNat % 256 ≤ 0x2F ∨ 0x32 ≤ w.toNat % 256) ∨
      (w.toNat / 256 % 256 ≠ 0 ∧ ¬ (0x10 ≤ w.toNat % 256 ∧ w.toNat % 256 ≤ 0x17)) ∨
      (w.toNat / 65536 % 4 ≠ 0 ∧ w.toNat % 256 ≠ 0x10) ∨
      (w.toNat / 65536 % 4 = 2 ∧ w.toNat % 256 = 0x10))) ∧
  ∀ (s : State) (w : Word) (e : IllegalWord) (rest : List Input), s.busy = false → decode w = .error e →
    s.hostNext (.write · .w32 w) 0x00C (.engine :: rest) →
    runSteps 2 s = .next { s.ended .illegalCommand with faultInfo := .none, inputs := rest, resp := ⟨false, 0⟩ }

/-- Words written out from 30_encoding.md R94 and 95_test_vectors.md V-ENC decode to the commands they stand for. -/
def Obligations.SampleWordsDecode : Prop :=
  decode 0x00032010 = .ok (.cmp 32 (-1)) ∧ decode 0x00010410 = .ok (.cmp 4 1) ∧ decode 0x00000211 = .ok (.add 2) ∧
    decode 0x00000412 = .ok (.sub 4) ∧ decode 0x00002016 = .ok (.bits2oct 32) ∧ decode 0x00000021 = .ok .nonceDet ∧
    decode 0x00000031 = .ok .signDet ∧ decode 0x00000000 = .ok .nop ∧ decode 0x0000FF17 = .ok (.d2op 255) ∧
    (decode 0x00020010).toOption = none ∧ (decode 0x00000120).toOption = none ∧ (decode 0x00040011).toOption = none ∧
    (decode 0x00000002).toOption = none

/-! ## The step, acceptance and reset -/

/-- A step runs the command the engine stands in: after the acceptance of a word that decodes to `i`, at a later point of
`i` with an engine turn next, and at any point of `i` when no input is left. -/
def Obligations.StepRunsTheDecodedCommand : Prop :=
  (∀ (s : State) (w : Nat) (i : Instr), decode (BitVec.ofNat 32 (w % 2 ^ 32)) = .ok i →
    step (s.withFetchWord 32 w) = exec i { s with
      busy := true, done := false, err := .none, faultInfo := .none
      attempts := if i.isSign then 0 else s.attempts
      ctl := .running i .start }) ∧
  (∀ (s : State) (i : Instr) (p : Point) (rest : List Input), s.ctl = .running i p → s.inputs = .engine :: rest →
    step s = exec i { s with inputs := rest }) ∧
  ∀ (s : State) (i : Instr) (p : Point), s.ctl = .running i p → s.inputs = [] → step s = exec i s

/-- 60_exceptions.md R214: a 32-bit write to CMD is accepted while BUSY = 0, and dropped with WERR while BUSY = 1. -/
def Obligations.CommandAcceptance : Prop :=
  ∀ (s : State) (w : Word) (rest : List Input), s.hostNext (.write · .w32 w) 0x00C rest →
    (s.busy = false → step s = .next { s with
      inputs := rest, resp := ⟨false, 0⟩
      busy := true, done := false, err := .none, faultInfo := .none
      attempts := if (decode w).toOption = some .signRnd ∨ (decode w).toOption = some .signDet then 0 else s.attempts
      ctl := match decode w with
        | .ok i => .running i .start
        | .error _ => .illegal }) ∧
    (s.busy = true → step s = .next { s with inputs := rest, resp := ⟨false, 0⟩, werrPend := true })

/-- 70_reset_and_hazards.md R240: the reset value of every item. -/
def Obligations.ResetStateHoldsTheResetValues : Prop :=
  (∀ r : Reg, State.reset.regView r = match r with
    | .id => 0x69790001
    | .maxatt => 0x000000FF
    | .ctrl | .cfg | .cmd | .status | .inten | .intstat | .attempts | .faultinfo | .aluImm | .qlen => 0) ∧
  (∀ (x : Buf) (j : Nat), memRead State.reset.mem (bufBase x + j) = 0) ∧
  HiddenZero State.reset ∧ State.reset.ctl = .idle ∧ State.reset.irq = false

/-- 70_reset_and_hazards.md R241: a reset in any state, BUSY or not, gives every item its reset value at once: no
termination step runs. -/
def Obligations.ResetInputAbandonsTheCommand : Prop :=
  ∀ (s : State) (rest : List Input), s.inputs = .reset :: rest → ∃ t, step s = .next t ∧
    (∀ r : Reg, t.regView r = match r with
      | .id => 0x69790001
      | .maxatt => 0x000000FF
      | .ctrl | .cfg | .cmd | .status | .inten | .intstat | .attempts | .faultinfo | .aluImm | .qlen => 0) ∧
    (∀ (x : Buf) (j : Nat), memRead t.mem (bufBase x + j) = 0) ∧ HiddenZero t ∧ t.ctl = .idle ∧ t.irq = false

/-! ## The bigint family -/

/-- 40_bigint.md R100: CMP. -/
def Obligations.CmpWritesTheCompareFlag : Prop :=
  ∀ (s : State) (sz : Nat) (cin : Int),
    (1 ≤ sz → sz ≤ s.bufcap → exec (.cmp sz cin) s = .next { s.ended .none with
      cmp :=
        if (beInt (s.bytes .a sz) : Int) + cin = beInt (s.bytes .b sz) then .equal
        else if (beInt (s.bytes .b sz) : Int) < (beInt (s.bytes .a sz) : Int) + cin then .greater
        else .less }) ∧
    (¬ (1 ≤ sz ∧ sz ≤ s.bufcap) → exec (.cmp sz cin) s = .next (s.ended .invalidArgument)) ∧
    (sz ≤ 255 → decode (cmdWord 0x10 sz 0) = .ok (.cmp sz 0) ∧ decode (cmdWord 0x10 sz 1) = .ok (.cmp sz 1) ∧
      decode (cmdWord 0x10 sz 3) = .ok (.cmp sz (-1)))

/-- 40_bigint.md R101: ADD. -/
def Obligations.AddAddsTheImmediateInPlace : Prop :=
  ∀ (s : State) (sz : Nat), memWf s.mem = true →
    (1 ≤ sz → sz ≤ s.bufcap → ∃ t, exec (.add sz) s = .next t ∧
      beInt (t.bytes .a sz) = (beInt (s.bytes .a sz) + s.aluImm.toNat) % 2 ^ (8 * sz) ∧
      (∀ a, a < bufBase .a ∨ bufBase .a + sz ≤ a → memRead t.mem a = memRead s.mem a) ∧
      { t with mem := s.mem } = s.ended .none) ∧
    (¬ (1 ≤ sz ∧ sz ≤ s.bufcap) → exec (.add sz) s = .next (s.ended .invalidArgument)) ∧
    (sz ≤ 255 → decode (cmdWord 0x11 sz 0) = .ok (.add sz))

/-- 40_bigint.md R102: SUB. -/
def Obligations.SubWritesTheDifferenceAndTheBorrow : Prop :=
  ∀ (s : State) (sz : Nat), memWf s.mem = true →
    (1 ≤ sz → sz ≤ s.bufcap → ∃ t, exec (.sub sz) s = .next t ∧
      (beInt (t.bytes .r sz) : Int) = ((beInt (s.bytes .a sz) : Int) - beInt (s.bytes .b sz)) % 2 ^ (8 * sz) ∧
      (∀ j, sz ≤ j → j < s.bufcap → memRead t.mem (bufBase .r + j) = 0) ∧
      SameOutside [.r] s t ∧
      { t with mem := s.mem } =
        { s.ended .none with borrow := decide (beInt (s.bytes .a sz) < beInt (s.bytes .b sz)) }) ∧
    (¬ (1 ≤ sz ∧ sz ≤ s.bufcap) → exec (.sub sz) s = .next (s.ended .invalidArgument)) ∧
    (sz ≤ 255 → decode (cmdWord 0x12 sz 0) = .ok (.sub sz))

/-- 40_bigint.md R103: RSHIFT. -/
def Obligations.RshiftShiftsTowardsTheLeastSignificantEnd : Prop :=
  ∀ (s : State) (sz : Nat), memWf s.mem = true →
    (1 ≤ sz → sz ≤ s.bufcap → ∃ t, exec (.rshift sz) s = .next t ∧
      beInt (t.bytes .r sz) =
        (if 8 * sz ≤ s.aluImm.toNat then 0 else beInt (s.bytes .a sz) / 2 ^ s.aluImm.toNat) ∧
      (∀ j, sz ≤ j → j < s.bufcap → memRead t.mem (bufBase .r + j) = 0) ∧
      SameOutside [.r] s t ∧ { t with mem := s.mem } = s.ended .none) ∧
    (¬ (1 ≤ sz ∧ sz ≤ s.bufcap) → exec (.rshift sz) s = .next (s.ended .invalidArgument)) ∧
    (sz ≤ 255 → decode (cmdWord 0x13 sz 0) = .ok (.rshift sz))

/-- 40_bigint.md R104: TRUNC. -/
def Obligations.TruncKeepsTheLowBits : Prop :=
  ∀ (s : State) (sz : Nat), memWf s.mem = true →
    (1 ≤ sz → sz ≤ s.bufcap → ∃ t, exec (.trunc sz) s = .next t ∧
      beInt (t.bytes .r sz) =
        (if 8 * sz ≤ s.aluImm.toNat then beInt (s.bytes .a sz)
         else beInt (s.bytes .a sz) % 2 ^ s.aluImm.toNat) ∧
      (∀ j, sz ≤ j → j < s.bufcap → memRead t.mem (bufBase .r + j) = 0) ∧
      SameOutside [.r] s t ∧ { t with mem := s.mem } = s.ended .none) ∧
    (¬ (1 ≤ sz ∧ sz ≤ s.bufcap) → exec (.trunc sz) s = .next (s.ended .invalidArgument)) ∧
    (sz ≤ 255 → decode (cmdWord 0x14 sz 0) = .ok (.trunc sz))

/-- 40_bigint.md R105: BITS2INT, `olen` = ceil(ALU_IMM / 8). -/
def Obligations.Bits2intKeepsTheLeftmostBits : Prop :=
  ∀ (s : State) (sz olen : Nat), memWf s.mem = true →
    (1 ≤ sz → sz ≤ s.bufcap → 1 ≤ s.aluImm.toNat → s.aluImm.toNat ≤ 8 * s.bufcap →
      s.aluImm.toNat ≤ 8 * olen → 8 * olen < s.aluImm.toNat + 8 → ∃ t, exec (.bits2int sz) s = .next t ∧
      beInt (t.bytes .r olen) =
        (if s.aluImm.toNat < 8 * sz then beInt (s.bytes .a sz) / 2 ^ (8 * sz - s.aluImm.toNat)
         else beInt (s.bytes .a sz)) ∧
      (∀ j, olen ≤ j → j < s.bufcap → memRead t.mem (bufBase .r + j) = 0) ∧
      SameOutside [.r] s t ∧ { t with mem := s.mem } = s.ended .none) ∧
    (¬ (1 ≤ sz ∧ sz ≤ s.bufcap) ∨ ¬ (1 ≤ s.aluImm.toNat ∧ s.aluImm.toNat ≤ 8 * s.bufcap) →
      exec (.bits2int sz) s = .next (s.ended .invalidArgument)) ∧
    (sz ≤ 255 → decode (cmdWord 0x15 sz 0) = .ok (.bits2int sz))

/-- 40_bigint.md R106 with R111 and R112: BITS2OCT; `opsz` is CFG.OPSZ, `q` the order and `qlen` its bit length. -/
def Obligations.Bits2octReducesOnce : Prop :=
  ∀ (s : State) (sz opsz q qlen v : Nat), memWf s.mem = true → opsz = s.opsz8.toNat → q = beInt (s.bytes .n opsz) →
    (1 ≤ sz → sz ≤ s.bufcap → 1 ≤ opsz → opsz ≤ s.params.maxOpsz → 2 ≤ q → q < 2 ^ qlen → 2 ^ qlen ≤ 2 * q →
      v = (if qlen < 8 * sz then beInt (s.bytes .a sz) / 2 ^ (8 * sz - qlen) else beInt (s.bytes .a sz)) →
      ∃ t, exec (.bits2oct sz) s = .next t ∧
      beInt (t.bytes .r opsz) = (if q ≤ v then v - q else v) ∧
      (∀ j, opsz ≤ j → j < s.bufcap → memRead t.mem (bufBase .r + j) = 0) ∧
      SameOutside [.r] s t ∧ { t with mem := s.mem } = s.ended .none) ∧
    (¬ (1 ≤ sz ∧ sz ≤ s.bufcap) ∨ ¬ (1 ≤ opsz ∧ opsz ≤ s.params.maxOpsz) ∨ q < 2 →
      exec (.bits2oct sz) s = .next (s.ended .invalidArgument)) ∧
    (sz ≤ 255 → decode (cmdWord 0x16 sz 0) = .ok (.bits2oct sz))

/-- 40_bigint.md R107 with R113: D2OP; `opsz` is CFG.OPSZ. -/
def Obligations.D2opPadsOrSelects : Prop :=
  ∀ (s : State) (sz opsz : Nat), memWf s.mem = true → opsz = s.opsz8.toNat →
    (1 ≤ sz → sz ≤ s.bufcap → 1 ≤ opsz → opsz ≤ s.params.maxOpsz → ∃ t, exec (.d2op sz) s = .next t ∧
      t.bytes .r opsz =
        (if sz < opsz then List.replicate (opsz - sz) 0 ++ s.bytes .a sz
         else match s.params.d2opSelect with
          | .trailing => (s.bytes .a sz).drop (sz - opsz)
          | .leading => (s.bytes .a sz).take opsz) ∧
      (∀ j, opsz ≤ j → j < s.bufcap → memRead t.mem (bufBase .r + j) = 0) ∧
      SameOutside [.r] s t ∧ { t with mem := s.mem } = s.ended .none) ∧
    (¬ (1 ≤ sz ∧ sz ≤ s.bufcap) ∨ ¬ (1 ≤ opsz ∧ opsz ≤ s.params.maxOpsz) →
      exec (.d2op sz) s = .next (s.ended .invalidArgument)) ∧
    (sz ≤ 255 → decode (cmdWord 0x17 sz 0) = .ok (.d2op sz))

/-- The result of bits2octets is always below the order, has the order's length, and is bits2int of the data modulo the
order (40_bigint.md R112, the spec's own inference that one subtraction suffices). -/
def Obligations.Bits2octetsIsBelowTheOrder : Prop :=
  ∀ data n : Bytes, 1 ≤ beInt n →
    (bits2octets data n).length = n.length ∧ beInt (bits2octets data n) < beInt n ∧
      beInt (bits2octets data n) = bits2int data (bitlen (beInt n)) % beInt n

/-- The laws of the comparator (40_bigint.md R116, the spec's own inference): reflexive, antisymmetric, transitive and
deciding equality on strings of one length, and the pending-borrow law. -/
def Obligations.CompareIsATotalOrder : Prop :=
  ∀ a b c : Bytes, a.length = b.length → b.length = c.length →
    cmp3 a a 0 = .equal ∧
    (cmp3 a b 0 = .equal ↔ a = b) ∧
    (cmp3 a b 0 = .greater ↔ cmp3 b a 0 = .less) ∧
    (cmp3 a b 0 = .less → cmp3 b c 0 = .less → cmp3 a c 0 = .less) ∧
    (cmp3 a b (-1) ≠ .less ↔ cmp3 a b 0 = .greater)

/-- After SUB, int(A) − int(B) = int(R) − BORROW·2^(8·SZ) (40_bigint.md R116, the spec's own inference). -/
def Obligations.SubResultAndBorrowGiveTheDifference : Prop :=
  ∀ (s : State) (sz : Nat), memWf s.mem = true → 1 ≤ sz → sz ≤ s.bufcap → ∃ t, exec (.sub sz) s = .next t ∧
    (beInt (s.bytes .a sz) : Int) - beInt (s.bytes .b sz) =
      (beInt (t.bytes .r sz) : Int) - (if t.borrow then 2 ^ (8 * sz) else 0)

/-! ## The control family -/

/-- 44_control.md R200: NOP. -/
def Obligations.NopOnlyTerminates : Prop :=
  decode 0x00000000 = .ok .nop ∧ ∀ s : State, exec .nop s = .next (s.ended .none)

/-- 44_control.md R201: ZEROIZE. -/
def Obligations.ZeroizeWipesEveryBuffer : Prop :=
  decode 0x00000001 = .ok .zeroize ∧
  ∀ s : State, s.params.ok → memWf s.mem = true → ∃ t, exec .zeroize s = .next t ∧
    (∀ x : Buf, BufZero t x) ∧ SameOutside allBufs s t ∧ { t with mem := s.mem } = (s.ended .none).hiddenWiped

/-! ## The randomized nonce -/

/-- 41_nonce_random.md R131: rnd_k in NONCE_RND and in SIGN_RND, engine step by engine step: the bound, the entropy call
with no answer, with FAIL and with a draw, and the test of the masked draw. That the masking belongs to the test step, that
DRAWS advances only in the step in which the call is answered, and that an unanswered call leaves the state as it is are the
model's grouping of the steps (log entry 10, DEDUCED). -/
def Obligations.RndKDrawsMasksAndTests : Prop :=
  ∀ (s : State) (i : Instr) (accepted : Point),
    (i = .nonceRnd ∧ accepted = .finish ∨ i = .signRnd ∧ accepted = .acquire) → s.params.ok → memWf s.mem = true →
    (s.ctl = .running i .draw → s.draws = s.params.rndMaxDraws →
      ∃ t, exec i s = .next t ∧ SessionFailed i .insufficientEntropy s t) ∧
    (s.ctl = .running i .draw → s.draws ≠ s.params.rndMaxDraws → s.oracles.entropy = [] → exec i s = .next s) ∧
    (∀ rest, s.ctl = .running i .draw → s.draws ≠ s.params.rndMaxDraws → s.oracles.entropy = .fail :: rest →
      ∃ t, exec i s = .next t ∧
        SessionFailed i .hardwareFault { s with
          oracles := { s.oracles with entropy := rest }
          trace := .entropy s.opsz :: s.trace
          faultInfo := .entropy } t) ∧
    (∀ e rest, s.ctl = .running i .draw → s.draws ≠ s.params.rndMaxDraws → s.oracles.entropy = .bytes e :: rest →
      e.length = s.opsz →
      exec i s = .next { s with
        draws := s.draws + 1
        oracles := { s.oracles with entropy := rest }
        trace := .entropy s.opsz :: s.trace
        nonce := { s.nonce with t := e ++ s.nonce.t.drop s.opsz, tlen := s.opsz }
        ctl := .running i .test }) ∧
    (∀ qlen c, s.ctl = .running i .test → s.q < 2 ^ qlen → 2 ^ qlen ≤ 2 * s.q →
      c = beInt (s.nonce.t.take s.opsz) % 2 ^ qlen →
      exec i s = .next { s with
        nonce := { s.nonce with t := be s.opsz c ++ s.nonce.t.drop s.opsz }
        ctl := .running i (if c = 0 ∨ s.q ≤ c then .draw else accepted) })

/-- NONCE_RND checks the curve, draws, and ends with k in NONCE (41_nonce_random.md R130): its first engine step, and its
last, which completes it. -/
def Obligations.NonceRndStartsAndCompletes : Prop :=
  ∀ s : State, s.params.ok → memWf s.mem = true →
    (s.ctl = .running .nonceRnd .start →
      (1 ≤ s.opsz ∧ s.opsz ≤ s.params.maxOpsz ∧ 2 ≤ s.q →
        exec .nonceRnd s = .next { s with draws := 0, ctl := .running .nonceRnd .draw }) ∧
      (¬ (1 ≤ s.opsz ∧ s.opsz ≤ s.params.maxOpsz ∧ 2 ≤ s.q) →
        ∃ t, exec .nonceRnd s = .next t ∧ SessionFailed .nonceRnd .invalidArgument s t)) ∧
    (s.ctl = .running .nonceRnd .finish → s.opsz ≤ s.params.maxOpsz → s.opsz ≤ s.nonce.t.length →
      ∃ t, exec .nonceRnd s = .next t ∧ BufHolds t .nonce (s.nonce.t.take s.opsz) ∧ SessionEnded [.nonce] .none s t)

/-- NONCE_RND ends within 2·RND_MAX_DRAWS + 2 engine steps whatever the entropy source answers, if it answers
(41_nonce_random.md R133 and 70_reset_and_hazards.md R251; the spec's own inference). `justAccepted` fixes the input list to
empty, so only the engine moves (log entry 3). -/
def Obligations.NonceRndEndsWithinItsBound : Prop :=
  ∀ s : State, s.justAccepted .nonceRnd → s.params.rndMaxDraws ≤ s.oracles.entropy.length →
    ∃ t, runSteps (2 * s.params.rndMaxDraws + 2) s = .next t ∧ t.busy = false ∧ t.done = true ∧ t.ctl = .idle

/-! ## The RFC 6979 machine -/

/-- 42_nonce_rfc6979.md R143, R144, R145: steps 0, 1 and 2. -/
def Obligations.RfcSetupSteps : Prop :=
  ∀ (s : State) (i : Instr), i = .nonceDet ∨ i = .signDet → s.ctl = .running i .derive →
    s.oracles.hmacAnswers ≠ some 0 →
    (s.nonce.step = .step0 → ∀ t0 msg, t0 = bits2octets (s.bytes .digest s.hlen) (s.bytes .n s.opsz) →
      msg = List.replicate s.hlen 0x01 ++ [0x00] ++ s.bytes .key s.opsz ++ t0 →
      exec i s = .next { s.hmacSpent (List.replicate s.hlen 0x00) msg with
        nonce := { s.nonce with
          k := s.hmac (List.replicate s.hlen 0x00) msg ++ s.nonce.k.drop s.hlen
          v := List.replicate s.hlen 0x01 ++ s.nonce.v.drop s.hlen
          t := t0 ++ s.nonce.t.drop s.opsz
          tlen := s.opsz
          step := .step1 } }) ∧
    (s.nonce.step = .step1 → ∀ k v, k = s.nonce.k.take s.hlen → v = s.nonce.v.take s.hlen →
      exec i s = .next { s.hmacSpent k v with
        nonce := { s.nonce with v := s.hmac k v ++ s.nonce.v.drop s.hlen, step := .step2 } }) ∧
    (s.nonce.step = .step2 → ∀ k msg, k = s.nonce.k.take s.hlen →
      msg = s.nonce.v.take s.hlen ++ [0x01] ++ s.bytes .key s.opsz ++ s.nonce.t.take s.opsz →
      exec i s = .next { s.hmacSpent k msg with
        nonce := { s.nonce with k := s.hmac k msg ++ s.nonce.k.drop s.hlen, step := .step3 } })

/-- 42_nonce_rfc6979.md R146, R147, R148: steps 3, 4 and 5. -/
def Obligations.RfcCandidateSteps : Prop :=
  ∀ (s : State) (i : Instr), i = .nonceDet ∨ i = .signDet → s.ctl = .running i .derive →
    (s.nonce.step = .step3 → s.oracles.hmacAnswers ≠ some 0 → ∀ k v, k = s.nonce.k.take s.hlen →
      v = s.nonce.v.take s.hlen →
      exec i s = .next { s.hmacSpent k v with
        nonce := { s.nonce with
          v := s.hmac k v ++ s.nonce.v.drop s.hlen
          t := List.replicate s.bufcap 0
          tlen := 0
          step := .step4 } }) ∧
    (s.nonce.step = .step4 → s.oracles.hmacAnswers ≠ some 0 → ∀ k v, k = s.nonce.k.take s.hlen →
      v = s.nonce.v.take s.hlen →
      exec i s = .next { s.hmacSpent k v with
        nonce := { s.nonce with v := s.hmac k v ++ s.nonce.v.drop s.hlen, step := .step5 } }) ∧
    (s.nonce.step = .step5 → ∀ m, m = min s.hlen (s.opsz - s.nonce.tlen) → m ≤ s.nonce.v.length →
      exec i s = .next { s with
        nonce := { s.nonce with
          t := s.nonce.t.take s.nonce.tlen ++ s.nonce.v.take m ++ s.nonce.t.drop (s.nonce.tlen + m)
          tlen := s.nonce.tlen + m
          step := if s.nonce.tlen + m < s.opsz then .step4 else .step6 } })

/-- 42_nonce_rfc6979.md R149: step 6; `c` is bits2int of T, `qlen` the order's bit length. The candidate is accepted (R150:
SIGN_DET keeps NonceState and STEP, NONCE_DET ends), rejected with the key update, or the machine is exhausted. That the
accepting step 6 of NONCE_DET and its end are one engine step is log entry 10. -/
def Obligations.RfcReduceAndTestStep : Prop :=
  ∀ (s : State) (i : Instr) (qlen c : Nat), i = .nonceDet ∨ i = .signDet → s.params.ok → memWf s.mem = true →
    s.ctl = .running i .derive → s.nonce.step = .step6 → s.opsz ≤ s.params.maxOpsz → s.opsz ≤ s.nonce.t.length →
    s.q < 2 ^ qlen → 2 ^ qlen ≤ 2 * s.q →
    c = (if qlen < 8 * s.opsz then beInt (s.nonce.t.take s.opsz) / 2 ^ (8 * s.opsz - qlen)
      else beInt (s.nonce.t.take s.opsz)) →
    (1 ≤ c ∧ c < s.q → i = .signDet → exec i s = .next { s with
      nonce := { s.nonce with t := be s.opsz c ++ s.nonce.t.drop s.opsz }
      ctl := .running i .acquire }) ∧
    (1 ≤ c ∧ c < s.q → i = .nonceDet →
      ∃ t, exec i s = .next t ∧ BufHolds t .nonce (be s.opsz c) ∧ SessionEnded [.nonce] .none s t) ∧
    (¬ (1 ≤ c ∧ c < s.q) → s.nonce.retry = s.maxAtt →
      ∃ t, exec i s = .next t ∧ SessionFailed i .tooManyAttempts s t) ∧
    (¬ (1 ≤ c ∧ c < s.q) → s.nonce.retry ≠ s.maxAtt → s.oracles.hmacAnswers ≠ some 0 → ∀ k msg,
      k = s.nonce.k.take s.hlen → msg = s.nonce.v.take s.hlen ++ [0x00] →
      exec i s = .next { s.hmacSpent k msg with
        nonce := { s.nonce with
          k := s.hmac k msg ++ s.nonce.k.drop s.hlen
          t := be s.opsz c ++ s.nonce.t.drop s.opsz
          retry := s.nonce.retry + 1
          step := .step3 } })

/-- NONCE_DET at its first engine step, which checks hash and curve and runs step 0 on a fresh NonceState, and at the
accepting step 6, which ends it with k in NONCE (42_nonce_rfc6979.md R140, R142, R143; that these are one engine step each
is log entry 10, from 70_reset_and_hazards.md R251). -/
def Obligations.NonceDetStartsAndCompletes : Prop :=
  ∀ s : State, s.params.ok → memWf s.mem = true →
    (s.ctl = .running .nonceDet .start →
      (s.params.digestSize s.hashAlg = some s.diglen ∧ 1 ≤ s.opsz ∧ s.opsz ≤ s.params.maxOpsz ∧ 2 ≤ s.q →
        (s.oracles.hmacAnswers ≠ some 0 → ∀ t0 msg, t0 = bits2octets (s.bytes .digest s.hlen) (s.bytes .n s.opsz) →
          msg = List.replicate s.hlen 0x01 ++ [0x00] ++ s.bytes .key s.opsz ++ t0 →
          exec .nonceDet s = .next { s.hmacSpent (List.replicate s.hlen 0x00) msg with
            nonce := {
              k := s.hmac (List.replicate s.hlen 0x00) msg ++ s.nonce.k.drop s.hlen
              v := List.replicate s.hlen 0x01 ++ s.nonce.v.drop s.hlen
              t := t0 ++ s.nonce.t.drop s.opsz
              tlen := s.opsz
              step := .step1
              retry := 0
              det := true }
            ctl := .running .nonceDet .derive }) ∧
        (s.oracles.hmacAnswers = some 0 → exec .nonceDet s = .next { s with
          nonce := { s.nonce with det := true, retry := 0, step := .step0 }
          ctl := .running .nonceDet .derive })) ∧
      (¬ (s.params.digestSize s.hashAlg = some s.diglen ∧ 1 ≤ s.opsz ∧ s.opsz ≤ s.params.maxOpsz ∧ 2 ≤ s.q) →
        ∃ t, exec .nonceDet s = .next t ∧ SessionFailed .nonceDet .invalidArgument s t)) ∧
    (∀ qlen c, s.ctl = .running .nonceDet .derive → s.nonce.step = .step6 → s.opsz ≤ s.params.maxOpsz →
      s.opsz ≤ s.nonce.t.length → s.q < 2 ^ qlen → 2 ^ qlen ≤ 2 * s.q →
      c = (if qlen < 8 * s.opsz then beInt (s.nonce.t.take s.opsz) / 2 ^ (8 * s.opsz - qlen)
        else beInt (s.nonce.t.take s.opsz)) → 1 ≤ c → c < s.q →
      ∃ t, exec .nonceDet s = .next t ∧ BufHolds t .nonce (be s.opsz c) ∧ SessionEnded [.nonce] .none s t)

/-- Equal inputs give equal nonces: two NONCE_DET runs whose KEY, DIGEST, N, OPSZ, DIGLEN, HASHALG, MAX_ATTEMPTS and
parameters agree on the bytes the rules read stand at the same point after every number of steps, and end with the same
code and the same NONCE (42_nonce_rfc6979.md R153, the spec's own inference). `justAccepted` fixes the input list to empty,
so only the engine moves (log entry 3). -/
def Obligations.EqualInputsGiveEqualNonces : Prop :=
  ∀ s s' : State, s.Inv → s'.Inv → s.justAccepted .nonceDet → s'.justAccepted .nonceDet →
    s.params = s'.params → s.hashAlg = s'.hashAlg → s.opsz8 = s'.opsz8 → s.diglen8 = s'.diglen8 → s.maxAtt = s'.maxAtt →
    s.bytes .key s.opsz = s'.bytes .key s.opsz → s.bytes .digest s.hlen = s'.bytes .digest s.hlen →
    s.bytes .n s.opsz = s'.bytes .n s.opsz → s.oracles.hmacAnswers = none → s'.oracles.hmacAnswers = none →
    ∀ k, ∃ t t', runSteps k s = .next t ∧ runSteps k s' = .next t' ∧ t.ctl = t'.ctl ∧ t.busy = t'.busy ∧ t.err = t'.err ∧
      (t.busy = false → t.bytes .nonce s.bufcap = t'.bytes .nonce s.bufcap)

/-- With an operand no longer than the digest and a first candidate in range, NONCE_DET gives the nonce of RFC 6979's
K/V chain after seven engine steps and five HMAC calls (42_nonce_rfc6979.md R142 to R150; 70_reset_and_hazards.md R251 counts
the five HMAC calls of R154 and steps 5 and 6). That the checks and the end have no step of their own is the model's
grouping (log entry 10, DEDUCED). An operand longer than the digest and a rejected candidate are NonceDetCountsItsSteps's. -/
def Obligations.NonceDetGivesTheFirstCandidate : Prop :=
  ∀ (s : State) (t0 k1 v1 k2 v2 v3 : Bytes) (c : Nat), s.Inv → s.justAccepted .nonceDet →
    s.oracles.hmacAnswers = none → s.checksOf .nonceDet = true → s.opsz ≤ s.hlen →
    t0 = bits2octets (s.bytes .digest s.hlen) (s.bytes .n s.opsz) →
    k1 = s.hmac (List.replicate s.hlen 0x00) (List.replicate s.hlen 0x01 ++ [0x00] ++ s.bytes .key s.opsz ++ t0) →
    v1 = s.hmac k1 (List.replicate s.hlen 0x01) →
    k2 = s.hmac k1 (v1 ++ [0x01] ++ s.bytes .key s.opsz ++ t0) →
    v2 = s.hmac k2 v1 → v3 = s.hmac k2 v2 →
    c = bits2int (v3.take s.opsz) (bitlen s.q) → 1 ≤ c → c < s.q →
    ∃ t, runSteps 7 s = .next t ∧ t.busy = false ∧ t.err = .none ∧ BufHolds t .nonce (be s.opsz c) ∧
      t.trace.length = s.trace.length + 5

/-- NONCE_DET ends after the steps that 70_reset_and_hazards.md R251 bounds: with r rejections, r ≤ MAX_ATTEMPTS, and B HMAC
blocks to a candidate, it makes 4 + (r + 1)·B + 2·r HMAC calls (42_nonce_rfc6979.md R154), which are engine steps, and
(r + 1)·B more engine steps for step 5 and one for the last step 6; the step 6 of a rejection is its HMAC call's. The
grouping into engine steps is log entry 10 (DEDUCED). -/
def Obligations.NonceDetCountsItsSteps : Prop :=
  ∀ (s : State) (B : Nat), s.Inv → s.justAccepted .nonceDet → s.oracles.hmacAnswers = none →
    s.checksOf .nonceDet = true → s.opsz ≤ B * s.hlen → B * s.hlen < s.opsz + s.hlen →
    ∃ r t, r ≤ s.maxAtt.toNat ∧ runSteps (4 + (r + 1) * B + 2 * r + (r + 1) * B + 1) s = .next t ∧ t.busy = false ∧
      t.done = true ∧ (t.err = .none ∨ t.err = .tooManyAttempts ∧ r = s.maxAtt.toNat) ∧
      t.trace.length = s.trace.length + (4 + (r + 1) * B + 2 * r)

/-! ## The retry controller -/

/-- A SIGN command checks hash and curve and begins attempt 0 with its own nonce procedure: SIGN_RND with its first draw to
come, SIGN_DET with step 0 run on a fresh NonceState (43_retry_controller.md R174, R175, R176; the grouping is log entry
10). -/
def Obligations.SignStartsWithItsChecks : Prop :=
  ∀ (s : State) (i : Instr), i = .signRnd ∨ i = .signDet → s.params.ok → memWf s.mem = true →
    s.ctl = .running i .start →
    (s.params.digestSize s.hashAlg = some s.diglen ∧ 1 ≤ s.opsz ∧ s.opsz ≤ s.params.maxOpsz ∧ 2 ≤ s.q →
      (i = .signRnd → exec i s = .next { s with attempts := 1, draws := 0, ctl := .running .signRnd .draw }) ∧
      (i = .signDet → s.oracles.hmacAnswers ≠ some 0 → ∀ t0 msg,
        t0 = bits2octets (s.bytes .digest s.hlen) (s.bytes .n s.opsz) →
        msg = List.replicate s.hlen 0x01 ++ [0x00] ++ s.bytes .key s.opsz ++ t0 →
        exec i s = .next { s.hmacSpent (List.replicate s.hlen 0x00) msg with
          attempts := 1
          nonce := {
            k := s.hmac (List.replicate s.hlen 0x00) msg ++ s.nonce.k.drop s.hlen
            v := List.replicate s.hlen 0x01 ++ s.nonce.v.drop s.hlen
            t := t0 ++ s.nonce.t.drop s.opsz
            tlen := s.opsz
            step := .step1
            retry := 0
            det := true }
          ctl := .running .signDet .derive }) ∧
      (i = .signDet → s.oracles.hmacAnswers = some 0 → exec i s = .next { s with
        attempts := 1
        nonce := { s.nonce with det := true, retry := 0, step := .step0 }
        ctl := .running .signDet .derive })) ∧
    (¬ (s.params.digestSize s.hashAlg = some s.diglen ∧ 1 ≤ s.opsz ∧ s.opsz ≤ s.params.maxOpsz ∧ 2 ≤ s.q) →
      ∃ t, exec i s = .next t ∧ SessionFailed i .invalidArgument s t)

/-- submit's calls before Ch.wait, in their order and with their operands (43_retry_controller.md R172, R173): an answer
leads to the next call, and a FATAL at any of them ends the command with its cause. That D2O is written in the step of
Ch.acquire, and that a FATAL ends the command in the step of its call, are the model's grouping of the steps (log entry 10,
DEDUCED). -/
def Obligations.SubmitCallsTheChannelInOrder : Prop :=
  ∀ (s : State) (i : Instr), i = .signRnd ∨ i = .signDet → s.params.ok → memWf s.mem = true →
    (s.ctl = .running i .acquire → ∀ d, d = (if s.diglen < s.opsz
        then List.replicate (s.opsz - s.diglen) 0 ++ s.bytes .digest s.diglen
        else match s.params.d2opSelect with
          | .trailing => (s.bytes .digest s.diglen).drop (s.diglen - s.opsz)
          | .leading => (s.bytes .digest s.diglen).take s.opsz) →
      (∀ h rest, s.oracles.acquire = .ok h :: rest → exec i s = .next { s with
        d2o := d ++ s.d2o.drop s.opsz
        oracles := { s.oracles with acquire := rest }
        trace := .acquire :: s.trace
        handle := some h
        ctl := .running i .writePriv }) ∧
      (∀ c rest, s.oracles.acquire = .fatal c :: rest → ∃ t, exec i s = .next t ∧
        SessionFailed i .hardwareFault { s with
          oracles := { s.oracles with acquire := rest }
          trace := .acquire :: s.trace
          faultInfo := match c with | .dma => .dma | .busy => .busy | .uninit => .uninit } t)) ∧
    (∀ p slot bytes next,
      (p = .writePriv ∧ slot = .priv ∧ bytes = s.bytes .key s.opsz ∧ next = .writeNonce ∨
        p = .writeNonce ∧ slot = .nonce ∧ bytes = s.nonce.t.take s.opsz ∧ next = .writeDigest ∨
        p = .writeDigest ∧ slot = .digest ∧ bytes = s.d2o.take s.opsz ∧ next = .run) →
      s.ctl = .running i p →
      (∀ rest, s.oracles.write = .ok :: rest → exec i s = .next { s with
        oracles := { s.oracles with write := rest }
        trace := .writeOperand s.handle slot bytes :: s.trace
        ctl := .running i next }) ∧
      (∀ c rest, s.oracles.write = .fatal c :: rest → ∃ t, exec i s = .next t ∧
        SessionFailed i .hardwareFault { s with
          oracles := { s.oracles with write := rest }
          trace := .writeOperand s.handle slot bytes :: s.trace
          faultInfo := match c with | .dma => .dma | .busy => .busy | .uninit => .uninit } t)) ∧
    (s.ctl = .running i .run →
      (∀ rest, s.oracles.run = .ok :: rest → exec i s = .next { s with
        oracles := { s.oracles with run := rest }
        trace := .run s.handle :: s.trace
        ctl := .running i .wait }) ∧
      (∀ c rest, s.oracles.run = .fatal c :: rest → ∃ t, exec i s = .next t ∧
        SessionFailed i .hardwareFault { s with
          oracles := { s.oracles with run := rest }
          trace := .run s.handle :: s.trace
          faultInfo := match c with | .dma => .dma | .busy => .busy | .uninit => .uninit } t))

/-- SIGN_RND and SIGN_DET complete at Ch.wait: SUCCESS(r, s) goes unchecked into SIG_R and SIG_S and the command ends with
NONE (43_retry_controller.md R175, R179; 60_exceptions.md R215, R216). That the step of Ch.wait itself writes them and ends the
command is the model's grouping (log entry 10, DEDUCED). -/
def Obligations.SignSuccessGivesTheSignature : Prop :=
  ∀ (s : State) (i : Instr) (r u : Bytes) (rest : List WaitAnswer), i = .signRnd ∨ i = .signDet → s.params.ok →
    memWf s.mem = true → s.ctl = .running i .wait → s.opsz ≤ s.params.maxOpsz →
    s.oracles.wait = .success r u :: rest → r.length = s.opsz → u.length = s.opsz →
    ∃ t, exec i s = .next t ∧ BufHolds t .sigR r ∧ BufHolds t .sigS u ∧
      SessionEnded [.sigR, .sigS] .none { s with
        oracles := { s.oracles with wait := rest }
        trace := .wait s.handle :: s.trace } t

/-- After a retryable outcome the loop makes the next attempt or ends with TOO_MANY_ATTEMPTS, and a FATAL ends the command
(43_retry_controller.md R171, R172, R175). The next nonce: SIGN_RND draws anew, SIGN_DET restarts at step 0 with
RFCRETRY = 0 and goes to forced_reject with RFCRETRY = 1 (R174, R177, R178). That the step of Ch.wait itself advances
ATTEMPTS and begins the next attempt, or ends the command, is the model's grouping of the steps (log entry 10, DEDUCED). -/
def Obligations.RetryableOutcomeStartsTheNextAttempt : Prop :=
  ∀ (s w : State) (i : Instr) (a : WaitAnswer) (rest : List WaitAnswer), i = .signRnd ∨ i = .signDet → s.params.ok →
    memWf s.mem = true → s.ctl = .running i .wait → s.oracles.wait = a :: rest →
    w = { s with oracles := { s.oracles with wait := rest }, trace := .wait s.handle :: s.trace } →
    (a = .notInvertible ∨ a = .invalidSignature → s.attempts.toNat = s.maxAtt.toNat + 1 →
      ∃ t, exec i s = .next t ∧ SessionFailed i .tooManyAttempts w t) ∧
    (a = .notInvertible ∨ a = .invalidSignature → s.attempts.toNat ≠ s.maxAtt.toNat + 1 →
      (i = .signRnd → exec i s = .next { w with
        handle := none, attempts := s.attempts + 1, draws := 0, ctl := .running i .draw }) ∧
      (i = .signDet → s.rfcRetry = false → exec i s = .next { w with
        handle := none, attempts := s.attempts + 1
        nonce := { s.nonce with det := true, retry := 0, step := .step0 }
        ctl := .running i .derive }) ∧
      (i = .signDet → s.rfcRetry = true → exec i s = .next { w with
        handle := none, attempts := s.attempts + 1, ctl := .running i .reject })) ∧
    (∀ c, a = .fatal c →
      ∃ t, exec i s = .next t ∧ SessionFailed i .hardwareFault { w with faultInfo := match c with | .dma => .dma | .busy => .busy | .uninit => .uninit } t)

/-- 42_nonce_rfc6979.md R151: forced_reject writes K and STEP only, and the derivation goes on at step 3. -/
def Obligations.ForcedRejectUpdatesTheKey : Prop :=
  ∀ (s : State) (k msg : Bytes), s.ctl = .running .signDet .reject → s.oracles.hmacAnswers ≠ some 0 →
    k = s.nonce.k.take s.hlen → msg = s.nonce.v.take s.hlen ++ [0x00] →
    exec .signDet s = .next { s.hmacSpent k msg with
      nonce := { s.nonce with k := s.hmac k msg ++ s.nonce.k.drop s.hlen, step := .step3 }
      ctl := .running .signDet .derive }

/-- A whole SIGN_RND whose first draw is in range and whose channel answers: nine engine steps; the channel receives the
private key, the nonce and the digest operand in this order, and its r and s become the signature
(43_retry_controller.md R172 to R175). The count of nine is the model's grouping of the steps (log entry 10, DEDUCED):
the checks, the entropy call, the test and six channel calls. -/
def Obligations.SignRndFirstAttemptSigns : Prop :=
  ∀ (s : State) (e r u : Bytes) (c h : Nat) (er : List EntropyAnswer) (ar : List AcquireAnswer) (wr rr : List CallAnswer)
    (tr : List WaitAnswer), s.Inv → s.justAccepted .signRnd → s.checksOf .signRnd = true →
    s.oracles.entropy = .bytes e :: er → e.length = s.opsz → c = beInt e % 2 ^ bitlen s.q → 1 ≤ c → c < s.q →
    s.oracles.acquire = .ok h :: ar → s.oracles.write = .ok :: .ok :: .ok :: wr → s.oracles.run = .ok :: rr →
    s.oracles.wait = .success r u :: tr → r.length = s.opsz → u.length = s.opsz →
    ∃ t, runSteps 9 s = .next t ∧ t.busy = false ∧ t.err = .none ∧ t.attempts = 1 ∧ BufHolds t .sigR r ∧
      BufHolds t .sigS u ∧
      t.trace = [.wait (some h), .run (some h),
        .writeOperand (some h) .digest (digest2op s.params.d2opSelect (s.bytes .digest s.diglen) s.opsz),
        .writeOperand (some h) .nonce (be s.opsz c), .writeOperand (some h) .priv (s.bytes .key s.opsz), .acquire,
        .entropy s.opsz] ++ s.trace

/-- Attempt exhaustion (43_retry_controller.md R180, the spec's own inference): with every draw in range and every wait
retryable, SIGN_RND makes exactly MAX + 1 attempts, stays busy before, and then ends with TOO_MANY_ATTEMPTS. The counts 8·n
and 8·n + 1 are the model's grouping of the steps (log entry 10, DEDUCED). -/
def Obligations.SignRndExhaustsItsAttempts : Prop :=
  ∀ (s : State) (n : Nat) (ds : List Bytes) (hs : List Nat) (ws : List WaitAnswer) (er : List EntropyAnswer)
    (ar : List AcquireAnswer) (wr rr : List CallAnswer) (tr : List WaitAnswer),
    s.Inv → s.justAccepted .signRnd → s.checksOf .signRnd = true → n = s.maxAtt.toNat + 1 →
    ds.length = n → hs.length = n → ws.length = n →
    (∀ e ∈ ds, e.length = s.opsz ∧ 1 ≤ beInt e % 2 ^ bitlen s.q ∧ beInt e % 2 ^ bitlen s.q < s.q) →
    (∀ a ∈ ws, a = .notInvertible ∨ a = .invalidSignature) →
    s.oracles.entropy = ds.map .bytes ++ er → s.oracles.acquire = hs.map .ok ++ ar →
    s.oracles.write = List.replicate (3 * n) .ok ++ wr → s.oracles.run = List.replicate n .ok ++ rr →
    s.oracles.wait = ws ++ tr →
    (∀ k, k ≤ 8 * n → ∃ t, runSteps k s = .next t ∧ t.busy = true) ∧
    ∃ t, runSteps (8 * n + 1) s = .next t ∧ t.busy = false ∧ t.err = .tooManyAttempts ∧ t.attempts.toNat = n

/-! ## The host port -/

/-- 20_memory.md R55: the legal accesses, and that a refused one has no effect and answers 0 with the error response. -/
def Obligations.PortRefusesIllegalAccesses : Prop :=
  ∀ (s : State) (o n : Nat) (wd : Width) (v : Word) (rest : List Input), o < 0x1000 → n = widthBytes wd →
    (¬ (o < 0x100 ∧ n = 4 ∧ o % 4 = 0 ∨ 0x100 ≤ o ∧ o % n = 0) →
      (s.hostNext (.read · wd) o rest ∨ s.hostNext (.write · wd v) o rest) →
      step s = .next { s with inputs := rest, resp := ⟨true, 0⟩ }) ∧
    ((o < 0x100 ∧ n = 4 ∧ o % 4 = 0 ∨ 0x100 ≤ o ∧ o % n = 0) →
      (s.hostNext (.read · wd) o rest ∨ s.hostNext (.write · wd v) o rest) →
      ∃ t, step s = .next t ∧ t.resp.error = false)

/-- An access outside the window of 4 KiB at BASE never reaches the block: the model stops with a fault of its own (log
entry 9; 20_memory.md R50 gives the window). -/
def Obligations.AccessOutsideTheWindowFaults : Prop :=
  ∀ (s : State) (addr : Nat) (wd : Width) (v : Word) (rest : List Input),
    addr < s.params.base ∨ s.params.base + 0x1000 ≤ addr →
    (s.inputs = .host (.read addr wd) :: rest ∨ s.inputs = .host (.write addr wd v) :: rest) →
    step s = .fault .outsideWindow

/-- 20_memory.md R58: writes while BUSY = 1: dropped with WERR at a writable offset, performed at INTEN and INTSTAT, and
ignored elsewhere. -/
def Obligations.BusyWritesAreDropped : Prop :=
  ∀ (s : State) (o : Nat) (wd : Width) (v : Word) (rest : List Input), s.params.ok → s.busy = true → o < 0x1000 →
    legal o wd = true → s.hostNext (.write · wd v) o rest →
    ((o ∈ [0x004, 0x008, 0x00C, 0x01C, 0x028] ∨ ∃ x ∈ [Buf.key, .digest, .n, .a, .b], ∃ j, j < s.bufcap ∧ o = bufBase x + j) →
      step s = .next { s with inputs := rest, resp := ⟨false, 0⟩, werrPend := true }) ∧
    (o = 0x014 → step s = .next { s with
      inputs := rest, resp := ⟨false, 0⟩, doneEn := v.getLsbD 0, werrEn := v.getLsbD 1 }) ∧
    (o = 0x018 → step s = .next { s with
      inputs := rest, resp := ⟨false, 0⟩
      donePend := s.donePend && !v.getLsbD 0, werrPend := s.werrPend && !v.getLsbD 1 }) ∧
    (¬ (o ∈ [0x004, 0x008, 0x00C, 0x01C, 0x028] ∨ ∃ x ∈ [Buf.key, .digest, .n, .a, .b], ∃ j, j < s.bufcap ∧ o = bufBase x + j) →
      o ≠ 0x014 → o ≠ 0x018 → step s = .next { s with inputs := rest, resp := ⟨false, 0⟩ })

/-- 20_memory.md R59: while BUSY = 1 every buffer window reads 0, and a register reads its live value, BUSY or not. -/
def Obligations.BusyBufferReadsReturnZero : Prop :=
  ∀ (s : State) (o : Nat) (wd : Width) (rest : List Input), o < 0x1000 → legal o wd = true →
    s.hostNext (.read · wd) o rest →
    (s.busy = true → 0x100 ≤ o → step s = .next { s with inputs := rest, resp := ⟨false, 0⟩ }) ∧
    ∀ r : Reg, o = (match r with
        | .id => 0x000 | .ctrl => 0x004 | .cfg => 0x008 | .cmd => 0x00C | .status => 0x010 | .inten => 0x014
        | .intstat => 0x018 | .maxatt => 0x01C | .attempts => 0x020 | .faultinfo => 0x024 | .aluImm => 0x028
        | .qlen => 0x02C) →
      step s = .next { s with inputs := rest, resp := ⟨false, s.regView r⟩ }

/-- 20_memory.md R52: byte accesses to the buffer windows while BUSY = 0: X[j] below BUFCAP, nothing above, KEY and DIGEST
read 0, and R, NONCE, SIG_R and SIG_S ignore writes. -/
def Obligations.BufferWindowsMapTheBuffers : Prop :=
  ∀ (s : State) (x : Buf) (j : Nat) (v : Word) (rest : List Input), s.params.ok → memWf s.mem = true → s.busy = false →
    j < 128 →
    (s.hostNext (.read · .w8) (bufBase x + j) rest → step s = .next { s with
      inputs := rest
      resp := ⟨false, if j < s.bufcap ∧ x ≠ .key ∧ x ≠ .digest
        then BitVec.ofNat 32 (memRead s.mem (bufBase x + j)).toNat else 0⟩ }) ∧
    (s.hostNext (.write · .w8 v) (bufBase x + j) rest → ∃ t, step s = .next t ∧
      (∀ a, memRead t.mem a =
        if a = bufBase x + j ∧ j < s.bufcap ∧ x ∈ [Buf.key, .digest, .n, .a, .b] then BitVec.ofNat 8 v.toNat
        else memRead s.mem a) ∧
      { t with mem := s.mem } = { s with inputs := rest, resp := ⟨false, 0⟩ })

/-- 20_memory.md R52, R54: every 8-, 16- and 32-bit access to a buffer window while BUSY = 0, byte lane by byte lane: lane i
is data bits [8i+7:8i] and the byte at offset + i, which is the buffer's below BUFCAP and reserved above, reads 0 in KEY and
DIGEST and ignores writes in R, NONCE, SIG_R and SIG_S. -/
def Obligations.ByteLanesAreLittleEndian : Prop :=
  ∀ (s : State) (x : Buf) (k n : Nat) (wd : Width) (v : Word) (rest : List Input), s.params.ok → memWf s.mem = true →
    s.busy = false → (wd = .w8 ∧ n = 1 ∨ wd = .w16 ∧ n = 2 ∨ wd = .w32 ∧ n = 4) → k % n = 0 → k + n ≤ 128 →
    (s.hostNext (.read · wd) (bufBase x + k) rest → ∃ d, step s = .next { s with inputs := rest, resp := ⟨false, d⟩ } ∧
      d.toNat < 256 ^ n ∧ ∀ i, i < n → BitVec.ofNat 8 (d.toNat / 256 ^ i) =
        if k + i < s.bufcap ∧ x ≠ .key ∧ x ≠ .digest then memRead s.mem (bufBase x + k + i) else 0) ∧
    (s.hostNext (.write · wd v) (bufBase x + k) rest → ∃ t, step s = .next t ∧
      (∀ i, i < n → k + i < s.bufcap → x ∈ [Buf.key, .digest, .n, .a, .b] →
        memRead t.mem (bufBase x + k + i) = BitVec.ofNat 8 (v.toNat / 256 ^ i)) ∧
      (∀ a, ¬ (bufBase x + k ≤ a ∧ a < bufBase x + k + n ∧ a < bufBase x + s.bufcap ∧
        x ∈ [Buf.key, .digest, .n, .a, .b]) → memRead t.mem a = memRead s.mem a) ∧
      { t with mem := s.mem } = { s with inputs := rest, resp := ⟨false, 0⟩ })

/-- 20_memory.md R53: reserved offsets (0x030 to 0x0FF, 0x580 to 0xFFF, and the bytes of a window at BUFCAP and above) and
reserved register fields read 0, writes to them are ignored, and neither is an error, BUSY or not; and the read-only registers
ignore writes (R51). The masks are the fields of 10_state.md R22 to R32. -/
def Obligations.ReservedReadsZeroAndIgnoresWrites : Prop :=
  ∀ (s : State) (o : Nat) (wd : Width) (v : Word) (rest : List Input), o < 0x1000 → legal o wd = true →
    (0x030 ≤ o ∧ o < 0x100 ∨ 0x580 ≤ o ∨
        (∃ x j, s.bufcap ≤ j ∧ j < 128 ∧ o = bufBase x + j) →
      s.hostNext (.read · wd) o rest ∨ s.hostNext (.write · wd v) o rest →
      step s = .next { s with inputs := rest, resp := ⟨false, 0⟩ }) ∧
    (o ∈ [0x000, 0x010, 0x020, 0x024, 0x02C] → s.hostNext (.write · wd v) o rest →
      step s = .next { s with inputs := rest, resp := ⟨false, 0⟩ }) ∧
    (∀ m : Word, (o, m) ∈ [(0x004, 0xF1), (0x008, 0xFFFF), (0x00C, 0), (0x010, 0x00FF7FF3), (0x014, 0x3), (0x018, 0x3),
        (0x01C, 0xFF), (0x020, 0x1FF), (0x024, 0xF), (0x02C, 0x7FF)] → s.hostNext (.read · wd) o rest →
      ∃ d, step s = .next { s with inputs := rest, resp := ⟨false, d⟩ } ∧ d &&& ~~~m = 0) ∧
    ∀ m : Word, (o, m) ∈ [(0x004, 0xF1), (0x008, 0xFFFF), (0x014, 0x3), (0x018, 0x3), (0x01C, 0xFF)] →
      step { s with inputs := .host (.write (s.params.base + o) wd v) :: rest } =
        step { s with inputs := .host (.write (s.params.base + o) wd (v &&& m)) :: rest }

/-- The read-write registers hold what is written, reserved bits read 0, and nothing else changes
(10_state.md R22, R23, R26, R28, R31). -/
def Obligations.RegistersReadBackWhatIsWritten : Prop :=
  ∀ (s : State) (v : Word) (rest : List Input), s.busy = false →
    (s.hostNext (.write · .w32 v) 0x004 rest → ∃ t, step s = .next t ∧ t.regView .ctrl = v &&& 0xF1 ∧
      t = { s with inputs := rest, resp := ⟨false, 0⟩, rfcRetry := v.getLsbD 0, hashAlg := v.extractLsb' 4 4 }) ∧
    (s.hostNext (.write · .w32 v) 0x008 rest → ∃ t, step s = .next t ∧ t.regView .cfg = v &&& 0xFFFF ∧
      t = { s with inputs := rest, resp := ⟨false, 0⟩, opsz8 := v.extractLsb' 0 8, diglen8 := v.extractLsb' 8 8 }) ∧
    (s.hostNext (.write · .w32 v) 0x014 rest → ∃ t, step s = .next t ∧ t.regView .inten = v &&& 0x3 ∧
      t = { s with inputs := rest, resp := ⟨false, 0⟩, doneEn := v.getLsbD 0, werrEn := v.getLsbD 1 }) ∧
    (s.hostNext (.write · .w32 v) 0x01C rest → ∃ t, step s = .next t ∧ t.regView .maxatt = v &&& 0xFF ∧
      t = { s with inputs := rest, resp := ⟨false, 0⟩, maxAtt := v.extractLsb' 0 8 }) ∧
    (s.hostNext (.write · .w32 v) 0x028 rest → ∃ t, step s = .next t ∧ t.regView .aluImm = v ∧
      t = { s with inputs := rest, resp := ⟨false, 0⟩, aluImm := v })

/-- 60_exceptions.md R221: a write to INTSTAT clears the bits written 1 and changes nothing else, and a write to INTEN is
taken, BUSY or not; every engine step that ends a command sets INTSTAT.DONE again. -/
def Obligations.IntstatIsWriteOneToClear : Prop :=
  (∀ (s : State) (v : Word) (rest : List Input),
    (s.hostNext (.write · .w32 v) 0x018 rest → step s = .next { s with
      inputs := rest, resp := ⟨false, 0⟩
      donePend := s.donePend && !v.getLsbD 0, werrPend := s.werrPend && !v.getLsbD 1 }) ∧
    (s.hostNext (.write · .w32 v) 0x014 rest → step s = .next { s with
      inputs := rest, resp := ⟨false, 0⟩, doneEn := v.getLsbD 0, werrEn := v.getLsbD 1 })) ∧
  ∀ s t : State, engineStep s = .next t → s.busy = true → t.busy = false →
    t.donePend = true ∧ t.done = true ∧ t.ctl = .idle

/-- Where STATUS shows its fields, with the codes of ERR, STEP and CMP (10_state.md R25, R39; 60_exceptions.md R211), and what
every other register but QLEN shows, with the codes of FAULTINFO (10_state.md R21 to R24, R26 to R31); reserved bits read
0. -/
def Obligations.StatusShowsItsFields : Prop :=
  ∀ (s : State) (st : Nat), st = (s.regView .status).toNat →
    st % 2 = (if s.busy then 1 else 0) ∧ st / 2 % 2 = (if s.done then 1 else 0) ∧ st / 4 % 4 = 0 ∧
    st / 16 % 16 = (match s.err with
      | .none => 0 | .invalidArgument => 1 | .hardwareFault => 2 | .tooManyAttempts => 3 | .insufficientEntropy => 4
      | .illegalCommand => 5 | .invalidSignature => 6) ∧
    st / 256 % 8 = (if s.nonce.det then (match s.nonce.step with
      | .step0 => 0 | .step1 => 1 | .step2 => 2 | .step3 => 3 | .step4 => 4 | .step5 => 5 | .step6 => 6) else 0) ∧
    st / 2048 % 2 = (if s.nonce.det then 1 else 0) ∧
    st / 4096 % 4 = (match s.cmp with | .equal => 0 | .greater => 1 | .less => 3) ∧
    st / 16384 % 2 = (if s.borrow then 1 else 0) ∧ st / 32768 % 2 = 0 ∧ st / 65536 % 256 = s.nonce.retry.toNat ∧
    st / 16777216 = 0 ∧
    s.regView .id = 0x69790001 ∧ s.regView .cmd = 0 ∧
    (s.regView .ctrl).toNat = (if s.rfcRetry then 1 else 0) + 16 * s.hashAlg.toNat ∧
    (s.regView .cfg).toNat = s.opsz8.toNat + 256 * s.diglen8.toNat ∧
    (s.regView .inten).toNat = (if s.doneEn then 1 else 0) + (if s.werrEn then 2 else 0) ∧
    (s.regView .intstat).toNat = (if s.donePend then 1 else 0) + (if s.werrPend then 2 else 0) ∧
    (s.regView .maxatt).toNat = s.maxAtt.toNat ∧ (s.regView .attempts).toNat = s.attempts.toNat ∧
    (s.regView .faultinfo).toNat = (match s.faultInfo with
      | .none => 0 | .dma => 1 | .busy => 2 | .uninit => 3 | .entropy => 4) ∧
    s.regView .aluImm = s.aluImm

/-- 10_state.md R38: IRQ is the OR of the enabled pending bits, a function of the state, 0 after reset; so enabling a
pending bit raises it at once (60_exceptions.md R220). -/
def Obligations.IrqIsTheEnabledPendingBits : Prop :=
  State.reset.irq = false ∧ ∀ s : State, (s.irq = true ↔ (s.donePend = true ∧ s.doneEn = true) ∨ (s.werrPend = true ∧ s.werrEn = true)) ∧
    ∀ (v : Word) (rest : List Input), s.hostNext (.write · .w32 v) 0x014 rest → ∃ t, step s = .next t ∧
      (t.irq = true ↔ (s.donePend = true ∧ v.getLsbD 0 = true) ∨ (s.werrPend = true ∧ v.getLsbD 1 = true))

/-- 10_state.md R32: QLEN reads the least k with int(N, min(OPSZ, BUFCAP)) < 2^k, 0 after reset, and the engine's qlen is
the same function. -/
def Obligations.QlenReadsTheOrdersBitLength : Prop :=
  State.reset.regView .qlen = 0 ∧ ∀ s : State, s.params.ok →
    (∀ k, (s.regView .qlen).toNat ≤ k ↔ beInt (s.bytes .n (min s.opsz8.toNat s.bufcap)) < 2 ^ k) ∧
    (s.opsz8.toNat ≤ s.bufcap → (s.regView .qlen).toNat = s.qlen)

/-- A read has no side effect: it changes nothing but the port's answer (20_memory.md R57). -/
def Obligations.ReadsHaveNoSideEffect : Prop :=
  ∀ (s t : State) (addr : Nat) (wd : Width) (rest : List Input), s.inputs = .host (.read addr wd) :: rest →
    step s = .next t → t = { s with inputs := rest, resp := t.resp }

/-- What a host reads never depends on KEY, DIGEST, K, V, T, TLEN, DRAWS, HANDLE or D2O (10_state.md R33, R35, R36;
20_memory.md R52): two states that differ in these only answer every read alike. -/
def Obligations.ReadsNeverRevealSecrets : Prop :=
  ∀ (s s' : State) (mem : Memory) (k v t : Bytes) (tlen draws : Nat) (handle : Option Nat) (d2o : Bytes),
    (∀ a, ¬ (0x100 ≤ a ∧ a < 0x200) → memRead mem a = memRead s.mem a) →
    s' = { s with
      mem := mem, nonce := { s.nonce with k := k, v := v, t := t, tlen := tlen }
      draws := draws, handle := handle, d2o := d2o } →
    ∀ (addr : Nat) (wd : Width) (rest : List Input), s.inputs = .host (.read addr wd) :: rest →
      (∃ u u', step s = .next u ∧ step s' = .next u' ∧ u.resp = u'.resp) ∨
        (step s = .fault .outsideWindow ∧ step s' = .fault .outsideWindow)

/-! ## Whole-machine rules -/

/-- Only CMP writes STATUS.CMP and only SUB writes STATUS.BORROW, whatever the command ends with, and no host access reaches
them (10_state.md R25): over every command, and over every step but a reset, which clears both (R240). -/
def Obligations.OnlyCmpAndSubWriteTheFlags : Prop :=
  (∀ (s t : State) (i : Instr), exec i s = .next t →
    ((∀ sz cin, i ≠ .cmp sz cin) → t.cmp = s.cmp) ∧ ((∀ sz, i ≠ .sub sz) → t.borrow = s.borrow)) ∧
  ∀ s t : State, step s = .next t → (∀ rest, s.inputs ≠ .reset :: rest) →
    ((∀ sz cin p, s.ctl ≠ .running (.cmp sz cin) p) ∨ (∃ a rest, s.inputs = .host a :: rest) → t.cmp = s.cmp) ∧
    ((∀ sz p, s.ctl ≠ .running (.sub sz) p) ∨ (∃ a rest, s.inputs = .host a :: rest) → t.borrow = s.borrow)

/-- Which command can end with which code and cause (60_exceptions.md R212, the spec's own inference). -/
def Obligations.CommandsEndWithTheirCodes : Prop :=
  ∀ (s t : State) (i : Instr), s.faultInfo = .none → exec i s = .next t → s.busy = true → t.busy = false →
    match i with
    | .nop | .zeroize => t.err = .none
    | .cmp _ _ | .add _ | .sub _ | .rshift _ | .trunc _ | .bits2int _ | .bits2oct _ | .d2op _ =>
      t.err = .none ∨ t.err = .invalidArgument
    | .nonceRnd => t.err = .none ∨ t.err = .invalidArgument ∨ t.err = .insufficientEntropy ∨
        (t.err = .hardwareFault ∧ t.faultInfo = .entropy)
    | .nonceDet => t.err = .none ∨ t.err = .invalidArgument ∨ t.err = .tooManyAttempts
    | .signRnd => t.err = .none ∨ t.err = .invalidArgument ∨ t.err = .tooManyAttempts ∨
        t.err = .insufficientEntropy ∨ (t.err = .hardwareFault ∧ t.faultInfo ≠ .none)
    | .signDet => t.err = .none ∨ t.err = .invalidArgument ∨ t.err = .tooManyAttempts ∨
        (t.err = .hardwareFault ∧ t.faultInfo ≠ .none ∧ t.faultInfo ≠ .entropy)

/-- 60_exceptions.md R215, R216: a nonce or signing command ends with KEY, DIGEST and the hidden state zeroized on success
and on every error alike, and with its outputs zeroized on every error. -/
def Obligations.TerminationZeroizesTheSession : Prop :=
  ∀ (s t : State) (i : Instr), i = .nonceRnd ∨ i = .nonceDet ∨ i = .signRnd ∨ i = .signDet → s.params.ok →
    memWf s.mem = true → exec i s = .next t → s.busy = true → t.busy = false →
    BufZero t .key ∧ BufZero t .digest ∧ HiddenZero t ∧ t.done = true ∧ t.donePend = true ∧ t.ctl = .idle ∧
      (t.err ≠ .none → ∀ x ∈ outputsOf i, BufZero t x)

/-- While a command runs, no step changes one of its inputs: every buffer and CTRL, CFG, MAXATT and ALU_IMM stay as they
are until it ends (20_memory.md R61, the spec's own inference). -/
def Obligations.InputsStayStableWhileBusy : Prop :=
  ∀ s t : State, step s = .next t → s.busy = true → t.busy = true →
    t.mem = s.mem ∧ t.rfcRetry = s.rfcRetry ∧ t.hashAlg = s.hashAlg ∧ t.opsz8 = s.opsz8 ∧ t.diglen8 = s.diglen8 ∧
      t.maxAtt = s.maxAtt ∧ t.aluImm = s.aluImm

/-- 70_reset_and_hazards.md R248: an oracle call that never answers keeps the engine in it with BUSY = 1, for any number of
steps; `c` is step 6's candidate. That an unanswered call is a step which leaves the engine at its control point is the model's
(log entries 4 and 10). The HMAC call of the step 0 with which NONCE_DET and SIGN_DET start leaves the engine at
derive's step 0 (log entry 10). -/
def Obligations.UnansweredCallsLeaveTheEngineStuck : Prop :=
  ∀ (s : State) (i : Instr) (p : Point) (c : Nat), s.ctl = .running i p → s.busy = true → s.inputs = [] →
    c = bits2int (s.nonce.t.take s.opsz) (bitlen s.q) →
    ((i = .nonceRnd ∨ i = .signRnd) ∧ p = .draw ∧ s.draws ≠ s.params.rndMaxDraws ∧ s.oracles.entropy = [] ∨
      (i = .signRnd ∨ i = .signDet) ∧ (p = .acquire ∧ s.oracles.acquire = [] ∨
        (p = .writePriv ∨ p = .writeNonce ∨ p = .writeDigest) ∧ s.oracles.write = [] ∨
        p = .run ∧ s.oracles.run = [] ∨ p = .wait ∧ s.oracles.wait = []) ∨
      (i = .nonceDet ∨ i = .signDet) ∧ p = .derive ∧ s.nonce.step ≠ .step5 ∧
        (s.nonce.step = .step6 → (c = 0 ∨ s.q ≤ c) ∧ s.nonce.retry ≠ s.maxAtt) ∧ s.oracles.hmacAnswers = some 0 ∨
      i = .signDet ∧ p = .reject ∧ s.oracles.hmacAnswers = some 0 →
      ∀ k, ∃ t, runSteps k s = .next t ∧ t.ctl = s.ctl ∧ t.busy = true ∧ t.mem = s.mem ∧ t.trace = s.trace) ∧
    ((i = .nonceDet ∨ i = .signDet) ∧ p = .start ∧ s.checksOf i = true ∧ s.oracles.hmacAnswers = some 0 →
      ∀ k, ∃ t, runSteps (k + 1) s = .next t ∧ t.ctl = .running i .derive ∧ t.nonce.step = .step0 ∧ t.busy = true ∧
        t.mem = s.mem ∧ t.trace = s.trace)

/-- The invariant holds right after reset. -/
def Obligations.ResetStateMeetsTheInvariant : Prop := State.reset.Inv

/-- Every step, of the host, of the engine or of reset, keeps the invariant. -/
def Obligations.EveryStepKeepsTheInvariant : Prop :=
  ∀ s t : State, s.Inv → step s = .next t → t.Inv

/-- The nonce a NONCE command gives lies in 1..n−1 (41_nonce_random.md R133, 42_nonce_rfc6979.md R150): for every state
that meets the invariant, whatever engine step ends NONCE_RND or NONCE_DET with ERR = NONE. -/
def Obligations.GivenNonceIsInRange : Prop :=
  ∀ (s t : State) (i : Instr) (p : Point), i = .nonceRnd ∨ i = .nonceDet → s.Inv → s.ctl = .running i p →
    exec i s = .next t → t.busy = false → t.err = .none →
    1 ≤ beInt (t.bytes .nonce t.opsz) ∧ beInt (t.bytes .nonce t.opsz) < beInt (t.bytes .n t.opsz)
end

