-- ==== Sys2Proof/Laws/Bytes.lean ====
section
/-! SUPPORT. Big-endian byte strings: lengths, and that `be` and `beInt` undo each other (00_scope.md R11). -/

namespace Sys2Proof.Machine

open Sys2Proof

@[simp] theorem length_be (L v : Nat) : (be L v).length = L := by
  induction L generalizing v with
  | zero => rfl
  | succ L ih => simp [be, ih]

@[simp] theorem length_zeros (L : Nat) : (zeros L).length = L := by simp [zeros]

@[simp] theorem length_ones (L : Nat) : (ones L).length = L := by simp [ones]

@[simp] theorem length_fit (L : Nat) (s : Bytes) : (fit L s).length = L := by
  simp [fit]; omega

theorem fit_of_length {L : Nat} {s : Bytes} (h : s.length = L) : fit L s = s := by
  subst h; simp [fit, zeros]

theorem length_splice {x y : Bytes} {off : Nat} (h : off + y.length ≤ x.length) :
    (splice x off y).length = x.length := by
  simp [splice]; omega

/-- Writing at the head of a hidden buffer. -/
theorem splice_zero {x y : Bytes} {n : Nat} (h : y.length = n) : splice x 0 y = y ++ x.drop n := by
  subst h; simp [splice]

theorem take_splice_zero {x y : Bytes} {n : Nat} (h : y.length = n) : (splice x 0 y).take n = y := by
  subst h; simp [splice]

theorem beInt_foldl (s : Bytes) (acc : Nat) :
    s.foldl (fun acc b => acc * 256 + b.toNat) acc = acc * 256 ^ s.length + beInt s := by
  induction s generalizing acc with
  | nil => simp [beInt]
  | cons b s ih =>
    simp only [List.foldl_cons, List.length_cons, beInt]
    rw [ih, ih (0 * 256 + b.toNat)]
    ring

@[simp] theorem beInt_nil : beInt [] = 0 := rfl

theorem beInt_cons (b : Byte) (s : Bytes) : beInt (b :: s) = b.toNat * 256 ^ s.length + beInt s := by
  have h := beInt_foldl s (0 * 256 + b.toNat)
  simpa [beInt] using h

theorem beInt_append (s t : Bytes) : beInt (s ++ t) = beInt s * 256 ^ t.length + beInt t := by
  induction s with
  | nil => simp
  | cons b s ih => simp [beInt_cons, ih, pow_add]; ring

theorem beInt_lt (s : Bytes) : beInt s < 256 ^ s.length := by
  induction s with
  | nil => simp
  | cons b s ih =>
    rw [beInt_cons, List.length_cons, pow_succ]
    have hb : b.toNat ≤ 255 := by have := b.isLt; omega
    calc b.toNat * 256 ^ s.length + beInt s
        ≤ 255 * 256 ^ s.length + beInt s := by gcongr
      _ < 255 * 256 ^ s.length + 256 ^ s.length := by gcongr
      _ = 256 ^ s.length * 256 := by ring

theorem two_pow_eight_mul (L : Nat) : 2 ^ (8 * L) = 256 ^ L := by
  rw [pow_mul]; norm_num

/-- `int(be(L, v), L) = v mod 2^(8L)`. -/
theorem beInt_be (L v : Nat) : beInt (be L v) = v % 2 ^ (8 * L) := by
  induction L with
  | zero => simp [be, Nat.mod_one]
  | succ L ih =>
    have h := Nat.mod_mul (a := 256 ^ L) (b := 256) (x := v)
    rw [be, beInt_cons, ih, length_be, two_pow_eight_mul, two_pow_eight_mul, BitVec.toNat_ofNat,
      Nat.shiftRight_eq_div_pow, two_pow_eight_mul, pow_succ 256 L, h]
    ring

theorem beInt_be_of_lt {L v : Nat} (h : v < 2 ^ (8 * L)) : beInt (be L v) = v := by
  rw [beInt_be, Nat.mod_eq_of_lt h]

theorem be_mod (L v : Nat) : be L (v % 2 ^ (8 * L)) = be L v := by
  suffices h : ∀ M, L ≤ M → be L (v % 2 ^ (8 * M)) = be L v from h L le_rfl
  induction L with
  | zero => intros; rfl
  | succ L ih =>
    intro M hM
    rw [be, be, ih M (by omega)]
    congr 1
    apply BitVec.eq_of_toNat_eq
    obtain ⟨k, rfl⟩ : ∃ k, M = L + (k + 1) := ⟨M - L - 1, by omega⟩
    simp only [BitVec.toNat_ofNat, Nat.shiftRight_eq_div_pow]
    rw [mul_add, pow_add, Nat.mod_mul_right_div_self, mul_add, pow_add, mul_comm (2 ^ (8 * k)),
      Nat.mod_mod_of_dvd _ (by norm_num)]

/-- `be(len(s), int(s)) = s`. -/
theorem be_beInt (s : Bytes) : be s.length (beInt s) = s := by
  induction s with
  | nil => rfl
  | cons b s ih =>
    rw [List.length_cons, be, beInt_cons, Nat.shiftRight_eq_div_pow, two_pow_eight_mul]
    have hlt := beInt_lt s
    congr 1
    · have : (b.toNat * 256 ^ s.length + beInt s) / 256 ^ s.length = b.toNat := by
        rw [mul_comm, Nat.mul_add_div (by positivity), Nat.div_eq_of_lt hlt, add_zero]
      rw [this]; simp
    · rw [← be_mod, two_pow_eight_mul, Nat.mul_add_mod_self_right, Nat.mod_eq_of_lt hlt]
      exact ih

end Sys2Proof.Machine
end

