-- ==== Sys2Proof/Laws/Decode.lean ====
section
/-! SUPPORT. The fields of the command word as numbers, that packing and field reads undo each other, and the opcode map's
rows (30_encoding.md R80, R81, R87). -/

namespace Sys2Proof

/-! ## Fields as numbers -/

theorem toNat_append_add {n m : Nat} (x : BitVec n) (y : BitVec m) :
    (x ++ y).toNat = x.toNat * 2 ^ m + y.toNat := by
  rw [BitVec.toNat_append, ← Nat.shiftLeft_add_eq_or_of_lt y.isLt, Nat.shiftLeft_eq]

theorem toNat_packWord (o s : BitVec 8) (c : BitVec 2) :
    (packWord o s c).toNat = o.toNat + 256 * s.toNat + 65536 * c.toNat := by
  show ((0 : BitVec 14) ++ c ++ s ++ o).toNat = _
  rw [toNat_append_add, toNat_append_add, toNat_append_add]
  simp; omega

theorem toNat_fieldOpc (w : Word) : (fieldOpc w).toNat = w.toNat % 256 := by
  simp [fieldOpc, BitVec.extractLsb'_toNat]

theorem toNat_fieldSz (w : Word) : (fieldSz w).toNat = w.toNat / 256 % 256 := by
  simp [fieldSz, BitVec.extractLsb'_toNat, Nat.shiftRight_eq_div_pow]

theorem toNat_fieldCin (w : Word) : (fieldCin w).toNat = w.toNat / 65536 % 4 := by
  simp [fieldCin, BitVec.extractLsb'_toNat, Nat.shiftRight_eq_div_pow]

theorem toNat_fieldRsv (w : Word) : (fieldRsv w).toNat = w.toNat / 262144 := by
  have := w.isLt
  simp [fieldRsv, BitVec.extractLsb'_toNat, Nat.shiftRight_eq_div_pow]
  omega

/-! ## Packing and field reads -/

theorem fieldOpc_packWord (o s : BitVec 8) (c : BitVec 2) : fieldOpc (packWord o s c) = o := by
  apply BitVec.eq_of_toNat_eq
  rw [toNat_fieldOpc, toNat_packWord]
  have := o.isLt
  omega

theorem fieldSz_packWord (o s : BitVec 8) (c : BitVec 2) : fieldSz (packWord o s c) = s := by
  apply BitVec.eq_of_toNat_eq
  rw [toNat_fieldSz, toNat_packWord]
  have := o.isLt
  have := s.isLt
  omega

theorem fieldCin_packWord (o s : BitVec 8) (c : BitVec 2) : fieldCin (packWord o s c) = c := by
  apply BitVec.eq_of_toNat_eq
  rw [toNat_fieldCin, toNat_packWord]
  have := o.isLt
  have := s.isLt
  have := c.isLt
  omega

theorem fieldRsv_packWord (o s : BitVec 8) (c : BitVec 2) : fieldRsv (packWord o s c) = 0 := by
  apply BitVec.eq_of_toNat_eq
  rw [toNat_fieldRsv, toNat_packWord]
  have := o.isLt
  have := s.isLt
  have := c.isLt
  simp; omega

/-- A word with RSV = 0 is its three other fields. -/
theorem packWord_fields {w : Word} (h : fieldRsv w = 0) : packWord (fieldOpc w) (fieldSz w) (fieldCin w) = w := by
  have h := congrArg BitVec.toNat h
  rw [toNat_fieldRsv] at h
  apply BitVec.eq_of_toNat_eq
  rw [toNat_packWord, toNat_fieldOpc, toNat_fieldSz, toNat_fieldCin]
  simp at h; omega

/-! ## The opcode map -/

/-- No two rows have one OPC (30_encoding.md R81: the unique row). -/
theorem opcodeMap_distinct : opcodeMap.Pairwise fun r r' => r.opc ≠ r'.opc := by
  simp [opcodeMap]

/-- A packed word decodes by its row. -/
theorem decode_packWord {row : OpcodeRow} {o s : BitVec 8} {c : BitVec 2}
    (h : opcodeMap.find? (fun row => row.opc == o) = some row) : decode (packWord o s c) = decodeRow row s c := by
  unfold decode
  rw [fieldRsv_packWord, fieldOpc_packWord, fieldSz_packWord, fieldCin_packWord, if_neg (by simp), h]

theorem find_opcodeMap {o : BitVec 8} {row : OpcodeRow}
    (h : opcodeMap.find? (fun row => row.opc == o) = some row) : row ∈ opcodeMap ∧ row.opc = o :=
  ⟨List.mem_of_find?_eq_some h, by simpa using List.find?_some h⟩

/-- A word that decodes has RSV = 0 and a row, and is decoded by it. -/
theorem decode_ok {w : Word} {i : Instr} (h : decode w = .ok i) :
    fieldRsv w = 0 ∧ ∃ row ∈ opcodeMap, row.opc = fieldOpc w ∧ decodeRow row (fieldSz w) (fieldCin w) = .ok i := by
  unfold decode at h
  split_ifs at h with h1
  split at h
  · cases h
  · rename_i row hrow
    exact ⟨not_not.1 h1, row, (find_opcodeMap hrow).1, (find_opcodeMap hrow).2, h⟩

/-! ## Operand fields -/

theorem sizeOf8_szField {sz : Nat} (h : sz ≤ 255) : sizeOf8 (szField sz) = sz := by
  simp [sizeOf8, szField]; omega

theorem szField_sizeOf8 (b : BitVec 8) : szField (sizeOf8 b) = b := by simp [szField, sizeOf8]

theorem sizeOf8_le (b : BitVec 8) : sizeOf8 b ≤ 255 := by
  have := b.isLt
  simp [sizeOf8]; omega

theorem cinField_carryOf2 (c : BitVec 2) : cinField (carryOf2 c) = c := by simp [cinField, carryOf2]

theorem carryOf2_cinField {cin : Int} (h : carryLegal cin) : carryOf2 (cinField cin) = cin := by
  rcases h with rfl | rfl | rfl <;> rfl

theorem cinField_legal {cin : Int} (h : carryLegal cin) : cinField cin ≠ 0b10 := by
  rcases h with rfl | rfl | rfl <;> decide

theorem carryLegal_carryOf2 {c : BitVec 2} (h : c ≠ 0b10) : carryLegal (carryOf2 c) := by
  revert c; unfold carryLegal; decide

end Sys2Proof
end

