-- ==== Sys2Proof/Laws/Functions.lean ====
section
/-! SUPPORT. The bigint functions: bit lengths, comparison as an order, and the lengths and bounds of their results
(40_bigint.md R110 to R114). -/

namespace Sys2Proof.Machine

open Sys2Proof

/-- bitlen(v) is the smallest k with v < 2^k (00_scope.md R10). -/
theorem bitlen_le (v k : Nat) : bitlen v ≤ k ↔ v < 2 ^ k := by
  unfold bitlen
  split_ifs with h
  · simp [h]
  · rw [Nat.add_one_le_iff, Nat.log2_lt h]

theorem lt_two_pow_bitlen (v : Nat) : v < 2 ^ bitlen v := (bitlen_le v _).1 le_rfl

/-- The bit length of a positive v: 2^bitlen(v) ≤ 2·v. -/
theorem two_pow_bitlen_le {v : Nat} (h : 1 ≤ v) : 2 ^ bitlen v ≤ 2 * v := by
  have h1 : bitlen v = Nat.log2 v + 1 := by rw [bitlen, if_neg (by omega)]
  have h2 := Nat.log2_self_le (show v ≠ 0 by omega)
  rw [h1, pow_succ]; omega

/-- A k with v < 2^k ≤ 2·v is the bit length. -/
theorem bitlen_unique {v k : Nat} (h1 : v < 2 ^ k) (h2 : 2 ^ k ≤ 2 * v) : bitlen v = k := by
  refine le_antisymm ((bitlen_le v k).2 h1) ?_
  by_contra hk
  have h3 := lt_two_pow_bitlen v
  have h4 : 2 ^ (bitlen v + 1) ≤ 2 ^ k := Nat.pow_le_pow_right (by norm_num) (by omega)
  rw [pow_succ] at h4; omega

theorem cmp3_less (a b : Bytes) : cmp3 a b 0 = .less ↔ beInt a < beInt b := by
  unfold cmp3 signOf; split_ifs <;> simp <;> omega

/-- The candidate test of rnd_k and step 6 passes exactly for 1 ≤ c ≤ n − 1. -/
theorem outOfRange_false {c n : Bytes} : outOfRange c n = false ↔ 1 ≤ beInt c ∧ beInt c < beInt n := by
  simp [outOfRange, cmp3_less]; omega

@[simp] theorem length_bits2octets (d n : Bytes) : (bits2octets d n).length = n.length := by simp [bits2octets]

@[simp] theorem length_digest2op (sel : D2opSelect) (d : Bytes) (n : Nat) : (digest2op sel d n).length = n := by
  unfold digest2op
  split_ifs
  · simp; omega
  · cases sel <;> simp <;> omega

/-- bits2int(data, dlen, qlen) < 2^qlen (40_bigint.md R111). -/
theorem bits2int_lt (data : Bytes) (qlen : Nat) : bits2int data qlen < 2 ^ qlen := by
  have h := beInt_lt data
  rw [← two_pow_eight_mul] at h
  unfold bits2int
  split_ifs with hq
  · rw [Nat.shiftRight_eq_div_pow, Nat.div_lt_iff_lt_mul (by positivity), ← pow_add]
    rwa [Nat.add_sub_cancel' hq.le]
  · exact h.trans_le (Nat.pow_le_pow_right (by norm_num) (by omega))

end Sys2Proof.Machine
end

