-- ==== Sys2Proof/Laws/Memory.lean ====
section
/-! SUPPORT. The memory of the byte buffers: read after write, and that every write keeps the canonical form. -/

namespace Sys2Proof.Machine

open Sys2Proof

theorem memWf_nil : memWf [] = true := rfl

theorem memWf_cons {c : Host.Cell} {m : Memory} :
    memWf (c :: m) = true ↔ (∀ d ∈ m, c.1 < d.1) ∧ c.2 ≠ unlisted ∧ memWf m = true := by
  simp only [memWf, List.pairwise_cons, List.all_cons, Bool.and_eq_true, decide_eq_true_eq]
  tauto

/-- Below its first offset a canonical memory lists nothing. -/
theorem memRead_below {m : Memory} {a : Nat} (h : ∀ c ∈ m, a < c.1) : memRead m a = unlisted := by
  induction m with
  | nil => rfl
  | cons c m ih =>
    have hc := h c (by simp)
    rw [memRead, if_neg (by omega)]
    exact ih fun d hd => h d (by simp [hd])

/-- Read after write: the byte written at its own offset, every other byte as before. -/
theorem memRead_memWrite {m : Memory} (hm : memWf m = true) (a b : Nat) (v : Byte) :
    memRead (memWrite m a v) b = if b = a then v else memRead m b := by
  induction m with
  | nil =>
    by_cases hv : v = unlisted
    · simp [memWrite, memRead, hv]
    · simp [memWrite, memRead, hv, eq_comm]
  | cons c m ih =>
    obtain ⟨k, w⟩ := c
    obtain ⟨hlt, hw, hm'⟩ := memWf_cons.1 hm
    have below : ∀ x, x ≤ k → memRead m x = unlisted := fun x hx =>
      memRead_below fun d hd => lt_of_le_of_lt hx (hlt d hd)
    rcases lt_trichotomy a k with h | rfl | h
    · by_cases hb : b = a
      · subst hb
        by_cases hv : v = unlisted
        · subst hv; simp [memWrite, h, memRead, h.ne', below b h.le]
        · simp [memWrite, h, hv, memRead]
      · by_cases hv : v = unlisted
        · simp [memWrite, h, hv, hb]
        · simp [memWrite, h, hv, memRead, hb, Ne.symm hb]
    · by_cases hb : b = a
      · subst hb
        by_cases hv : v = unlisted
        · subst hv; simp [memWrite, below b le_rfl]
        · simp [memWrite, hv, memRead]
      · by_cases hv : v = unlisted
        · simp [memWrite, hv, memRead, hb, Ne.symm hb]
        · simp [memWrite, hv, memRead, hb, Ne.symm hb]
    · have h1 : ¬ a < k := by omega
      have h2 : a ≠ k := by omega
      by_cases hk : k = b
      · subst hk; simp [memWrite, h1, h2, memRead, Ne.symm h2]
      · simp [memWrite, h1, h2, memRead, hk, ih hm']

/-- A write lists no offset but those listed before and its own. -/
theorem mem_memWrite {m : Memory} {a : Nat} {v : Byte} {c : Host.Cell} (hc : c ∈ memWrite m a v) :
    c ∈ m ∨ c = (a, v) := by
  induction m with
  | nil =>
    rw [memWrite] at hc
    split_ifs at hc <;> simp_all
  | cons d m ih =>
    obtain ⟨k, w⟩ := d
    rw [memWrite] at hc
    split_ifs at hc
    · exact .inl hc
    · rcases List.mem_cons.1 hc with h | h
      · exact .inr h
      · exact .inl h
    · exact .inl (by simp [hc])
    · rcases List.mem_cons.1 hc with h | h
      · exact .inr h
      · exact .inl (by simp [h])
    · rcases List.mem_cons.1 hc with h | h
      · exact .inl (by simp [h])
      · exact (ih h).imp (by simp +contextual) id

/-- Every write keeps the canonical form. -/
theorem memWf_memWrite {m : Memory} (hm : memWf m = true) (a : Nat) (v : Byte) : memWf (memWrite m a v) = true := by
  induction m with
  | nil =>
    rw [memWrite]
    split_ifs with hv
    · rfl
    · exact memWf_cons.2 ⟨by simp, hv, rfl⟩
  | cons c m ih =>
    obtain ⟨k, w⟩ := c
    obtain ⟨hlt, hw, hm'⟩ := memWf_cons.1 hm
    rw [memWrite]
    split_ifs with h1 h2 h3 h4
    · exact hm
    · refine memWf_cons.2 ⟨fun d hd => ?_, h2, hm⟩
      rcases List.mem_cons.1 hd with rfl | hd
      · exact h1
      · exact h1.trans (hlt d hd)
    · exact hm'
    · subst h3
      exact memWf_cons.2 ⟨hlt, h4, hm'⟩
    · refine memWf_cons.2 ⟨fun d hd => ?_, hw, ih hm'⟩
      rcases mem_memWrite hd with hd | rfl
      · exact hlt d hd
      · show k < a
        omega

theorem memWf_memWriteBytes {m : Memory} (hm : memWf m = true) (a : Nat) (bs : Bytes) :
    memWf (memWriteBytes m a bs) = true := by
  induction bs generalizing m a with
  | nil => exact hm
  | cons b bs ih => exact ih (memWf_memWrite hm a b) (a + 1)

/-- Read after a write of a byte string. -/
theorem memRead_memWriteBytes {m : Memory} (hm : memWf m = true) (a x : Nat) (bs : Bytes) :
    memRead (memWriteBytes m a bs) x =
      if a ≤ x ∧ x < a + bs.length then bs.getD (x - a) unlisted else memRead m x := by
  induction bs generalizing m a with
  | nil => simp [memWriteBytes]
  | cons b bs ih =>
    rw [memWriteBytes, ih (memWf_memWrite hm a b), memRead_memWrite hm, List.length_cons]
    by_cases h : x = a
    · subst h; simp
    · by_cases h2 : a + 1 ≤ x ∧ x < a + 1 + bs.length
      · obtain ⟨d, rfl⟩ : ∃ d, x = a + 1 + d := ⟨x - (a + 1), by omega⟩
        rw [if_pos h2, if_pos (by omega), show a + 1 + d - a = d + 1 by omega, List.getD_cons_succ]
        congr 1; omega
      · rw [if_neg h2, if_neg h, if_neg (by omega)]

/-- A read outside the bytes written is as before. -/
theorem memRead_memWriteBytes_outside {m : Memory} (hm : memWf m = true) {a x : Nat} {bs : Bytes}
    (h : x < a ∨ a + bs.length ≤ x) : memRead (memWriteBytes m a bs) x = memRead m x := by
  rw [memRead_memWriteBytes hm, if_neg (by omega)]

@[simp] theorem length_memReadBytes (m : Memory) (a n : Nat) : (memReadBytes m a n).length = n := by
  simp [memReadBytes]

theorem memReadBytes_congr {m m' : Memory} {a n : Nat} (h : ∀ j, j < n → memRead m (a + j) = memRead m' (a + j)) :
    memReadBytes m a n = memReadBytes m' a n := by
  simp only [memReadBytes]
  exact List.map_congr_left fun j hj => h j (List.mem_range.1 hj)

/-- The bytes written read back; `L` of a longer write read back as its first `L`. -/
theorem memReadBytes_memWriteBytes {m : Memory} (hm : memWf m = true) (a : Nat) {bs : Bytes} {L : Nat}
    (h : L ≤ bs.length) : memReadBytes (memWriteBytes m a bs) a L = bs.take L := by
  refine List.ext_getElem (by simp [h]) fun j h1 h2 => ?_
  simp only [length_memReadBytes] at h1
  simp only [memReadBytes, List.getElem_map, List.getElem_range, List.getElem_take]
  rw [memRead_memWriteBytes hm, if_pos (by omega), Nat.add_sub_cancel_left, List.getD_eq_getElem _ _ (by omega)]

/-- Bytes apart from those written are as before. -/
theorem memReadBytes_memWriteBytes_apart {m : Memory} (hm : memWf m = true) {a b L : Nat} {bs : Bytes}
    (h : b + L ≤ a ∨ a + bs.length ≤ b) : memReadBytes (memWriteBytes m a bs) b L = memReadBytes m b L :=
  memReadBytes_congr fun j hj => memRead_memWriteBytes_outside hm (by omega)

end Sys2Proof.Machine
end

