-- ==== Sys2Proof/Laws/State.lean ====
section
/-! SUPPORT. One lemma per field and update of the state: what each update leaves and what it writes. -/

namespace Sys2Proof.Machine

open Sys2Proof

variable (s : State)

/-! `setBytes` changes the memory only. -/

@[simp] theorem State.setBytes_rfcRetry (x : Buf) (v : Bytes) : (s.setBytes x v).rfcRetry = s.rfcRetry := rfl
@[simp] theorem State.setBytes_hashAlg (x : Buf) (v : Bytes) : (s.setBytes x v).hashAlg = s.hashAlg := rfl
@[simp] theorem State.setBytes_opsz8 (x : Buf) (v : Bytes) : (s.setBytes x v).opsz8 = s.opsz8 := rfl
@[simp] theorem State.setBytes_diglen8 (x : Buf) (v : Bytes) : (s.setBytes x v).diglen8 = s.diglen8 := rfl
@[simp] theorem State.setBytes_busy (x : Buf) (v : Bytes) : (s.setBytes x v).busy = s.busy := rfl
@[simp] theorem State.setBytes_done (x : Buf) (v : Bytes) : (s.setBytes x v).done = s.done := rfl
@[simp] theorem State.setBytes_err (x : Buf) (v : Bytes) : (s.setBytes x v).err = s.err := rfl
@[simp] theorem State.setBytes_cmp (x : Buf) (v : Bytes) : (s.setBytes x v).cmp = s.cmp := rfl
@[simp] theorem State.setBytes_borrow (x : Buf) (v : Bytes) : (s.setBytes x v).borrow = s.borrow := rfl
@[simp] theorem State.setBytes_doneEn (x : Buf) (v : Bytes) : (s.setBytes x v).doneEn = s.doneEn := rfl
@[simp] theorem State.setBytes_werrEn (x : Buf) (v : Bytes) : (s.setBytes x v).werrEn = s.werrEn := rfl
@[simp] theorem State.setBytes_donePend (x : Buf) (v : Bytes) : (s.setBytes x v).donePend = s.donePend := rfl
@[simp] theorem State.setBytes_werrPend (x : Buf) (v : Bytes) : (s.setBytes x v).werrPend = s.werrPend := rfl
@[simp] theorem State.setBytes_maxAtt (x : Buf) (v : Bytes) : (s.setBytes x v).maxAtt = s.maxAtt := rfl
@[simp] theorem State.setBytes_attempts (x : Buf) (v : Bytes) : (s.setBytes x v).attempts = s.attempts := rfl
@[simp] theorem State.setBytes_faultInfo (x : Buf) (v : Bytes) : (s.setBytes x v).faultInfo = s.faultInfo := rfl
@[simp] theorem State.setBytes_aluImm (x : Buf) (v : Bytes) : (s.setBytes x v).aluImm = s.aluImm := rfl
@[simp] theorem State.setBytes_mem (x : Buf) (v : Bytes) : (s.setBytes x v).mem = memWriteBytes s.mem (bufBase x) v := rfl
@[simp] theorem State.setBytes_nonce (x : Buf) (v : Bytes) : (s.setBytes x v).nonce = s.nonce := rfl
@[simp] theorem State.setBytes_draws (x : Buf) (v : Bytes) : (s.setBytes x v).draws = s.draws := rfl
@[simp] theorem State.setBytes_handle (x : Buf) (v : Bytes) : (s.setBytes x v).handle = s.handle := rfl
@[simp] theorem State.setBytes_d2o (x : Buf) (v : Bytes) : (s.setBytes x v).d2o = s.d2o := rfl
@[simp] theorem State.setBytes_ctl (x : Buf) (v : Bytes) : (s.setBytes x v).ctl = s.ctl := rfl
@[simp] theorem State.setBytes_params (x : Buf) (v : Bytes) : (s.setBytes x v).params = s.params := rfl
@[simp] theorem State.setBytes_oracles (x : Buf) (v : Bytes) : (s.setBytes x v).oracles = s.oracles := rfl
@[simp] theorem State.setBytes_inputs (x : Buf) (v : Bytes) : (s.setBytes x v).inputs = s.inputs := rfl
@[simp] theorem State.setBytes_trace (x : Buf) (v : Bytes) : (s.setBytes x v).trace = s.trace := rfl
@[simp] theorem State.setBytes_resp (x : Buf) (v : Bytes) : (s.setBytes x v).resp = s.resp := rfl

/-! `fill` changes the memory only. -/

@[simp] theorem State.fill_rfcRetry (x : Buf) (v : Bytes) : (s.fill x v).rfcRetry = s.rfcRetry := rfl
@[simp] theorem State.fill_hashAlg (x : Buf) (v : Bytes) : (s.fill x v).hashAlg = s.hashAlg := rfl
@[simp] theorem State.fill_opsz8 (x : Buf) (v : Bytes) : (s.fill x v).opsz8 = s.opsz8 := rfl
@[simp] theorem State.fill_diglen8 (x : Buf) (v : Bytes) : (s.fill x v).diglen8 = s.diglen8 := rfl
@[simp] theorem State.fill_busy (x : Buf) (v : Bytes) : (s.fill x v).busy = s.busy := rfl
@[simp] theorem State.fill_done (x : Buf) (v : Bytes) : (s.fill x v).done = s.done := rfl
@[simp] theorem State.fill_err (x : Buf) (v : Bytes) : (s.fill x v).err = s.err := rfl
@[simp] theorem State.fill_cmp (x : Buf) (v : Bytes) : (s.fill x v).cmp = s.cmp := rfl
@[simp] theorem State.fill_borrow (x : Buf) (v : Bytes) : (s.fill x v).borrow = s.borrow := rfl
@[simp] theorem State.fill_doneEn (x : Buf) (v : Bytes) : (s.fill x v).doneEn = s.doneEn := rfl
@[simp] theorem State.fill_werrEn (x : Buf) (v : Bytes) : (s.fill x v).werrEn = s.werrEn := rfl
@[simp] theorem State.fill_donePend (x : Buf) (v : Bytes) : (s.fill x v).donePend = s.donePend := rfl
@[simp] theorem State.fill_werrPend (x : Buf) (v : Bytes) : (s.fill x v).werrPend = s.werrPend := rfl
@[simp] theorem State.fill_maxAtt (x : Buf) (v : Bytes) : (s.fill x v).maxAtt = s.maxAtt := rfl
@[simp] theorem State.fill_attempts (x : Buf) (v : Bytes) : (s.fill x v).attempts = s.attempts := rfl
@[simp] theorem State.fill_faultInfo (x : Buf) (v : Bytes) : (s.fill x v).faultInfo = s.faultInfo := rfl
@[simp] theorem State.fill_aluImm (x : Buf) (v : Bytes) : (s.fill x v).aluImm = s.aluImm := rfl
@[simp] theorem State.fill_mem (x : Buf) (v : Bytes) : (s.fill x v).mem = memWriteBytes s.mem (bufBase x) (v ++ zeros (s.bufcap - v.length)) := rfl
@[simp] theorem State.fill_nonce (x : Buf) (v : Bytes) : (s.fill x v).nonce = s.nonce := rfl
@[simp] theorem State.fill_draws (x : Buf) (v : Bytes) : (s.fill x v).draws = s.draws := rfl
@[simp] theorem State.fill_handle (x : Buf) (v : Bytes) : (s.fill x v).handle = s.handle := rfl
@[simp] theorem State.fill_d2o (x : Buf) (v : Bytes) : (s.fill x v).d2o = s.d2o := rfl
@[simp] theorem State.fill_ctl (x : Buf) (v : Bytes) : (s.fill x v).ctl = s.ctl := rfl
@[simp] theorem State.fill_params (x : Buf) (v : Bytes) : (s.fill x v).params = s.params := rfl
@[simp] theorem State.fill_oracles (x : Buf) (v : Bytes) : (s.fill x v).oracles = s.oracles := rfl
@[simp] theorem State.fill_inputs (x : Buf) (v : Bytes) : (s.fill x v).inputs = s.inputs := rfl
@[simp] theorem State.fill_trace (x : Buf) (v : Bytes) : (s.fill x v).trace = s.trace := rfl
@[simp] theorem State.fill_resp (x : Buf) (v : Bytes) : (s.fill x v).resp = s.resp := rfl

/-! `wipe` changes the memory only. -/

@[simp] theorem State.wipe_rfcRetry (x : Buf) : (s.wipe x).rfcRetry = s.rfcRetry := rfl
@[simp] theorem State.wipe_hashAlg (x : Buf) : (s.wipe x).hashAlg = s.hashAlg := rfl
@[simp] theorem State.wipe_opsz8 (x : Buf) : (s.wipe x).opsz8 = s.opsz8 := rfl
@[simp] theorem State.wipe_diglen8 (x : Buf) : (s.wipe x).diglen8 = s.diglen8 := rfl
@[simp] theorem State.wipe_busy (x : Buf) : (s.wipe x).busy = s.busy := rfl
@[simp] theorem State.wipe_done (x : Buf) : (s.wipe x).done = s.done := rfl
@[simp] theorem State.wipe_err (x : Buf) : (s.wipe x).err = s.err := rfl
@[simp] theorem State.wipe_cmp (x : Buf) : (s.wipe x).cmp = s.cmp := rfl
@[simp] theorem State.wipe_borrow (x : Buf) : (s.wipe x).borrow = s.borrow := rfl
@[simp] theorem State.wipe_doneEn (x : Buf) : (s.wipe x).doneEn = s.doneEn := rfl
@[simp] theorem State.wipe_werrEn (x : Buf) : (s.wipe x).werrEn = s.werrEn := rfl
@[simp] theorem State.wipe_donePend (x : Buf) : (s.wipe x).donePend = s.donePend := rfl
@[simp] theorem State.wipe_werrPend (x : Buf) : (s.wipe x).werrPend = s.werrPend := rfl
@[simp] theorem State.wipe_maxAtt (x : Buf) : (s.wipe x).maxAtt = s.maxAtt := rfl
@[simp] theorem State.wipe_attempts (x : Buf) : (s.wipe x).attempts = s.attempts := rfl
@[simp] theorem State.wipe_faultInfo (x : Buf) : (s.wipe x).faultInfo = s.faultInfo := rfl
@[simp] theorem State.wipe_aluImm (x : Buf) : (s.wipe x).aluImm = s.aluImm := rfl
@[simp] theorem State.wipe_mem (x : Buf) : (s.wipe x).mem = memWriteBytes s.mem (bufBase x) (zeros s.bufcap) := rfl
@[simp] theorem State.wipe_nonce (x : Buf) : (s.wipe x).nonce = s.nonce := rfl
@[simp] theorem State.wipe_draws (x : Buf) : (s.wipe x).draws = s.draws := rfl
@[simp] theorem State.wipe_handle (x : Buf) : (s.wipe x).handle = s.handle := rfl
@[simp] theorem State.wipe_d2o (x : Buf) : (s.wipe x).d2o = s.d2o := rfl
@[simp] theorem State.wipe_ctl (x : Buf) : (s.wipe x).ctl = s.ctl := rfl
@[simp] theorem State.wipe_params (x : Buf) : (s.wipe x).params = s.params := rfl
@[simp] theorem State.wipe_oracles (x : Buf) : (s.wipe x).oracles = s.oracles := rfl
@[simp] theorem State.wipe_inputs (x : Buf) : (s.wipe x).inputs = s.inputs := rfl
@[simp] theorem State.wipe_trace (x : Buf) : (s.wipe x).trace = s.trace := rfl
@[simp] theorem State.wipe_resp (x : Buf) : (s.wipe x).resp = s.resp := rfl

/-! `goto` changes the control point only. -/

@[simp] theorem State.goto_rfcRetry (i : Instr) (p : Point) : (s.goto i p).rfcRetry = s.rfcRetry := rfl
@[simp] theorem State.goto_hashAlg (i : Instr) (p : Point) : (s.goto i p).hashAlg = s.hashAlg := rfl
@[simp] theorem State.goto_opsz8 (i : Instr) (p : Point) : (s.goto i p).opsz8 = s.opsz8 := rfl
@[simp] theorem State.goto_diglen8 (i : Instr) (p : Point) : (s.goto i p).diglen8 = s.diglen8 := rfl
@[simp] theorem State.goto_busy (i : Instr) (p : Point) : (s.goto i p).busy = s.busy := rfl
@[simp] theorem State.goto_done (i : Instr) (p : Point) : (s.goto i p).done = s.done := rfl
@[simp] theorem State.goto_err (i : Instr) (p : Point) : (s.goto i p).err = s.err := rfl
@[simp] theorem State.goto_cmp (i : Instr) (p : Point) : (s.goto i p).cmp = s.cmp := rfl
@[simp] theorem State.goto_borrow (i : Instr) (p : Point) : (s.goto i p).borrow = s.borrow := rfl
@[simp] theorem State.goto_doneEn (i : Instr) (p : Point) : (s.goto i p).doneEn = s.doneEn := rfl
@[simp] theorem State.goto_werrEn (i : Instr) (p : Point) : (s.goto i p).werrEn = s.werrEn := rfl
@[simp] theorem State.goto_donePend (i : Instr) (p : Point) : (s.goto i p).donePend = s.donePend := rfl
@[simp] theorem State.goto_werrPend (i : Instr) (p : Point) : (s.goto i p).werrPend = s.werrPend := rfl
@[simp] theorem State.goto_maxAtt (i : Instr) (p : Point) : (s.goto i p).maxAtt = s.maxAtt := rfl
@[simp] theorem State.goto_attempts (i : Instr) (p : Point) : (s.goto i p).attempts = s.attempts := rfl
@[simp] theorem State.goto_faultInfo (i : Instr) (p : Point) : (s.goto i p).faultInfo = s.faultInfo := rfl
@[simp] theorem State.goto_aluImm (i : Instr) (p : Point) : (s.goto i p).aluImm = s.aluImm := rfl
@[simp] theorem State.goto_mem (i : Instr) (p : Point) : (s.goto i p).mem = s.mem := rfl
@[simp] theorem State.goto_nonce (i : Instr) (p : Point) : (s.goto i p).nonce = s.nonce := rfl
@[simp] theorem State.goto_draws (i : Instr) (p : Point) : (s.goto i p).draws = s.draws := rfl
@[simp] theorem State.goto_handle (i : Instr) (p : Point) : (s.goto i p).handle = s.handle := rfl
@[simp] theorem State.goto_d2o (i : Instr) (p : Point) : (s.goto i p).d2o = s.d2o := rfl
@[simp] theorem State.goto_ctl (i : Instr) (p : Point) : (s.goto i p).ctl = .running i p := rfl
@[simp] theorem State.goto_params (i : Instr) (p : Point) : (s.goto i p).params = s.params := rfl
@[simp] theorem State.goto_oracles (i : Instr) (p : Point) : (s.goto i p).oracles = s.oracles := rfl
@[simp] theorem State.goto_inputs (i : Instr) (p : Point) : (s.goto i p).inputs = s.inputs := rfl
@[simp] theorem State.goto_trace (i : Instr) (p : Point) : (s.goto i p).trace = s.trace := rfl
@[simp] theorem State.goto_resp (i : Instr) (p : Point) : (s.goto i p).resp = s.resp := rfl

/-! `close` writes STATUS, INTSTAT.DONE and the control point. -/

@[simp] theorem State.close_rfcRetry (e : ErrCode) : (s.close e).rfcRetry = s.rfcRetry := rfl
@[simp] theorem State.close_hashAlg (e : ErrCode) : (s.close e).hashAlg = s.hashAlg := rfl
@[simp] theorem State.close_opsz8 (e : ErrCode) : (s.close e).opsz8 = s.opsz8 := rfl
@[simp] theorem State.close_diglen8 (e : ErrCode) : (s.close e).diglen8 = s.diglen8 := rfl
@[simp] theorem State.close_busy (e : ErrCode) : (s.close e).busy = false := rfl
@[simp] theorem State.close_done (e : ErrCode) : (s.close e).done = true := rfl
@[simp] theorem State.close_err (e : ErrCode) : (s.close e).err = e := rfl
@[simp] theorem State.close_cmp (e : ErrCode) : (s.close e).cmp = s.cmp := rfl
@[simp] theorem State.close_borrow (e : ErrCode) : (s.close e).borrow = s.borrow := rfl
@[simp] theorem State.close_doneEn (e : ErrCode) : (s.close e).doneEn = s.doneEn := rfl
@[simp] theorem State.close_werrEn (e : ErrCode) : (s.close e).werrEn = s.werrEn := rfl
@[simp] theorem State.close_donePend (e : ErrCode) : (s.close e).donePend = true := rfl
@[simp] theorem State.close_werrPend (e : ErrCode) : (s.close e).werrPend = s.werrPend := rfl
@[simp] theorem State.close_maxAtt (e : ErrCode) : (s.close e).maxAtt = s.maxAtt := rfl
@[simp] theorem State.close_attempts (e : ErrCode) : (s.close e).attempts = s.attempts := rfl
@[simp] theorem State.close_faultInfo (e : ErrCode) : (s.close e).faultInfo = s.faultInfo := rfl
@[simp] theorem State.close_aluImm (e : ErrCode) : (s.close e).aluImm = s.aluImm := rfl
@[simp] theorem State.close_mem (e : ErrCode) : (s.close e).mem = s.mem := rfl
@[simp] theorem State.close_nonce (e : ErrCode) : (s.close e).nonce = s.nonce := rfl
@[simp] theorem State.close_draws (e : ErrCode) : (s.close e).draws = s.draws := rfl
@[simp] theorem State.close_handle (e : ErrCode) : (s.close e).handle = s.handle := rfl
@[simp] theorem State.close_d2o (e : ErrCode) : (s.close e).d2o = s.d2o := rfl
@[simp] theorem State.close_ctl (e : ErrCode) : (s.close e).ctl = .idle := rfl
@[simp] theorem State.close_params (e : ErrCode) : (s.close e).params = s.params := rfl
@[simp] theorem State.close_oracles (e : ErrCode) : (s.close e).oracles = s.oracles := rfl
@[simp] theorem State.close_inputs (e : ErrCode) : (s.close e).inputs = s.inputs := rfl
@[simp] theorem State.close_trace (e : ErrCode) : (s.close e).trace = s.trace := rfl
@[simp] theorem State.close_resp (e : ErrCode) : (s.close e).resp = s.resp := rfl

/-! `accept` writes STATUS, FAULTINFO, ATTEMPTS and the control point. -/

@[simp] theorem State.accept_rfcRetry (w : Word) : (s.accept w).rfcRetry = s.rfcRetry := rfl
@[simp] theorem State.accept_hashAlg (w : Word) : (s.accept w).hashAlg = s.hashAlg := rfl
@[simp] theorem State.accept_opsz8 (w : Word) : (s.accept w).opsz8 = s.opsz8 := rfl
@[simp] theorem State.accept_diglen8 (w : Word) : (s.accept w).diglen8 = s.diglen8 := rfl
@[simp] theorem State.accept_busy (w : Word) : (s.accept w).busy = true := rfl
@[simp] theorem State.accept_done (w : Word) : (s.accept w).done = false := rfl
@[simp] theorem State.accept_err (w : Word) : (s.accept w).err = .none := rfl
@[simp] theorem State.accept_cmp (w : Word) : (s.accept w).cmp = s.cmp := rfl
@[simp] theorem State.accept_borrow (w : Word) : (s.accept w).borrow = s.borrow := rfl
@[simp] theorem State.accept_doneEn (w : Word) : (s.accept w).doneEn = s.doneEn := rfl
@[simp] theorem State.accept_werrEn (w : Word) : (s.accept w).werrEn = s.werrEn := rfl
@[simp] theorem State.accept_donePend (w : Word) : (s.accept w).donePend = s.donePend := rfl
@[simp] theorem State.accept_werrPend (w : Word) : (s.accept w).werrPend = s.werrPend := rfl
@[simp] theorem State.accept_maxAtt (w : Word) : (s.accept w).maxAtt = s.maxAtt := rfl
@[simp] theorem State.accept_attempts (w : Word) : (s.accept w).attempts = if isSignWord w then 0 else s.attempts := rfl
@[simp] theorem State.accept_faultInfo (w : Word) : (s.accept w).faultInfo = .none := rfl
@[simp] theorem State.accept_aluImm (w : Word) : (s.accept w).aluImm = s.aluImm := rfl
@[simp] theorem State.accept_mem (w : Word) : (s.accept w).mem = s.mem := rfl
@[simp] theorem State.accept_nonce (w : Word) : (s.accept w).nonce = s.nonce := rfl
@[simp] theorem State.accept_draws (w : Word) : (s.accept w).draws = s.draws := rfl
@[simp] theorem State.accept_handle (w : Word) : (s.accept w).handle = s.handle := rfl
@[simp] theorem State.accept_d2o (w : Word) : (s.accept w).d2o = s.d2o := rfl
@[simp] theorem State.accept_ctl (w : Word) : (s.accept w).ctl = startOf w := rfl
@[simp] theorem State.accept_params (w : Word) : (s.accept w).params = s.params := rfl
@[simp] theorem State.accept_oracles (w : Word) : (s.accept w).oracles = s.oracles := rfl
@[simp] theorem State.accept_inputs (w : Word) : (s.accept w).inputs = s.inputs := rfl
@[simp] theorem State.accept_trace (w : Word) : (s.accept w).trace = s.trace := rfl
@[simp] theorem State.accept_resp (w : Word) : (s.accept w).resp = s.resp := rfl

/-! `respond` changes the port's answer only. -/

@[simp] theorem State.respond_rfcRetry (e : Bool) (d : Word) : (s.respond e d).rfcRetry = s.rfcRetry := rfl
@[simp] theorem State.respond_hashAlg (e : Bool) (d : Word) : (s.respond e d).hashAlg = s.hashAlg := rfl
@[simp] theorem State.respond_opsz8 (e : Bool) (d : Word) : (s.respond e d).opsz8 = s.opsz8 := rfl
@[simp] theorem State.respond_diglen8 (e : Bool) (d : Word) : (s.respond e d).diglen8 = s.diglen8 := rfl
@[simp] theorem State.respond_busy (e : Bool) (d : Word) : (s.respond e d).busy = s.busy := rfl
@[simp] theorem State.respond_done (e : Bool) (d : Word) : (s.respond e d).done = s.done := rfl
@[simp] theorem State.respond_err (e : Bool) (d : Word) : (s.respond e d).err = s.err := rfl
@[simp] theorem State.respond_cmp (e : Bool) (d : Word) : (s.respond e d).cmp = s.cmp := rfl
@[simp] theorem State.respond_borrow (e : Bool) (d : Word) : (s.respond e d).borrow = s.borrow := rfl
@[simp] theorem State.respond_doneEn (e : Bool) (d : Word) : (s.respond e d).doneEn = s.doneEn := rfl
@[simp] theorem State.respond_werrEn (e : Bool) (d : Word) : (s.respond e d).werrEn = s.werrEn := rfl
@[simp] theorem State.respond_donePend (e : Bool) (d : Word) : (s.respond e d).donePend = s.donePend := rfl
@[simp] theorem State.respond_werrPend (e : Bool) (d : Word) : (s.respond e d).werrPend = s.werrPend := rfl
@[simp] theorem State.respond_maxAtt (e : Bool) (d : Word) : (s.respond e d).maxAtt = s.maxAtt := rfl
@[simp] theorem State.respond_attempts (e : Bool) (d : Word) : (s.respond e d).attempts = s.attempts := rfl
@[simp] theorem State.respond_faultInfo (e : Bool) (d : Word) : (s.respond e d).faultInfo = s.faultInfo := rfl
@[simp] theorem State.respond_aluImm (e : Bool) (d : Word) : (s.respond e d).aluImm = s.aluImm := rfl
@[simp] theorem State.respond_mem (e : Bool) (d : Word) : (s.respond e d).mem = s.mem := rfl
@[simp] theorem State.respond_nonce (e : Bool) (d : Word) : (s.respond e d).nonce = s.nonce := rfl
@[simp] theorem State.respond_draws (e : Bool) (d : Word) : (s.respond e d).draws = s.draws := rfl
@[simp] theorem State.respond_handle (e : Bool) (d : Word) : (s.respond e d).handle = s.handle := rfl
@[simp] theorem State.respond_d2o (e : Bool) (d : Word) : (s.respond e d).d2o = s.d2o := rfl
@[simp] theorem State.respond_ctl (e : Bool) (d : Word) : (s.respond e d).ctl = s.ctl := rfl
@[simp] theorem State.respond_params (e : Bool) (d : Word) : (s.respond e d).params = s.params := rfl
@[simp] theorem State.respond_oracles (e : Bool) (d : Word) : (s.respond e d).oracles = s.oracles := rfl
@[simp] theorem State.respond_inputs (e : Bool) (d : Word) : (s.respond e d).inputs = s.inputs := rfl
@[simp] theorem State.respond_trace (e : Bool) (d : Word) : (s.respond e d).trace = s.trace := rfl
@[simp] theorem State.respond_resp (e : Bool) (d : Word) : (s.respond e d).resp = ⟨e, d⟩ := rfl

/-! `putT` changes T only. -/

@[simp] theorem State.putT_rfcRetry (c : Bytes) : (s.putT c).rfcRetry = s.rfcRetry := rfl
@[simp] theorem State.putT_hashAlg (c : Bytes) : (s.putT c).hashAlg = s.hashAlg := rfl
@[simp] theorem State.putT_opsz8 (c : Bytes) : (s.putT c).opsz8 = s.opsz8 := rfl
@[simp] theorem State.putT_diglen8 (c : Bytes) : (s.putT c).diglen8 = s.diglen8 := rfl
@[simp] theorem State.putT_busy (c : Bytes) : (s.putT c).busy = s.busy := rfl
@[simp] theorem State.putT_done (c : Bytes) : (s.putT c).done = s.done := rfl
@[simp] theorem State.putT_err (c : Bytes) : (s.putT c).err = s.err := rfl
@[simp] theorem State.putT_cmp (c : Bytes) : (s.putT c).cmp = s.cmp := rfl
@[simp] theorem State.putT_borrow (c : Bytes) : (s.putT c).borrow = s.borrow := rfl
@[simp] theorem State.putT_doneEn (c : Bytes) : (s.putT c).doneEn = s.doneEn := rfl
@[simp] theorem State.putT_werrEn (c : Bytes) : (s.putT c).werrEn = s.werrEn := rfl
@[simp] theorem State.putT_donePend (c : Bytes) : (s.putT c).donePend = s.donePend := rfl
@[simp] theorem State.putT_werrPend (c : Bytes) : (s.putT c).werrPend = s.werrPend := rfl
@[simp] theorem State.putT_maxAtt (c : Bytes) : (s.putT c).maxAtt = s.maxAtt := rfl
@[simp] theorem State.putT_attempts (c : Bytes) : (s.putT c).attempts = s.attempts := rfl
@[simp] theorem State.putT_faultInfo (c : Bytes) : (s.putT c).faultInfo = s.faultInfo := rfl
@[simp] theorem State.putT_aluImm (c : Bytes) : (s.putT c).aluImm = s.aluImm := rfl
@[simp] theorem State.putT_mem (c : Bytes) : (s.putT c).mem = s.mem := rfl
@[simp] theorem State.putT_nonce (c : Bytes) : (s.putT c).nonce = { s.nonce with t := splice s.nonce.t 0 c } := rfl
@[simp] theorem State.putT_draws (c : Bytes) : (s.putT c).draws = s.draws := rfl
@[simp] theorem State.putT_handle (c : Bytes) : (s.putT c).handle = s.handle := rfl
@[simp] theorem State.putT_d2o (c : Bytes) : (s.putT c).d2o = s.d2o := rfl
@[simp] theorem State.putT_ctl (c : Bytes) : (s.putT c).ctl = s.ctl := rfl
@[simp] theorem State.putT_params (c : Bytes) : (s.putT c).params = s.params := rfl
@[simp] theorem State.putT_oracles (c : Bytes) : (s.putT c).oracles = s.oracles := rfl
@[simp] theorem State.putT_inputs (c : Bytes) : (s.putT c).inputs = s.inputs := rfl
@[simp] theorem State.putT_trace (c : Bytes) : (s.putT c).trace = s.trace := rfl
@[simp] theorem State.putT_resp (c : Bytes) : (s.putT c).resp = s.resp := rfl

/-! `putK` changes K and STEP only. -/

@[simp] theorem State.putK_rfcRetry (st : RfcStep) (k : Bytes) : (s.putK st k).rfcRetry = s.rfcRetry := rfl
@[simp] theorem State.putK_hashAlg (st : RfcStep) (k : Bytes) : (s.putK st k).hashAlg = s.hashAlg := rfl
@[simp] theorem State.putK_opsz8 (st : RfcStep) (k : Bytes) : (s.putK st k).opsz8 = s.opsz8 := rfl
@[simp] theorem State.putK_diglen8 (st : RfcStep) (k : Bytes) : (s.putK st k).diglen8 = s.diglen8 := rfl
@[simp] theorem State.putK_busy (st : RfcStep) (k : Bytes) : (s.putK st k).busy = s.busy := rfl
@[simp] theorem State.putK_done (st : RfcStep) (k : Bytes) : (s.putK st k).done = s.done := rfl
@[simp] theorem State.putK_err (st : RfcStep) (k : Bytes) : (s.putK st k).err = s.err := rfl
@[simp] theorem State.putK_cmp (st : RfcStep) (k : Bytes) : (s.putK st k).cmp = s.cmp := rfl
@[simp] theorem State.putK_borrow (st : RfcStep) (k : Bytes) : (s.putK st k).borrow = s.borrow := rfl
@[simp] theorem State.putK_doneEn (st : RfcStep) (k : Bytes) : (s.putK st k).doneEn = s.doneEn := rfl
@[simp] theorem State.putK_werrEn (st : RfcStep) (k : Bytes) : (s.putK st k).werrEn = s.werrEn := rfl
@[simp] theorem State.putK_donePend (st : RfcStep) (k : Bytes) : (s.putK st k).donePend = s.donePend := rfl
@[simp] theorem State.putK_werrPend (st : RfcStep) (k : Bytes) : (s.putK st k).werrPend = s.werrPend := rfl
@[simp] theorem State.putK_maxAtt (st : RfcStep) (k : Bytes) : (s.putK st k).maxAtt = s.maxAtt := rfl
@[simp] theorem State.putK_attempts (st : RfcStep) (k : Bytes) : (s.putK st k).attempts = s.attempts := rfl
@[simp] theorem State.putK_faultInfo (st : RfcStep) (k : Bytes) : (s.putK st k).faultInfo = s.faultInfo := rfl
@[simp] theorem State.putK_aluImm (st : RfcStep) (k : Bytes) : (s.putK st k).aluImm = s.aluImm := rfl
@[simp] theorem State.putK_mem (st : RfcStep) (k : Bytes) : (s.putK st k).mem = s.mem := rfl
@[simp] theorem State.putK_nonce (st : RfcStep) (k : Bytes) : (s.putK st k).nonce = { s.nonce with k := splice s.nonce.k 0 k, step := st } := rfl
@[simp] theorem State.putK_draws (st : RfcStep) (k : Bytes) : (s.putK st k).draws = s.draws := rfl
@[simp] theorem State.putK_handle (st : RfcStep) (k : Bytes) : (s.putK st k).handle = s.handle := rfl
@[simp] theorem State.putK_d2o (st : RfcStep) (k : Bytes) : (s.putK st k).d2o = s.d2o := rfl
@[simp] theorem State.putK_ctl (st : RfcStep) (k : Bytes) : (s.putK st k).ctl = s.ctl := rfl
@[simp] theorem State.putK_params (st : RfcStep) (k : Bytes) : (s.putK st k).params = s.params := rfl
@[simp] theorem State.putK_oracles (st : RfcStep) (k : Bytes) : (s.putK st k).oracles = s.oracles := rfl
@[simp] theorem State.putK_inputs (st : RfcStep) (k : Bytes) : (s.putK st k).inputs = s.inputs := rfl
@[simp] theorem State.putK_trace (st : RfcStep) (k : Bytes) : (s.putK st k).trace = s.trace := rfl
@[simp] theorem State.putK_resp (st : RfcStep) (k : Bytes) : (s.putK st k).resp = s.resp := rfl

/-! `putV` changes V and STEP only. -/

@[simp] theorem State.putV_rfcRetry (st : RfcStep) (v : Bytes) : (s.putV st v).rfcRetry = s.rfcRetry := rfl
@[simp] theorem State.putV_hashAlg (st : RfcStep) (v : Bytes) : (s.putV st v).hashAlg = s.hashAlg := rfl
@[simp] theorem State.putV_opsz8 (st : RfcStep) (v : Bytes) : (s.putV st v).opsz8 = s.opsz8 := rfl
@[simp] theorem State.putV_diglen8 (st : RfcStep) (v : Bytes) : (s.putV st v).diglen8 = s.diglen8 := rfl
@[simp] theorem State.putV_busy (st : RfcStep) (v : Bytes) : (s.putV st v).busy = s.busy := rfl
@[simp] theorem State.putV_done (st : RfcStep) (v : Bytes) : (s.putV st v).done = s.done := rfl
@[simp] theorem State.putV_err (st : RfcStep) (v : Bytes) : (s.putV st v).err = s.err := rfl
@[simp] theorem State.putV_cmp (st : RfcStep) (v : Bytes) : (s.putV st v).cmp = s.cmp := rfl
@[simp] theorem State.putV_borrow (st : RfcStep) (v : Bytes) : (s.putV st v).borrow = s.borrow := rfl
@[simp] theorem State.putV_doneEn (st : RfcStep) (v : Bytes) : (s.putV st v).doneEn = s.doneEn := rfl
@[simp] theorem State.putV_werrEn (st : RfcStep) (v : Bytes) : (s.putV st v).werrEn = s.werrEn := rfl
@[simp] theorem State.putV_donePend (st : RfcStep) (v : Bytes) : (s.putV st v).donePend = s.donePend := rfl
@[simp] theorem State.putV_werrPend (st : RfcStep) (v : Bytes) : (s.putV st v).werrPend = s.werrPend := rfl
@[simp] theorem State.putV_maxAtt (st : RfcStep) (v : Bytes) : (s.putV st v).maxAtt = s.maxAtt := rfl
@[simp] theorem State.putV_attempts (st : RfcStep) (v : Bytes) : (s.putV st v).attempts = s.attempts := rfl
@[simp] theorem State.putV_faultInfo (st : RfcStep) (v : Bytes) : (s.putV st v).faultInfo = s.faultInfo := rfl
@[simp] theorem State.putV_aluImm (st : RfcStep) (v : Bytes) : (s.putV st v).aluImm = s.aluImm := rfl
@[simp] theorem State.putV_mem (st : RfcStep) (v : Bytes) : (s.putV st v).mem = s.mem := rfl
@[simp] theorem State.putV_nonce (st : RfcStep) (v : Bytes) : (s.putV st v).nonce = { s.nonce with v := splice s.nonce.v 0 v, step := st } := rfl
@[simp] theorem State.putV_draws (st : RfcStep) (v : Bytes) : (s.putV st v).draws = s.draws := rfl
@[simp] theorem State.putV_handle (st : RfcStep) (v : Bytes) : (s.putV st v).handle = s.handle := rfl
@[simp] theorem State.putV_d2o (st : RfcStep) (v : Bytes) : (s.putV st v).d2o = s.d2o := rfl
@[simp] theorem State.putV_ctl (st : RfcStep) (v : Bytes) : (s.putV st v).ctl = s.ctl := rfl
@[simp] theorem State.putV_params (st : RfcStep) (v : Bytes) : (s.putV st v).params = s.params := rfl
@[simp] theorem State.putV_oracles (st : RfcStep) (v : Bytes) : (s.putV st v).oracles = s.oracles := rfl
@[simp] theorem State.putV_inputs (st : RfcStep) (v : Bytes) : (s.putV st v).inputs = s.inputs := rfl
@[simp] theorem State.putV_trace (st : RfcStep) (v : Bytes) : (s.putV st v).trace = s.trace := rfl
@[simp] theorem State.putV_resp (st : RfcStep) (v : Bytes) : (s.putV st v).resp = s.resp := rfl

/-! `emptyT` changes T and TLEN only. -/

@[simp] theorem State.emptyT_rfcRetry : (s.emptyT).rfcRetry = s.rfcRetry := rfl
@[simp] theorem State.emptyT_hashAlg : (s.emptyT).hashAlg = s.hashAlg := rfl
@[simp] theorem State.emptyT_opsz8 : (s.emptyT).opsz8 = s.opsz8 := rfl
@[simp] theorem State.emptyT_diglen8 : (s.emptyT).diglen8 = s.diglen8 := rfl
@[simp] theorem State.emptyT_busy : (s.emptyT).busy = s.busy := rfl
@[simp] theorem State.emptyT_done : (s.emptyT).done = s.done := rfl
@[simp] theorem State.emptyT_err : (s.emptyT).err = s.err := rfl
@[simp] theorem State.emptyT_cmp : (s.emptyT).cmp = s.cmp := rfl
@[simp] theorem State.emptyT_borrow : (s.emptyT).borrow = s.borrow := rfl
@[simp] theorem State.emptyT_doneEn : (s.emptyT).doneEn = s.doneEn := rfl
@[simp] theorem State.emptyT_werrEn : (s.emptyT).werrEn = s.werrEn := rfl
@[simp] theorem State.emptyT_donePend : (s.emptyT).donePend = s.donePend := rfl
@[simp] theorem State.emptyT_werrPend : (s.emptyT).werrPend = s.werrPend := rfl
@[simp] theorem State.emptyT_maxAtt : (s.emptyT).maxAtt = s.maxAtt := rfl
@[simp] theorem State.emptyT_attempts : (s.emptyT).attempts = s.attempts := rfl
@[simp] theorem State.emptyT_faultInfo : (s.emptyT).faultInfo = s.faultInfo := rfl
@[simp] theorem State.emptyT_aluImm : (s.emptyT).aluImm = s.aluImm := rfl
@[simp] theorem State.emptyT_mem : (s.emptyT).mem = s.mem := rfl
@[simp] theorem State.emptyT_nonce : (s.emptyT).nonce = { s.nonce with t := zeros s.bufcap, tlen := 0 } := rfl
@[simp] theorem State.emptyT_draws : (s.emptyT).draws = s.draws := rfl
@[simp] theorem State.emptyT_handle : (s.emptyT).handle = s.handle := rfl
@[simp] theorem State.emptyT_d2o : (s.emptyT).d2o = s.d2o := rfl
@[simp] theorem State.emptyT_ctl : (s.emptyT).ctl = s.ctl := rfl
@[simp] theorem State.emptyT_params : (s.emptyT).params = s.params := rfl
@[simp] theorem State.emptyT_oracles : (s.emptyT).oracles = s.oracles := rfl
@[simp] theorem State.emptyT_inputs : (s.emptyT).inputs = s.inputs := rfl
@[simp] theorem State.emptyT_trace : (s.emptyT).trace = s.trace := rfl
@[simp] theorem State.emptyT_resp : (s.emptyT).resp = s.resp := rfl

/-! `putD2o` changes D2O only. -/

@[simp] theorem State.putD2o_rfcRetry : (s.putD2o).rfcRetry = s.rfcRetry := rfl
@[simp] theorem State.putD2o_hashAlg : (s.putD2o).hashAlg = s.hashAlg := rfl
@[simp] theorem State.putD2o_opsz8 : (s.putD2o).opsz8 = s.opsz8 := rfl
@[simp] theorem State.putD2o_diglen8 : (s.putD2o).diglen8 = s.diglen8 := rfl
@[simp] theorem State.putD2o_busy : (s.putD2o).busy = s.busy := rfl
@[simp] theorem State.putD2o_done : (s.putD2o).done = s.done := rfl
@[simp] theorem State.putD2o_err : (s.putD2o).err = s.err := rfl
@[simp] theorem State.putD2o_cmp : (s.putD2o).cmp = s.cmp := rfl
@[simp] theorem State.putD2o_borrow : (s.putD2o).borrow = s.borrow := rfl
@[simp] theorem State.putD2o_doneEn : (s.putD2o).doneEn = s.doneEn := rfl
@[simp] theorem State.putD2o_werrEn : (s.putD2o).werrEn = s.werrEn := rfl
@[simp] theorem State.putD2o_donePend : (s.putD2o).donePend = s.donePend := rfl
@[simp] theorem State.putD2o_werrPend : (s.putD2o).werrPend = s.werrPend := rfl
@[simp] theorem State.putD2o_maxAtt : (s.putD2o).maxAtt = s.maxAtt := rfl
@[simp] theorem State.putD2o_attempts : (s.putD2o).attempts = s.attempts := rfl
@[simp] theorem State.putD2o_faultInfo : (s.putD2o).faultInfo = s.faultInfo := rfl
@[simp] theorem State.putD2o_aluImm : (s.putD2o).aluImm = s.aluImm := rfl
@[simp] theorem State.putD2o_mem : (s.putD2o).mem = s.mem := rfl
@[simp] theorem State.putD2o_nonce : (s.putD2o).nonce = s.nonce := rfl
@[simp] theorem State.putD2o_draws : (s.putD2o).draws = s.draws := rfl
@[simp] theorem State.putD2o_handle : (s.putD2o).handle = s.handle := rfl
@[simp] theorem State.putD2o_d2o : (s.putD2o).d2o = splice s.d2o 0 (digest2op s.params.d2opSelect s.digest s.opsz) := rfl
@[simp] theorem State.putD2o_ctl : (s.putD2o).ctl = s.ctl := rfl
@[simp] theorem State.putD2o_params : (s.putD2o).params = s.params := rfl
@[simp] theorem State.putD2o_oracles : (s.putD2o).oracles = s.oracles := rfl
@[simp] theorem State.putD2o_inputs : (s.putD2o).inputs = s.inputs := rfl
@[simp] theorem State.putD2o_trace : (s.putD2o).trace = s.trace := rfl
@[simp] theorem State.putD2o_resp : (s.putD2o).resp = s.resp := rfl

/-! `zeroizeSession` changes the memory and the hidden state only. -/

@[simp] theorem State.zeroizeSession_rfcRetry : s.zeroizeSession.rfcRetry = s.rfcRetry := by simp [State.zeroizeSession]
@[simp] theorem State.zeroizeSession_hashAlg : s.zeroizeSession.hashAlg = s.hashAlg := by simp [State.zeroizeSession]
@[simp] theorem State.zeroizeSession_opsz8 : s.zeroizeSession.opsz8 = s.opsz8 := by simp [State.zeroizeSession]
@[simp] theorem State.zeroizeSession_diglen8 : s.zeroizeSession.diglen8 = s.diglen8 := by simp [State.zeroizeSession]
@[simp] theorem State.zeroizeSession_busy : s.zeroizeSession.busy = s.busy := by simp [State.zeroizeSession]
@[simp] theorem State.zeroizeSession_done : s.zeroizeSession.done = s.done := by simp [State.zeroizeSession]
@[simp] theorem State.zeroizeSession_err : s.zeroizeSession.err = s.err := by simp [State.zeroizeSession]
@[simp] theorem State.zeroizeSession_cmp : s.zeroizeSession.cmp = s.cmp := by simp [State.zeroizeSession]
@[simp] theorem State.zeroizeSession_borrow : s.zeroizeSession.borrow = s.borrow := by simp [State.zeroizeSession]
@[simp] theorem State.zeroizeSession_doneEn : s.zeroizeSession.doneEn = s.doneEn := by simp [State.zeroizeSession]
@[simp] theorem State.zeroizeSession_werrEn : s.zeroizeSession.werrEn = s.werrEn := by simp [State.zeroizeSession]
@[simp] theorem State.zeroizeSession_donePend : s.zeroizeSession.donePend = s.donePend := by simp [State.zeroizeSession]
@[simp] theorem State.zeroizeSession_werrPend : s.zeroizeSession.werrPend = s.werrPend := by simp [State.zeroizeSession]
@[simp] theorem State.zeroizeSession_maxAtt : s.zeroizeSession.maxAtt = s.maxAtt := by simp [State.zeroizeSession]
@[simp] theorem State.zeroizeSession_attempts : s.zeroizeSession.attempts = s.attempts := by simp [State.zeroizeSession]
@[simp] theorem State.zeroizeSession_faultInfo : s.zeroizeSession.faultInfo = s.faultInfo := by simp [State.zeroizeSession]
@[simp] theorem State.zeroizeSession_aluImm : s.zeroizeSession.aluImm = s.aluImm := by simp [State.zeroizeSession]
@[simp] theorem State.zeroizeSession_mem : s.zeroizeSession.mem = ((s.wipe .key).wipe .digest).mem := by simp [State.zeroizeSession]
@[simp] theorem State.zeroizeSession_nonce : s.zeroizeSession.nonce = NonceState.zero s.bufcap := by simp [State.zeroizeSession, State.bufcap]
@[simp] theorem State.zeroizeSession_draws : s.zeroizeSession.draws = 0 := by simp [State.zeroizeSession]
@[simp] theorem State.zeroizeSession_handle : s.zeroizeSession.handle = none := by simp [State.zeroizeSession]
@[simp] theorem State.zeroizeSession_d2o : s.zeroizeSession.d2o = zeros s.bufcap := by simp [State.zeroizeSession, State.bufcap]
@[simp] theorem State.zeroizeSession_ctl : s.zeroizeSession.ctl = s.ctl := by simp [State.zeroizeSession]
@[simp] theorem State.zeroizeSession_params : s.zeroizeSession.params = s.params := by simp [State.zeroizeSession]
@[simp] theorem State.zeroizeSession_oracles : s.zeroizeSession.oracles = s.oracles := by simp [State.zeroizeSession]
@[simp] theorem State.zeroizeSession_inputs : s.zeroizeSession.inputs = s.inputs := by simp [State.zeroizeSession]
@[simp] theorem State.zeroizeSession_trace : s.zeroizeSession.trace = s.trace := by simp [State.zeroizeSession]
@[simp] theorem State.zeroizeSession_resp : s.zeroizeSession.resp = s.resp := by simp [State.zeroizeSession]

/-! `wipeOutput` changes the memory only. -/

theorem State.wipeOutput_only_mem (cmd : Option Instr) (e : ErrCode) :
    s.wipeOutput cmd e = { s with mem := (s.wipeOutput cmd e).mem } := by
  unfold State.wipeOutput
  split
  · rfl
  · split_ifs <;> rfl

@[simp] theorem State.wipeOutput_rfcRetry (cmd : Option Instr) (e : ErrCode) : (s.wipeOutput cmd e).rfcRetry = s.rfcRetry := by
  rw [s.wipeOutput_only_mem]
@[simp] theorem State.wipeOutput_hashAlg (cmd : Option Instr) (e : ErrCode) : (s.wipeOutput cmd e).hashAlg = s.hashAlg := by
  rw [s.wipeOutput_only_mem]
@[simp] theorem State.wipeOutput_opsz8 (cmd : Option Instr) (e : ErrCode) : (s.wipeOutput cmd e).opsz8 = s.opsz8 := by
  rw [s.wipeOutput_only_mem]
@[simp] theorem State.wipeOutput_diglen8 (cmd : Option Instr) (e : ErrCode) : (s.wipeOutput cmd e).diglen8 = s.diglen8 := by
  rw [s.wipeOutput_only_mem]
@[simp] theorem State.wipeOutput_busy (cmd : Option Instr) (e : ErrCode) : (s.wipeOutput cmd e).busy = s.busy := by
  rw [s.wipeOutput_only_mem]
@[simp] theorem State.wipeOutput_done (cmd : Option Instr) (e : ErrCode) : (s.wipeOutput cmd e).done = s.done := by
  rw [s.wipeOutput_only_mem]
@[simp] theorem State.wipeOutput_err (cmd : Option Instr) (e : ErrCode) : (s.wipeOutput cmd e).err = s.err := by
  rw [s.wipeOutput_only_mem]
@[simp] theorem State.wipeOutput_cmp (cmd : Option Instr) (e : ErrCode) : (s.wipeOutput cmd e).cmp = s.cmp := by
  rw [s.wipeOutput_only_mem]
@[simp] theorem State.wipeOutput_borrow (cmd : Option Instr) (e : ErrCode) : (s.wipeOutput cmd e).borrow = s.borrow := by
  rw [s.wipeOutput_only_mem]
@[simp] theorem State.wipeOutput_doneEn (cmd : Option Instr) (e : ErrCode) : (s.wipeOutput cmd e).doneEn = s.doneEn := by
  rw [s.wipeOutput_only_mem]
@[simp] theorem State.wipeOutput_werrEn (cmd : Option Instr) (e : ErrCode) : (s.wipeOutput cmd e).werrEn = s.werrEn := by
  rw [s.wipeOutput_only_mem]
@[simp] theorem State.wipeOutput_donePend (cmd : Option Instr) (e : ErrCode) : (s.wipeOutput cmd e).donePend = s.donePend := by
  rw [s.wipeOutput_only_mem]
@[simp] theorem State.wipeOutput_werrPend (cmd : Option Instr) (e : ErrCode) : (s.wipeOutput cmd e).werrPend = s.werrPend := by
  rw [s.wipeOutput_only_mem]
@[simp] theorem State.wipeOutput_maxAtt (cmd : Option Instr) (e : ErrCode) : (s.wipeOutput cmd e).maxAtt = s.maxAtt := by
  rw [s.wipeOutput_only_mem]
@[simp] theorem State.wipeOutput_attempts (cmd : Option Instr) (e : ErrCode) : (s.wipeOutput cmd e).attempts = s.attempts := by
  rw [s.wipeOutput_only_mem]
@[simp] theorem State.wipeOutput_faultInfo (cmd : Option Instr) (e : ErrCode) : (s.wipeOutput cmd e).faultInfo = s.faultInfo := by
  rw [s.wipeOutput_only_mem]
@[simp] theorem State.wipeOutput_aluImm (cmd : Option Instr) (e : ErrCode) : (s.wipeOutput cmd e).aluImm = s.aluImm := by
  rw [s.wipeOutput_only_mem]
@[simp] theorem State.wipeOutput_nonce (cmd : Option Instr) (e : ErrCode) : (s.wipeOutput cmd e).nonce = s.nonce := by
  rw [s.wipeOutput_only_mem]
@[simp] theorem State.wipeOutput_draws (cmd : Option Instr) (e : ErrCode) : (s.wipeOutput cmd e).draws = s.draws := by
  rw [s.wipeOutput_only_mem]
@[simp] theorem State.wipeOutput_handle (cmd : Option Instr) (e : ErrCode) : (s.wipeOutput cmd e).handle = s.handle := by
  rw [s.wipeOutput_only_mem]
@[simp] theorem State.wipeOutput_d2o (cmd : Option Instr) (e : ErrCode) : (s.wipeOutput cmd e).d2o = s.d2o := by
  rw [s.wipeOutput_only_mem]
@[simp] theorem State.wipeOutput_ctl (cmd : Option Instr) (e : ErrCode) : (s.wipeOutput cmd e).ctl = s.ctl := by
  rw [s.wipeOutput_only_mem]
@[simp] theorem State.wipeOutput_params (cmd : Option Instr) (e : ErrCode) : (s.wipeOutput cmd e).params = s.params := by
  rw [s.wipeOutput_only_mem]
@[simp] theorem State.wipeOutput_oracles (cmd : Option Instr) (e : ErrCode) : (s.wipeOutput cmd e).oracles = s.oracles := by
  rw [s.wipeOutput_only_mem]
@[simp] theorem State.wipeOutput_inputs (cmd : Option Instr) (e : ErrCode) : (s.wipeOutput cmd e).inputs = s.inputs := by
  rw [s.wipeOutput_only_mem]
@[simp] theorem State.wipeOutput_trace (cmd : Option Instr) (e : ErrCode) : (s.wipeOutput cmd e).trace = s.trace := by
  rw [s.wipeOutput_only_mem]
@[simp] theorem State.wipeOutput_resp (cmd : Option Instr) (e : ErrCode) : (s.wipeOutput cmd e).resp = s.resp := by
  rw [s.wipeOutput_only_mem]

@[simp] theorem State.wipeOutput_bufcap (cmd : Option Instr) (e : ErrCode) : (s.wipeOutput cmd e).bufcap = s.bufcap := by
  rw [s.wipeOutput_only_mem]; rfl

@[simp] theorem State.wipe_bufcap (x : Buf) : (s.wipe x).bufcap = s.bufcap := rfl

/-! The reset input. -/

@[simp] theorem State.resetInput_rfcRetry : s.resetInput.rfcRetry = false := rfl
@[simp] theorem State.resetInput_hashAlg : s.resetInput.hashAlg = 0 := rfl
@[simp] theorem State.resetInput_opsz8 : s.resetInput.opsz8 = 0 := rfl
@[simp] theorem State.resetInput_diglen8 : s.resetInput.diglen8 = 0 := rfl
@[simp] theorem State.resetInput_busy : s.resetInput.busy = false := rfl
@[simp] theorem State.resetInput_done : s.resetInput.done = false := rfl
@[simp] theorem State.resetInput_err : s.resetInput.err = .none := rfl
@[simp] theorem State.resetInput_cmp : s.resetInput.cmp = .equal := rfl
@[simp] theorem State.resetInput_borrow : s.resetInput.borrow = false := rfl
@[simp] theorem State.resetInput_doneEn : s.resetInput.doneEn = false := rfl
@[simp] theorem State.resetInput_werrEn : s.resetInput.werrEn = false := rfl
@[simp] theorem State.resetInput_donePend : s.resetInput.donePend = false := rfl
@[simp] theorem State.resetInput_werrPend : s.resetInput.werrPend = false := rfl
@[simp] theorem State.resetInput_maxAtt : s.resetInput.maxAtt = 255 := rfl
@[simp] theorem State.resetInput_attempts : s.resetInput.attempts = 0 := rfl
@[simp] theorem State.resetInput_faultInfo : s.resetInput.faultInfo = .none := rfl
@[simp] theorem State.resetInput_aluImm : s.resetInput.aluImm = 0 := rfl
@[simp] theorem State.resetInput_mem : s.resetInput.mem = [] := rfl
@[simp] theorem State.resetInput_nonce : s.resetInput.nonce = NonceState.zero s.bufcap := rfl
@[simp] theorem State.resetInput_draws : s.resetInput.draws = 0 := rfl
@[simp] theorem State.resetInput_handle : s.resetInput.handle = none := rfl
@[simp] theorem State.resetInput_d2o : s.resetInput.d2o = zeros s.bufcap := rfl
@[simp] theorem State.resetInput_ctl : s.resetInput.ctl = .idle := rfl
@[simp] theorem State.resetInput_params : s.resetInput.params = s.params := rfl
@[simp] theorem State.resetInput_oracles : s.resetInput.oracles = s.oracles := rfl
@[simp] theorem State.resetInput_inputs : s.resetInput.inputs = s.inputs := rfl
@[simp] theorem State.resetInput_trace : s.resetInput.trace = s.trace := rfl
@[simp] theorem State.resetInput_resp : s.resetInput.resp = s.resp := rfl

end Sys2Proof.Machine
end

