-- ==== Sys2Proof/Laws/Ops.lean ====
section
/-! SUPPORT. What each shared operation can do: writes to a buffer, zeroization and termination, an HMAC call, the start of
derive(FRESH), and the engine's step inside a command. -/

namespace Sys2Proof.Machine

open Sys2Proof

variable {s t : State}

/-! ## Writes to a buffer -/

theorem setBytes_memForm (h : memWf s.mem = true) (x : Buf) (v : Bytes) : memWf (s.setBytes x v).mem = true :=
  memWf_memWriteBytes h _ _

/-- A byte after a write to a buffer. -/
theorem setBytes_read (h : memWf s.mem = true) (x : Buf) (v : Bytes) (a : Nat) :
    memRead (s.setBytes x v).mem a =
      if bufBase x ≤ a ∧ a < bufBase x + v.length then v.getD (a - bufBase x) unlisted else memRead s.mem a :=
  memRead_memWriteBytes h _ _ _

theorem fill_memForm (h : memWf s.mem = true) (x : Buf) (v : Bytes) : memWf (s.fill x v).mem = true :=
  memWf_memWriteBytes h _ _

theorem wipe_memForm (h : memWf s.mem = true) (x : Buf) : memWf (s.wipe x).mem = true :=
  memWf_memWriteBytes h _ _

@[simp] theorem getD_zeros (L j : Nat) : (zeros L).getD j unlisted = 0 := by
  simp only [zeros, unlisted, List.getD_eq_getElem?_getD, List.getElem?_replicate]
  split_ifs <;> rfl

/-- A byte after a wipe: zero in the buffer, as before elsewhere. -/
theorem wipe_read (h : memWf s.mem = true) (x : Buf) (a : Nat) :
    memRead (s.wipe x).mem a =
      if bufBase x ≤ a ∧ a < bufBase x + s.bufcap then 0 else memRead s.mem a := by
  rw [State.wipe_mem, memRead_memWriteBytes h, length_zeros, getD_zeros]

theorem wipe_bufZero (h : memWf s.mem = true) (x : Buf) : BufZero (s.wipe x) x := fun j hj => by
  rw [wipe_read h, if_pos ⟨by omega, Nat.add_lt_add_left hj _⟩]

/-- Zero bytes stay zero under a wipe of any buffer. -/
theorem wipe_keeps_bufZero (h : memWf s.mem = true) (x y : Buf) (hy : BufZero s y) : BufZero (s.wipe x) y := fun j hj => by
  rw [wipe_read h]; split_ifs
  · rfl
  · exact hy j hj

/-- Only the memory and BUFCAP say whether a buffer is zero. -/
theorem bufZero_congr {x : Buf} (hm : t.mem = s.mem) (hc : t.bufcap = s.bufcap) (h : BufZero s x) : BufZero t x := by
  intro j hj; rw [hm]; exact h j (hc ▸ hj)

/-- Only the memory of the later state matters. -/
theorem sameOutside_congr {xs : List Buf} {u : State} (hm : u.mem = t.mem) (h : SameOutside xs s t) :
    SameOutside xs s u := by
  intro a ha; rw [hm]; exact h a ha

theorem sameOutside_refl (xs : List Buf) : SameOutside xs s s := fun _ _ => rfl

theorem wipe_sameOutside (h : memWf s.mem = true) {xs : List Buf} {x : Buf} (hx : x ∈ xs) :
    SameOutside xs s (s.wipe x) := fun a ha => by
  rw [wipe_read h, if_neg]
  rcases ha x hx with h | h <;> omega

theorem SameOutside.trans {xs : List Buf} {u : State} (h : SameOutside xs s t) (h' : SameOutside xs t u)
    (hc : t.bufcap = s.bufcap) : SameOutside xs s u := fun a ha =>
  (h' a (by rw [hc]; exact ha)).trans (h a ha)

theorem length_fillBytes (v : Bytes) (hv : v.length ≤ s.bufcap) :
    (v ++ zeros (s.bufcap - v.length)).length = s.bufcap := by simp; omega

/-- A filled buffer holds the bytes and is zero above them. -/
theorem fill_bufHolds (h : memWf s.mem = true) (x : Buf) {v : Bytes} (hv : v.length ≤ s.bufcap) :
    BufHolds (s.fill x v) x v := by
  refine ⟨?_, fun j h1 h2 => ?_⟩
  · rw [State.bytes, State.fill_mem, memReadBytes_memWriteBytes h _ (by simp)]; simp
  · have h2 : j < s.bufcap := h2
    rw [State.fill_mem, memRead_memWriteBytes h, length_fillBytes v hv, if_pos ⟨by omega, by omega⟩,
      Nat.add_sub_cancel_left, List.getD_append_right _ _ _ _ h1, getD_zeros]

theorem fill_sameOutside (h : memWf s.mem = true) {xs : List Buf} {x : Buf} (hx : x ∈ xs) {v : Bytes}
    (hv : v.length ≤ s.bufcap) : SameOutside xs s (s.fill x v) := fun a ha => by
  rw [State.fill_mem, memRead_memWriteBytes h, length_fillBytes v hv, if_neg]
  rcases ha x hx with h | h <;> omega

@[simp] theorem length_bytes (x : Buf) (L : Nat) : (s.bytes x L).length = L := length_memReadBytes _ _ _

/-! ## Zeroization and termination -/

/-- zeroize_session writes zero to KEY and DIGEST and to the hidden state, and nothing else. -/
theorem zeroizeSession_eq : s.zeroizeSession = { ((s.wipe .key).wipe .digest).hiddenWiped with ctl := s.ctl } := rfl

theorem zeroizeSession_memForm (h : memWf s.mem = true) : memWf s.zeroizeSession.mem = true :=
  wipe_memForm (s := s.wipe .key) (wipe_memForm h _) _

theorem wipeOutput_memForm (h : memWf s.mem = true) (cmd : Option Instr) (e : ErrCode) :
    memWf (s.wipeOutput cmd e).mem = true := by
  unfold State.wipeOutput
  split
  · exact h
  · split_ifs
    · exact wipe_memForm h _
    · exact wipe_memForm (s := s.wipe .sigR) (wipe_memForm h _) _
    · exact h

/-- A command that is no nonce and no signing command ends with STATUS, INTSTAT and the control point written only
(60_exceptions.md R215). -/
theorem terminate_plain {cmd : Option Instr} (hc : ∀ i ∈ cmd, (i.isNonce || i.isSign) = false) (e : ErrCode) :
    s.terminate cmd e = s.ended e := by
  cases cmd with
  | none => rfl
  | some i =>
    have hi := hc i rfl
    simp only [Bool.or_eq_false_iff] at hi
    simp [State.terminate, State.wipeOutput, State.wipeSession, hi.1, hi.2, State.close, State.ended]

/-- A nonce or signing command ends with its session zeroized (60_exceptions.md R215, R216). -/
theorem terminate_session {i : Instr} (hi : (i.isNonce || i.isSign) = true) (e : ErrCode) :
    s.terminate (some i) e = (s.wipeOutput (some i) e).zeroizeSession.close e := by
  simp [State.terminate, State.wipeSession, hi]

/-- Success wipes no output. -/
theorem wipeOutput_none (cmd : Option Instr) : s.wipeOutput cmd .none = s := by
  cases cmd <;> simp [State.wipeOutput]

/-- A window of 128 bytes holds a buffer of BUFCAP bytes (00_scope.md R7, 20_memory.md R51). -/
theorem bufcap_le (h : s.params.ok) : s.bufcap ≤ 128 := by
  have := h.2.1.2; have := h.2.2.1.2
  simp only [State.bufcap, Params.bufcap]; omega

theorem wipeOutput_sameOutside (h : memWf s.mem = true) {xs : List Buf} {i : Instr} (e : ErrCode)
    (hn : i.isNonce = true → .nonce ∈ xs) (hs : i.isSign = true → .sigR ∈ xs ∧ .sigS ∈ xs) :
    SameOutside xs s (s.wipeOutput (some i) e) := by
  unfold State.wipeOutput
  dsimp only
  split_ifs with h1 h2
  · exact wipe_sameOutside h (hn h1.2)
  · exact (wipe_sameOutside h (hs h2.2).1).trans (wipe_sameOutside (wipe_memForm h _) (hs h2.2).2) rfl
  · exact sameOutside_refl xs

/-- What the end of a nonce or signing command leaves: the session zeroized, its output buffers `xs` at most written, and
everything else as before (60_exceptions.md R215, R216). -/
theorem terminate_sessionEnded {i : Instr} (hi : (i.isNonce || i.isSign) = true) (h : memWf s.mem = true) {xs : List Buf}
    (e : ErrCode) (hn : i.isNonce = true → .nonce ∈ xs) (hs : i.isSign = true → .sigR ∈ xs ∧ .sigS ∈ xs) :
    SessionEnded xs e s (s.terminate (some i) e) := by
  rw [terminate_session hi]
  have h1 := wipeOutput_memForm h (some i) e
  have h2 := wipe_memForm (s := s.wipeOutput (some i) e) h1 .key
  have hm : ((s.wipeOutput (some i) e).zeroizeSession.close e).mem =
      (((s.wipeOutput (some i) e).wipe .key).wipe .digest).mem := by simp
  have hb : ((s.wipeOutput (some i) e).zeroizeSession.close e).bufcap =
      (((s.wipeOutput (some i) e).wipe .key).wipe .digest).bufcap := by simp [State.bufcap]
  refine ⟨?_, ?_, ?_, ?_⟩
  · exact bufZero_congr hm hb (wipe_keeps_bufZero h2 .digest .key (wipe_bufZero h1 .key))
  · exact bufZero_congr hm hb (wipe_bufZero h2 .digest)
  · refine sameOutside_congr hm ?_
    have a := wipeOutput_sameOutside (i := i) (xs := .key :: .digest :: xs) h e (fun x => by simp [hn x])
      (fun x => by simp [hs x])
    have b : SameOutside (.key :: .digest :: xs) _ _ := 
      wipe_sameOutside (s := s.wipeOutput (some i) e) (x := .key) h1 (by simp)
    have c : SameOutside (.key :: .digest :: xs) _ _ :=
      wipe_sameOutside (s := (s.wipeOutput (some i) e).wipe .key) (x := .digest) h2 (by simp)
    have hcap : (s.wipeOutput (some i) e).bufcap = s.bufcap := s.wipeOutput_bufcap (some i) e
    exact (a.trans b hcap).trans c hcap
  · ext1 <;> simp [State.hiddenWiped, State.ended, State.bufcap, zeros]

/-! ## Byte ranges of distinct buffers -/

/-- Buffers of at most 128 bytes do not overlap (20_memory.md R51). -/
theorem bufBase_apart {x y : Buf} (h : x ≠ y) : bufBase x + 128 ≤ bufBase y ∨ bufBase y + 128 ≤ bufBase x := by
  cases x <;> cases y <;> first | exact absurd rfl h | (simp [bufBase])

/-- The bytes of a buffer that is not among `xs` are as before. -/
theorem SameOutside.bytes {xs : List Buf} (h : SameOutside xs s t) (hc : s.bufcap ≤ 128) {x : Buf} (hx : x ∉ xs) {L : Nat}
    (hL : L ≤ s.bufcap) : t.bytes x L = s.bytes x L :=
  memReadBytes_congr fun j hj => h _ fun y hy => by
    have := bufBase_apart (x := x) (y := y) (by rintro rfl; exact hx hy)
    omega

/-! ## An HMAC call -/

/-- An HMAC call either is not answered and changes nothing, or is answered with hmacFn's value. -/
theorem withHmac_cases (key msg : Bytes) (f : State → Bytes → State) :
    (s.oracles.hmacAnswers = some 0 ∧ s.withHmac key msg f = s) ∨
      (s.oracles.hmacAnswers ≠ some 0 ∧ s.withHmac key msg f = f (s.hmacSpent key msg) (s.hmac key msg)) := by
  unfold State.withHmac
  split
  · rename_i h; exact .inl ⟨h, rfl⟩
  · rename_i h1; exact .inr ⟨h1, rfl⟩

theorem withHmac_answered {key msg : Bytes} {f : State → Bytes → State} (h : s.oracles.hmacAnswers ≠ some 0) :
    s.withHmac key msg f = f (s.hmacSpent key msg) (s.hmac key msg) := by
  rcases withHmac_cases (s := s) key msg f with ⟨h0, _⟩ | ⟨_, h1⟩
  · exact absurd h0 h
  · exact h1

@[simp] theorem length_hmac (key msg : Bytes) : (s.hmac key msg).length = s.hlen := length_fit _ _

/-! ## The start of derive(FRESH) (42_nonce_rfc6979.md R140, R143) -/

theorem length_t0 (s : State) : (s.t0).length = s.opsz := by simp [State.t0, length_bits2octets, State.order]

/-- The step that enters derive(FRESH), with its HMAC call answered: NonceState is fresh and step 0 is done. -/
theorem enterDerive_answered {i : Instr} (h : s.oracles.hmacAnswers ≠ some 0) {t0 msg : Bytes}
    (h0 : t0 = bits2octets (s.bytes .digest s.hlen) (s.bytes .n s.opsz))
    (hm : msg = List.replicate s.hlen 0x01 ++ [0x00] ++ s.bytes .key s.opsz ++ t0) :
    s.enterDerive i = { s.hmacSpent (List.replicate s.hlen 0x00) msg with
      nonce := {
        k := s.hmac (List.replicate s.hlen 0x00) msg ++ s.nonce.k.drop s.hlen
        v := List.replicate s.hlen 0x01 ++ s.nonce.v.drop s.hlen
        t := t0 ++ s.nonce.t.drop s.opsz
        tlen := s.opsz
        step := .step1
        retry := 0
        det := true }
      ctl := .running i .derive } := by
  subst h0 hm
  unfold State.enterDerive State.rfc0
  rw [withHmac_answered (s := s.startDerive i) h]
  ext1 <;> try rfl
  ext1 <;> try rfl
  · refine (splice_zero (length_hmac _ _)).trans ?_
    refine congrArg (_ ++ ·) ((congrArg (List.drop _) (splice_zero (length_zeros _))).trans ?_)
    exact List.drop_left' (length_zeros _)
  · exact splice_zero (length_ones _)
  · exact splice_zero (length_t0 _)

/-- The step that enters derive(FRESH), with its HMAC call not answered: the engine stays in step 0. -/
theorem enterDerive_unanswered {i : Instr} (h : s.oracles.hmacAnswers = some 0) : s.enterDerive i = s.startDerive i := by
  unfold State.enterDerive State.rfc0
  rcases withHmac_cases (s := s.startDerive i) (zeros (s.startDerive i).hlen)
    ((s.startDerive i).keyMsg (ones (s.startDerive i).hlen) 0x00 (s.startDerive i).t0)
    (fun s k => s.initKVT.putK .step1 k) with ⟨_, h'⟩ | ⟨h', _⟩
  · exact h'
  · exact absurd h h'

/-! ## The engine's step -/

/-- The engine of a running command performs that command's step (10_state.md R37). -/
theorem engineStep_running {i : Instr} {p : Point} (h : s.ctl = .running i p) : engineStep s = exec i s := by
  unfold engineStep; rw [h]

theorem engineStep_idle (h : s.ctl = .idle) : engineStep s = .next s := by unfold engineStep; rw [h]

theorem step_no_input (h : s.inputs = []) : step s = engineStep s := by unfold step; rw [h]

theorem pointOf_running {i : Instr} {p : Point} (h : s.ctl = .running i p) : s.pointOf i = p := by
  unfold State.pointOf; rw [h]; simp

theorem runSteps_succ_next {k : Nat} (h : step s = .next t) : runSteps (k + 1) s = runSteps k t := by
  rw [runSteps, h]

/-- An idle machine with no input left stays as it is for any number of steps (60_exceptions.md R228). -/
theorem runSteps_idle (hi : s.inputs = []) (hc : s.ctl = .idle) (k : Nat) : runSteps k s = .next s := by
  induction k with
  | zero => rfl
  | succ k ih =>
    have h : step s = .next s := by rw [step_no_input hi, engineStep_idle hc]
    rw [runSteps_succ_next h]; exact ih

end Sys2Proof.Machine
end

