-- ==== Sys2Proof/Laws/Port.lean ====
section
/-! SUPPORT. The host port: which byte or register an offset is, and what an access at an offset of the window does
(20_memory.md R51 to R58, R69). -/

namespace Sys2Proof.Machine

open Sys2Proof

variable {s : State}

/-! ## The address map -/

theorem regAt_regOffset (r : Reg) : regAt (regOffset r) = some r := by cases r <;> rfl

theorem regAt_some {o : Nat} {r : Reg} (h : regAt o = some r) : o = regOffset r := by
  have := List.find?_some h
  simp at this
  exact this.symm

theorem bufBase_aligned (x : Buf) : bufBase x % 128 = 0 ∧ 0x100 ≤ bufBase x ∧ bufBase x + 128 ≤ 0x580 := by
  cases x <;> simp [bufBase]

theorem bufAt_range {o j : Nat} {x : Buf} (h : s.bufAt o = some (x, j)) : o = bufBase x + j ∧ j < s.bufcap ∧ j < 128 := by
  unfold State.bufAt at h
  simp only [Option.map_eq_some_iff, Prod.mk.injEq] at h
  obtain ⟨y, hy, rfl, rfl⟩ := h
  have := List.find?_some hy
  simp at this; omega

/-- The byte X[j] is at the window base of X plus j (20_memory.md R52). -/
theorem bufAt_bufBase {j : Nat} {x : Buf} (hj : j < s.bufcap) (hj' : j < 128) : s.bufAt (bufBase x + j) = some (x, j) := by
  unfold State.bufAt
  have : (allBufs.find? fun y => decide (bufBase y ≤ bufBase x + j ∧ bufBase x + j < bufBase y + s.bufcap ∧
      bufBase x + j < bufBase y + 128)) = some x := by
    rw [List.find?_eq_some_iff_append]
    refine ⟨by simp; omega, allBufs.takeWhile (· ≠ x), (allBufs.dropWhile (· ≠ x)).tail, by cases x <;> rfl, ?_⟩
    intro y ha
    have ha := List.mem_takeWhile_imp ha
    simp at ha
    have := bufBase_apart ha
    simp; omega
  rw [this]; simp

/-- At BUFCAP and above a window's bytes are reserved (20_memory.md R52). -/
theorem bufAt_above {j : Nat} {x : Buf} (hj : s.bufcap ≤ j) (hj' : j < 128) : s.bufAt (bufBase x + j) = none := by
  cases h : s.bufAt (bufBase x + j) with
  | none => rfl
  | some p =>
    obtain ⟨y, k⟩ := p
    obtain ⟨h1, h2, h3⟩ := bufAt_range h
    by_cases hy : y = x
    · subst hy; omega
    · have := bufBase_apart hy; omega

/-! ## Byte lanes -/

theorem byteWrite_ignored {o : Nat} {b : Byte} (h : ∀ x j, s.bufAt o = some (x, j) → hostWrites x = false) :
    s.byteWrite o b = s := by
  unfold State.byteWrite
  split
  · rename_i x j hx
    simp [h x j hx]
  · rfl

theorem lanesWrite_ignored {o n : Nat} {v : Word}
    (h : ∀ k, k < n → ∀ x j, s.bufAt (o + k) = some (x, j) → hostWrites x = false) : s.lanesWrite o v n = s := by
  induction n generalizing o v with
  | zero => rfl
  | succ n ih =>
    rw [State.lanesWrite, byteWrite_ignored (o := o) (h 0 (by omega)), ih]
    intro k hk
    rw [show o + 1 + k = o + (k + 1) by omega]
    exact h (k + 1) (by omega)

/-- A legal buffer access whose lowest byte is not writable writes nothing: an aligned access does not leave its window,
and the writable bytes of a window are its first BUFCAP (20_memory.md R52, R55). -/
theorem lanesWrite_not_writable {o : Nat} {v : Word} {n : Width} (ho : ¬ o < 0x100) (hl : legal o n = true)
    (hw : s.writable o = false) : s.lanesWrite o v (widthBytes n) = s := by
  refine lanesWrite_ignored fun k hk x j hx => ?_
  by_contra hc
  obtain ⟨h1, h2, h3⟩ := bufAt_range hx
  have hal : o % widthBytes n = 0 := by simpa [legal, ho] using hl
  have hb := bufBase_aligned x
  have hle : bufBase x ≤ o := by cases n <;> simp only [widthBytes] at hal hk <;> omega
  have hat := bufAt_bufBase (s := s) (x := x) (j := o - bufBase x) (by omega) (by omega)
  rw [Nat.add_sub_cancel' hle] at hat
  simp [State.writable, ho, hat] at hw
  exact hc hw

/-- A write of byte lanes changes the memory only. -/
theorem lanesWrite_mem_only (o : Nat) (v : Word) (n : Nat) : ∃ m, s.lanesWrite o v n = { s with mem := m } := by
  induction n generalizing s o v with
  | zero => exact ⟨s.mem, rfl⟩
  | succ n ih =>
    have h1 : ∃ m, s.byteWrite o (v.extractLsb' 0 8) = { s with mem := m } := by
      unfold State.byteWrite
      split
      · split_ifs
        · exact ⟨_, rfl⟩
        · exact ⟨s.mem, rfl⟩
      · exact ⟨s.mem, rfl⟩
    obtain ⟨m, hm⟩ := h1
    obtain ⟨m', hm'⟩ := ih (s := s.byteWrite o (v.extractLsb' 0 8)) (o := o + 1) (v := v >>> 8)
    exact ⟨m', by rw [State.lanesWrite, hm', hm]⟩

/-- A byte read of a buffer window (20_memory.md R52). -/
theorem byteRead_window {x : Buf} {k : Nat} (hk : k < 128) :
    s.byteRead (bufBase x + k) =
      if k < s.bufcap ∧ x ≠ .key ∧ x ≠ .digest then memRead s.mem (bufBase x + k) else 0 := by
  unfold State.byteRead
  by_cases hc : k < s.bufcap
  · rw [bufAt_bufBase hc hk]; cases x <;> simp [hostReads, hc]
  · rw [bufAt_above (by omega) hk]; simp [hc]

/-- The value of `n` byte lanes has `n` bytes (20_memory.md R54). -/
theorem lanesRead_lt (o n : Nat) : s.lanesRead o n < 256 ^ n := by
  induction n generalizing o with
  | zero => simp [State.lanesRead]
  | succ n ih =>
    have := ih (o + 1)
    have := (s.byteRead o).isLt
    rw [State.lanesRead, pow_succ]; omega

/-- Lane `i` of a read is the byte at offset + i (20_memory.md R54). -/
theorem lanesRead_lane {o n i : Nat} (hi : i < n) :
    BitVec.ofNat 8 (s.lanesRead o n / 256 ^ i) = s.byteRead (o + i) := by
  induction n generalizing o i with
  | zero => omega
  | succ n ih =>
    have := (s.byteRead o).isLt
    rw [State.lanesRead]
    cases i with
    | zero => apply BitVec.eq_of_toNat_eq; simp; omega
    | succ i =>
      rw [← show o + 1 + i = o + (i + 1) by omega, ← ih (by omega), pow_succ, mul_comm (256 ^ i),
        ← Nat.div_div_eq_div_mul]
      congr 2; omega

/-- A byte write to a buffer window (20_memory.md R52). -/
theorem byteWrite_window (hm : memWf s.mem = true) {x : Buf} {k : Nat} (hk : k < 128) (b : Byte) (a : Nat) :
    memRead (s.byteWrite (bufBase x + k) b).mem a =
      if a = bufBase x + k ∧ k < s.bufcap ∧ x ∈ [Buf.key, .digest, .n, .a, .b] then b else memRead s.mem a := by
  unfold State.byteWrite
  by_cases hc : k < s.bufcap
  · rw [bufAt_bufBase hc hk]; cases x <;> simp [hostWrites, hc, memRead_memWrite hm]
  · rw [bufAt_above (by omega) hk]; simp [hc]

theorem byteWrite_memForm (hm : memWf s.mem = true) (o : Nat) (b : Byte) : memWf (s.byteWrite o b).mem = true := by
  unfold State.byteWrite
  split
  · split_ifs
    · exact memWf_memWrite hm _ _
    · exact hm
  · exact hm

theorem byteWrite_bufcap (o : Nat) (b : Byte) : (s.byteWrite o b).bufcap = s.bufcap := by
  unfold State.byteWrite
  split
  · split_ifs <;> rfl
  · rfl

/-- Every byte of memory after a write of `n` byte lanes to a buffer window (20_memory.md R52, R54). -/
theorem lanesWrite_window (hm : memWf s.mem = true) (x : Buf) {n k : Nat} (hk : k + n ≤ 128) (v : Word) (a : Nat) :
    memRead (s.lanesWrite (bufBase x + k) v n).mem a =
      if bufBase x + k ≤ a ∧ a < bufBase x + k + n ∧ a < bufBase x + s.bufcap ∧ x ∈ [Buf.key, .digest, .n, .a, .b]
      then BitVec.ofNat 8 (v.toNat / 256 ^ (a - (bufBase x + k))) else memRead s.mem a := by
  induction n generalizing s k v with
  | zero => rw [State.lanesWrite, if_neg (by omega)]
  | succ n ih =>
    rw [State.lanesWrite, show bufBase x + k + 1 = bufBase x + (k + 1) by omega,
      ih (byteWrite_memForm hm _ _) (by omega), byteWrite_bufcap, byteWrite_window hm (by omega)]
    by_cases hx : x ∈ [Buf.key, .digest, .n, .a, .b]
    · simp only [hx, and_true]
      by_cases h0 : a = bufBase x + k
      · subst h0
        rw [if_neg (by omega)]
        by_cases hc : k < s.bufcap
        · rw [if_pos (by omega), if_pos (by omega)]; apply BitVec.eq_of_toNat_eq; simp
        · rw [if_neg (by omega), if_neg (by omega)]
      · by_cases h1 : bufBase x + (k + 1) ≤ a ∧ a < bufBase x + (k + 1) + n ∧ a < bufBase x + s.bufcap
        · rw [if_pos h1, if_pos (by omega)]
          apply BitVec.eq_of_toNat_eq; simp [Nat.shiftRight_eq_div_pow]
          rw [show a - (bufBase x + k) = a - (bufBase x + (k + 1)) + 1 by omega, pow_succ, mul_comm,
            ← Nat.div_div_eq_div_mul]
        · rw [if_neg h1, if_neg (by omega), if_neg (by omega)]
    · simp only [hx, and_false, if_false]

/-! ## Accesses -/

theorem step_host {a : Access} {rest : List Input} (h : s.inputs = .host a :: rest) :
    step s = hostStep a { s with inputs := rest } := by unfold step; rw [h]

theorem step_engine {rest : List Input} (h : s.inputs = .engine :: rest) :
    step s = engineStep { s with inputs := rest } := by unfold step; rw [h]

theorem offsetOf_base {o : Nat} (ho : o < 0x1000) : s.offsetOf (s.params.base + o) = some o := by
  unfold State.offsetOf
  rw [if_pos (by omega), Nat.add_sub_cancel_left]

/-- A read at an offset of the window. -/
theorem portRead_at {o : Nat} {n : Width} (ho : o < 0x1000) :
    portRead (s.params.base + o) n s =
      if legal o n then .next (s.respond false (s.readValue o n)) else .next (s.respond true 0) := by
  unfold portRead; rw [offsetOf_base ho]

/-- A write at an offset of the window. -/
theorem portWrite_at {o : Nat} {n : Width} {v : Word} (ho : o < 0x1000) :
    portWrite (s.params.base + o) n v s =
      if legal o n then .next ((s.writeEffect o n v).respond false 0) else .next (s.respond true 0) := by
  unfold portWrite; rw [offsetOf_base ho]

/-- A legal read at an offset of the window changes the port's answer only. -/
theorem step_read {o : Nat} {n : Width} {rest : List Input} (ho : o < 0x1000) (hl : legal o n = true)
    (h : s.hostNext (.read · n) o rest) :
    step s = .next (State.respond { s with inputs := rest } false (State.readValue { s with inputs := rest } o n)) := by
  have hp := portRead_at (s := { s with inputs := rest }) (n := n) ho
  rw [if_pos hl] at hp
  rw [step_host h]
  exact hp

/-- A legal write at an offset of the window. -/
theorem step_write {o : Nat} {n : Width} {v : Word} {rest : List Input} (ho : o < 0x1000) (hl : legal o n = true)
    (h : s.hostNext (.write · n v) o rest) :
    step s = .next (State.respond (State.writeEffect { s with inputs := rest } o n v) false 0) := by
  have hp := portWrite_at (s := { s with inputs := rest }) (n := n) (v := v) ho
  rw [if_pos hl] at hp
  rw [step_host h]
  exact hp

/-- A write to a register while it is not dropped. -/
theorem writeEffect_reg {r : Reg} {v : Word} (h : s.dropsWrite (regOffset r) = false) :
    s.writeEffect (regOffset r) .w32 v = s.regSet r v := by
  have : regOffset r < 0x100 := by cases r <;> simp [regOffset]
  unfold State.writeEffect
  rw [if_neg (by simp [h]), if_pos this, State.regWrite, regAt_regOffset]

/-- A legal write that starts at an offset that takes no write does nothing (20_memory.md R53, R58). -/
theorem writeEffect_not_writable {o : Nat} {n : Width} {v : Word} (hl : legal o n = true) (hw : s.writable o = false) :
    s.writeEffect o n v = s := by
  unfold State.writeEffect
  rw [if_neg (by simp [State.dropsWrite, hw])]
  split_ifs with hlt
  · unfold State.regWrite
    split
    · rename_i r hr
      simp only [State.writable, if_pos hlt, hr] at hw
      cases r <;> simp [regWritable] at hw <;> rfl
    · rfl
  · exact lanesWrite_not_writable hlt hl hw

theorem dropsWrite_idle {o : Nat} (h : s.busy = false) : s.dropsWrite o = false := by simp [State.dropsWrite, h]

end Sys2Proof.Machine
end

