-- ==== Sys2Proof/Laws/Invariant.lean ====
section
/-! SUPPORT. The invariant, operation by operation: what termination, each step of a nonce or signing command,
    acceptance
and a host write keep of it. -/

namespace Sys2Proof.Machine

open Sys2Proof

variable {s t : State} {i : Instr}

/-! ## The parts of the invariant -/

/-- Only bytes of the nine buffers below BUFCAP are stored. -/
def MemInBuffers (s : State) : Prop := ∀ a, memRead s.mem a ≠ unlisted → ∃ x j, j < s.bufcap ∧ a = bufBase x + j

/-- `u` has the hidden state and the parameters of `s`. -/
def SameHidden (s u : State) : Prop :=
  u.nonce = s.nonce ∧ u.draws = s.draws ∧ u.handle = s.handle ∧ u.d2o = s.d2o ∧ u.params = s.params

/-- The parts of the invariant that do not depend on the control point. -/
structure Base (s : State) : Prop where
  params : s.params.ok
  memForm : memWf s.mem = true
  memRange : MemInBuffers s
  attempts : s.attempts.toNat ≤ 256

/-- The invariant holds the parts that no step of a command can spoil. -/
theorem State.Inv.base (h : s.Inv) : Base s := ⟨h.params, h.memForm, h.memRange, h.attempts⟩

theorem mr_setBytes (hm : memWf s.mem = true) (h : MemInBuffers s) (x : Buf) (v : Bytes)
    (hv : v.length ≤ s.bufcap) : MemInBuffers (s.setBytes x v) := by
  intro a ha
  rw [setBytes_read hm] at ha
  split_ifs at ha with hc
  · exact ⟨x, a - bufBase x, by show _ < s.bufcap; omega, by omega⟩
  · exact h a ha

/-- A write of at most BUFCAP bytes to a buffer. -/
theorem base_setBytes (h : Base s) (x : Buf) (v : Bytes) (hv : v.length ≤ s.bufcap) : Base (s.setBytes x v) :=
  ⟨h.params, setBytes_memForm h.memForm _ _, mr_setBytes h.memForm h.memRange x v hv, h.attempts⟩

theorem base_wipe (h : Base s) (x : Buf) : Base (s.wipe x) := base_setBytes h x _ (by simp)

theorem base_fill (h : Base s) (x : Buf) (v : Bytes) (hv : v.length ≤ s.bufcap) : Base (s.fill x v) :=
  base_setBytes h x _ (by simp; omega)

theorem base_wipeOutput (h : Base s) (c : Option Instr) (e) : Base (s.wipeOutput c e) := by
  unfold State.wipeOutput
  split
  · exact h
  · split_ifs
    · exact base_wipe h _
    · exact base_wipe (base_wipe h _) _
    · exact h

theorem base_zeroizeSession (h : Base s) : Base s.zeroizeSession := by
  have := base_wipe (base_wipe h .key) .digest
  exact ⟨this.params, this.memForm, this.memRange, this.attempts⟩

theorem base_wipeSession (h : Base s) (c : Option Instr) : Base (s.wipeSession c) := by
  unfold State.wipeSession
  split
  · exact h
  · split_ifs
    · exact base_zeroizeSession h
    · exact h

/-- An idle machine meets the invariant when its hidden state is zero (60_exceptions.md R216). -/
theorem inv_idle (h : Base s) (hz : HiddenZero s) (hb : s.busy = false) (hc : s.ctl = .idle)
    (he : s.err ≠ .invalidSignature) : s.Inv where
  params := h.params
  memForm := h.memForm
  memRange := h.memRange
  lengths := by simp [hz.1, hz.2.2.2, NonceState.zero]
  tlen := by simp [hz.1, NonceState.zero]
  busyIff := by simp [hb, hc]
  status := by simp [hb]
  errCode := he
  wiped := fun _ => hz
  checked := by simp [hc]
  draws := by simp [hz.2.1]
  retry := by simp [hz.1, NonceState.zero]
  det := by simp [hc]
  attempts := h.attempts
  attemptsIn := by simp [hc]
  candidate := by simp [hc]
  accepted := by simp [hc]

/-- A command that has just been accepted meets the invariant when the hidden state is zero (60_exceptions.md R214). -/
theorem inv_start (h : Base s) (hz : HiddenZero s) (hc : s.ctl = .running i .start) (hb : s.busy = true)
    (hd : s.done = false) (he : s.err = .none) : s.Inv where
  params := h.params
  memForm := h.memForm
  memRange := h.memRange
  lengths := by simp [hz.1, hz.2.2.2, NonceState.zero]
  tlen := by simp [hz.1, NonceState.zero]
  busyIff := by simp [hb, hc]
  status := by simp [hd, he]
  errCode := by simp [he]
  wiped := fun _ => hz
  checked := by simp [hc]
  draws := by simp [hz.2.1]
  retry := by simp [hz.1, NonceState.zero]
  det := by simp [hc]
  attempts := h.attempts
  attemptsIn := by simp [hc]
  candidate := by simp [hc, afterNonce]
  accepted := by simp [hc, afterNonce]

/-- The offsets that a memory lists are those that do not read as unlisted. -/
theorem memInBuffers_of_cells
    (h : ∀ c ∈ s.mem, ∃ x ∈ allBufs, bufBase x ≤ c.1 ∧ c.1 < bufBase x + s.bufcap) : MemInBuffers s := by
  have key : ∀ (m : Memory) (k : Nat), memRead m k ≠ unlisted → ∃ c ∈ m, c.1 = k := by
    intro m k
    induction m with
    | nil => intro hk; exact absurd rfl hk
    | cons d m ih =>
      intro hk
      by_cases hd : d.1 = k
      · exact ⟨d, by simp, hd⟩
      · rw [memRead, if_neg hd] at hk
        obtain ⟨c, hc, e⟩ := ih hk
        exact ⟨c, by simp [hc], e⟩
  intro k hk
  obtain ⟨c, hc, rfl⟩ := key s.mem k hk
  obtain ⟨x, -, h1, h2⟩ := h c hc
  exact ⟨x, c.1 - bufBase x, by omega, by omega⟩

/-- The commands that handle the private key: nonce and signing (60_exceptions.md R215). -/
def isSecret (i : Instr) : Bool := i.isNonce || i.isSign

/-- Termination leads to a state that meets the invariant (60_exceptions.md R215, R216). -/
theorem inv_terminate (h : Base s) {c : Option Instr} {e : ErrCode} (hz : (∃ i ∈ c, isSecret i = true) ∨ HiddenZero s)
    (he : e ≠ .invalidSignature) : (s.terminate c e).Inv := by
  have hb := base_wipeSession (base_wipeOutput h c e) c
  refine inv_idle ⟨hb.params, hb.memForm, hb.memRange, hb.attempts⟩ ?_ rfl rfl he
  have : HiddenZero ((s.wipeOutput c e).wipeSession c) := by
    unfold State.wipeSession
    rcases hz with ⟨i, hi, hs⟩ | hz
    · cases hi
      simp only [isSecret] at hs
      simp only [hs, if_true]
      exact ⟨rfl, rfl, rfl, rfl⟩
    · have h1 : HiddenZero (s.wipeOutput c e) := by
        unfold State.wipeOutput
        split
        · exact hz
        · split_ifs <;> exact hz
      split
      · exact h1
      · split_ifs
        · exact ⟨rfl, rfl, rfl, rfl⟩
        · exact h1
  exact this

theorem inv_raise (h : Base s) {i : Instr} (hs : isSecret i = true) {e} (he : e ≠ .invalidSignature) :
    (s.raise i e).Inv :=
  inv_terminate h (.inl ⟨i, rfl, hs⟩) he

theorem inv_hwFault (h : Base s) {i : Instr} (hs : isSecret i = true) (c) : (s.hwFault i c).Inv :=
  inv_raise (s := { s with faultInfo := c }) ⟨h.params, h.memForm, h.memRange, h.attempts⟩ hs (by simp)

/-- The engine is inside nonce or signing command `i`, past its checks. -/
structure Run (i : Instr) (s : State) : Prop where
  base : Base s
  lengths : s.nonce.k.length = s.bufcap ∧ s.nonce.v.length = s.bufcap ∧ s.nonce.t.length = s.bufcap ∧
    s.d2o.length = s.bufcap
  tlen : s.nonce.tlen ≤ s.bufcap
  busy : s.busy = true
  done : s.done = false
  err : s.err = .none
  secret : isSecret i = true
  checks : s.checksOf i = true
  draws : s.draws ≤ s.params.rndMaxDraws
  retry : s.nonce.retry.toNat ≤ s.maxAttempts
  det : s.nonce.det = i.isDet
  att : i.isSign = true → 1 ≤ s.attempts.toNat ∧ s.attempts.toNat ≤ s.maxAttempts + 1

/-- Inside a nonce or signing command the invariant is `Run` and the facts of the point. -/
theorem inv_run {i p} (h : Run i s) (hc : s.ctl = .running i p) (hp : hasPoint i p = true) (hne : p ≠ .start)
   (hcand : afterNonce p = true → s.candInRange)
       (hacc : afterNonce p = true ∨ p = .reject → i.isDet = true → s.nonce.step = .step6) : s.Inv where
  params := h.base.params
  memForm := h.base.memForm
  memRange := h.base.memRange
  lengths := h.lengths
  tlen := h.tlen
  busyIff := by simp [h.busy, hc]
  status := by simp [h.done, h.err]
  errCode := by simp [h.err]
  wiped := by
    have := h.secret; simp only [isSecret] at this
    simp [State.inside, hc, hne, this]
  checked := by rintro i' p' h' -; rw [hc] at h'; cases h'; exact ⟨hp, h.checks⟩
  draws := h.draws
  retry := h.retry
  det := by rintro i' p' h' -; rw [hc] at h'; cases h'; exact h.det
  attempts := h.base.attempts
  attemptsIn := by rintro i' p' h' -; rw [hc] at h'; cases h'; exact h.att
  candidate := by rintro i' p' h'; rw [hc] at h'; cases h'; exact hcand
  accepted := by rintro i' p' h'; rw [hc] at h'; cases h'; exact hacc

/-- What the invariant says inside a nonce or signing command. -/
theorem State.Inv.run {i p} (h : s.Inv) (hc : s.ctl = .running i p) (hs : isSecret i = true)
    (hne : p ≠ .start) : Run i s where
  base := h.base
  lengths := h.lengths
  tlen := h.tlen
  busy := h.busyIff.2 (by simp [hc])
  done := (h.status (h.busyIff.2 (by simp [hc]))).1
  err := (h.status (h.busyIff.2 (by simp [hc]))).2
  secret := hs
  checks := (h.checked i p hc hne).2
  draws := h.draws
  retry := h.retry
  det := h.det i p hc hne
  att := h.attemptsIn i p hc hne

/-- What the checks of 60_exceptions.md R213 say. -/
theorem curve_of_checks {i} (h : s.checksOf i = true) : 1 ≤ s.opsz ∧ s.opsz ≤ s.params.maxOpsz ∧ 2 ≤ s.q := by
  simp [State.checksOf, State.curveOk, State.opszOk] at h; omega

theorem hash_of_checks {i} (h : s.checksOf i = true)
    (hi : i ≠ .nonceRnd) : s.params.digestSize s.hashAlg = some s.diglen := by
  simp [State.checksOf, State.hashOk, hi] at h; exact h.2

theorem opsz_le_cap {i} (h : s.checksOf i = true) : s.opsz ≤ s.bufcap := by
  have := curve_of_checks h; simp only [State.bufcap, Params.bufcap]; omega

/-- HLEN ≤ BUFCAP (00_scope.md R7). -/
theorem hlen_le (h : s.params.ok) : s.hlen ≤ s.bufcap := by
  unfold State.hlen Params.digestSize
  by_cases hlt : s.hashAlg.toNat < s.params.digestSizes.length
  · rw [List.getD_eq_getElem _ _ hlt]
    have := h.2.2.2.2.1 _ (List.getElem_mem hlt)
    cases hd : s.params.digestSizes[s.hashAlg.toNat] with
    | none => simp
    | some n => 
      have := (this n (by simp [hd])).2
      simp [State.bufcap, Params.bufcap]; omega
  · rw [List.getD_eq_default _ _ (by omega)]; simp

theorem run_goto (h : Run i s) (p) : Run i (s.goto i p) :=
  ⟨⟨h.base.params, h.base.memForm, h.base.memRange, h.base.attempts⟩, h.lengths, h.tlen, h.busy, h.done, h.err,
      h.secret, h.checks, h.draws, h.retry, h.det, h.att⟩

theorem run_orc (h : Run i s) (o tr hd) : Run i { s with oracles := o, trace := tr, handle := hd } :=
  ⟨⟨h.base.params, h.base.memForm, h.base.memRange, h.base.attempts⟩, h.lengths, h.tlen, h.busy, h.done, h.err,
      h.secret, h.checks, h.draws, h.retry, h.det, h.att⟩

theorem run_nonce (h : Run i s) (n : NonceState) (hk : n.k.length = s.bufcap) (hv : n.v.length = s.bufcap)
    (ht : n.t.length = s.bufcap)
  (hl : n.tlen ≤ s.bufcap) (hr : n.retry.toNat ≤ s.maxAttempts) (hd : n.det = s.nonce.det) : Run i
      { s with nonce := n } :=
  ⟨⟨h.base.params, h.base.memForm, h.base.memRange, h.base.attempts⟩, ⟨hk, hv, ht, h.lengths.2.2.2⟩, hl, h.busy,
      h.done, h.err, h.secret, h.checks, h.draws, hr, hd ▸ h.det, h.att⟩

theorem run_draws (h : Run i s) (d) (hd : d ≤ s.params.rndMaxDraws) : Run i { s with draws := d } :=
  ⟨⟨h.base.params, h.base.memForm, h.base.memRange, h.base.attempts⟩, h.lengths, h.tlen, h.busy, h.done, h.err,
      h.secret, h.checks, hd, h.retry, h.det, h.att⟩

theorem run_putT (h : Run i s) (c : Bytes) (hc : c.length ≤ s.bufcap) : Run i (s.putT c) :=
  run_nonce h _ h.lengths.1 h.lengths.2.1
      (by rw [length_splice]; exact h.lengths.2.2.1; have := h.lengths.2.2.1; omega) h.tlen h.retry rfl

theorem run_opsz (h : Run i s) : s.opsz ≤ s.bufcap := opsz_le_cap h.checks

theorem cand_putT {s : State} (c : Bytes) (hc : c.length = s.opsz) : (s.putT c).cand = c := by
  unfold State.cand State.putT
  exact take_splice_zero hc

/-! ## rnd_k (41_nonce_random.md R131) -/

theorem inv_testStep (h : Run i s) {acc} (hd : i.isDet = false) (hp : hasPoint i acc = true)
    (ha : afterNonce acc = true) : (s.testStep i acc).Inv := by
  have hr := run_goto (i := i) (run_putT h s.maskedCand (by simpa [State.maskedCand] using run_opsz h))
      (if outOfRange s.maskedCand s.order then .draw else acc)
  have hpd : hasPoint i .draw = true := by simpa [hasPoint, hd, isSecret] using h.secret
  refine inv_run hr rfl ?_ ?_ ?_ ?_
  · split_ifs <;> assumption
  · split_ifs; · simp
    rintro rfl; simp [afterNonce] at ha
  · split_ifs with ho
    · simp [afterNonce]
    · intro _
      have := outOfRange_false.1 (by simpa using ho)
      have hc : ((s.putT s.maskedCand).goto i acc).cand = s.maskedCand := cand_putT (s := s) _
          (by simp [State.maskedCand])
      show 1 ≤ beInt ((s.putT s.maskedCand).goto i acc).cand ∧ beInt ((s.putT s.maskedCand).goto i acc).cand < _
      rw [hc]; exact this
  · intro _ h'; simp [hd] at h'

theorem inv_drawStep (h : s.Inv) (hr : Run i s) (hd : i.isDet = false) : (s.drawStep i).Inv := by
  unfold State.drawStep
  split_ifs with hx
  · exact inv_raise h.base hr.secret (by simp)
  split
  · exact h
  · rename_i a rest _
    unfold State.entropyAnswered
    cases a with
    | fail => exact inv_hwFault (s := { s with draws := s.draws + 1, oracles := { s.oracles with entropy := rest }, trace := .entropy s.opsz :: s.trace }) ⟨h.params, h.memForm, h.memRange, h.attempts⟩ hr.secret .entropy
    | bytes e =>
      have h1 : Run i { s with draws := s.draws + 1 } := run_draws hr _ (by have := hr.draws; omega)
      have h2 := run_orc h1 { s.oracles with entropy := rest } (.entropy s.opsz :: s.trace) s.handle
      have h3 := run_putT h2 (fit s.opsz e) ((length_fit _ _).trans_le (run_opsz hr))
      have h4 := run_nonce h3 { s.nonce with t := splice s.nonce.t 0 (fit s.opsz e), tlen := s.opsz } h3.lengths.1 h3.lengths.2.1 h3.lengths.2.2.1 (run_opsz hr) h3.retry rfl
      refine inv_run (run_goto h4 .test) rfl ?_ (by simp) (by simp [afterNonce]) (by simp [afterNonce])
      simpa [hasPoint, hd, isSecret] using hr.secret

theorem inv_giveNonce (hr : Run i s) : (s.giveNonce i).Inv := by
  refine inv_terminate (base_fill hr.base _ _ ?_) (.inl ⟨i, rfl, hr.secret⟩) (by simp)
  have := run_opsz hr; have := hr.lengths.2.2.1; simp [State.cand]; omega

theorem inv_startDraws (hr : Run i s) (hd : i.isDet = false) : (s.startDraws i).Inv := by
  refine inv_run (run_goto (run_draws hr 0 (by omega)) .draw) rfl ?_ (by simp) (by simp [afterNonce])
      (by simp [afterNonce])
  simpa [hasPoint, hd, isSecret] using hr.secret

theorem inv_derivePt (hr : Run i s) (hc : s.ctl = .running i .derive) (hd : i.isDet = true) : s.Inv :=
  inv_run hr hc (by simpa [hasPoint] using hd) (by simp) (by simp [afterNonce]) (by simp [afterNonce])

/-- A tested candidate is in T. -/
structure Aft (i : Instr) (s : State) : Prop where
  run : Run i s
  cand : s.candInRange
  acc : i.isDet = true → s.nonce.step = .step6

/-! ## The RFC 6979 machine (42_nonce_rfc6979.md R143 to R151) -/

theorem inv_withHmac (h : s.Inv) (key msg f) (hf : ∀ k : Bytes, k.length = s.hlen → (f
    (s.hmacSpent key msg) k).Inv) : (s.withHmac key msg f).Inv := by
  rcases withHmac_cases (s := s) key msg f with ⟨_, h'⟩ | ⟨_, h'⟩ <;> rw [h']
  · exact h
  · exact hf _ (length_hmac _ _)

theorem run_hmacSpent (hr : Run i s) (key msg) : Run i (s.hmacSpent key msg) := run_orc hr _ _ s.handle

theorem run_putK (hr : Run i s) (st) (k : Bytes) (hk : k.length = s.hlen) : Run i (s.putK st k) :=
  run_nonce hr _ (by rw [length_splice]; exact hr.lengths.1; have := hr.lengths.1; have := hlen_le hr.base.params; omega) hr.lengths.2.1 hr.lengths.2.2.1 hr.tlen hr.retry rfl

theorem run_putV (hr : Run i s) (st) (k : Bytes) (hk : k.length = s.hlen) : Run i (s.putV st k) :=
  run_nonce hr _ hr.lengths.1
      (by rw [length_splice]; exact hr.lengths.2.1; have := hr.lengths.2.1; have := hlen_le hr.base.params; omega) hr.lengths.2.2.1 hr.tlen hr.retry rfl

theorem inv_rfc0 (hr : Run i s) (hc : s.ctl = .running i .derive) (hd : i.isDet = true) : s.rfc0.Inv := by
  have hcap := hlen_le hr.base.params
  have ho := run_opsz hr
  obtain ⟨l1, l2, l3, -⟩ := hr.lengths
  refine inv_withHmac (inv_derivePt hr hc hd) _ _ _ fun k hk => ?_
  have h1 := run_hmacSpent hr (zeros s.hlen) (s.keyMsg (ones s.hlen) 0x00 s.t0)
  have h2 : Run i ((s.hmacSpent (zeros s.hlen) (s.keyMsg (ones s.hlen) 0x00 s.t0)).initKVT) := run_nonce h1 _
    (by rw [length_splice]; exact l1; exact ((Nat.zero_add _).trans (length_zeros _)).trans_le (hcap.trans l1.ge))
    (by rw [length_splice]; exact l2; exact ((Nat.zero_add _).trans (length_ones _)).trans_le (hcap.trans l2.ge))
    (by rw [length_splice]; exact l3; exact ((Nat.zero_add _).trans (length_t0 _)).trans_le (ho.trans l3.ge))
    ho hr.retry rfl
  exact inv_derivePt (run_putK h2 .step1 k hk) hc hd

theorem inv_deriveStep (h : s.Inv) (hr : Run i s) (hc : s.ctl = .running i .derive) (hd : i.isDet = true)
    {accept : State → State} (ha : ∀ u, Aft i u → (accept u).Inv) : (s.deriveStep i accept).Inv := by
  have hcap := hlen_le hr.base.params
  have ho := run_opsz hr
  obtain ⟨l1, l2, l3, l4⟩ := hr.lengths
  unfold State.deriveStep
  split
  · exact inv_rfc0 hr hc hd
  · exact inv_withHmac h _ _ _ fun k hk => inv_derivePt (run_putV (run_hmacSpent hr _ _) _ k hk) hc hd
  · exact inv_withHmac h _ _ _ fun k hk => inv_derivePt (run_putK (run_hmacSpent hr _ _) _ k hk) hc hd
  · refine inv_withHmac h _ _ _ fun k hk => ?_
    have h1 := run_putV (run_hmacSpent hr s.kKey s.vVal) .step4 k hk
    exact inv_derivePt (run_nonce h1 _ h1.lengths.1 h1.lengths.2.1 (by simp [State.bufcap])
        (by simp) h1.retry rfl) hc hd
  · exact inv_withHmac h _ _ _ fun k hk => inv_derivePt (run_putV (run_hmacSpent hr _ _) _ k hk) hc hd
  · -- 5
    have hm : min s.hlen (s.opsz - s.nonce.tlen) ≤ s.hlen := by omega
    have htl := hr.tlen
    have : s.nonce.tlen + min s.hlen (s.opsz - s.nonce.tlen) ≤ s.bufcap := by omega
    refine inv_derivePt (run_nonce hr _ l1 l2 ?_ this hr.retry rfl) hc hd
    rw [length_splice]; exact l3
    simp; omega
  · -- 6
    unfold State.rfc6
    have h1 := run_putT hr s.reducedCand (by simpa [State.reducedCand] using ho)
    split_ifs with hx hy
    · exact inv_raise h1.base hr.secret (by simp)
    · refine inv_withHmac h _ _ _ fun k hk => ?_
      have h2 := run_putT (run_putK (run_hmacSpent hr s.kKey (s.vVal ++ [0x00])) .step3 k hk) s.reducedCand
          ((length_be _ _).trans_le ho)
      have hlt : s.nonce.retry.toNat < s.maxAtt.toNat := lt_of_le_of_ne hr.retry fun e => hy (BitVec.eq_of_toNat_eq e)
      refine inv_derivePt (run_nonce h2 _ h2.lengths.1 h2.lengths.2.1 h2.lengths.2.2.1 h2.tlen ?_ rfl) hc hd
      have := s.maxAtt.isLt
      show (s.nonce.retry + 1).toNat ≤ s.maxAtt.toNat
      simp [BitVec.toNat_add]; omega
    · refine ha _ ⟨h1, ?_, fun _ => by assumption⟩
      have := outOfRange_false.1 (by simpa using hx)
      have hc' : (s.putT s.reducedCand).cand = s.reducedCand := cand_putT (s := s) _ (by simp [State.reducedCand])
      show 1 ≤ beInt (s.putT s.reducedCand).cand ∧ beInt (s.putT s.reducedCand).cand < _
      rw [hc']; exact this

theorem run_startDerive (hr : Run i { s with nonce := { s.nonce with det := true } }) : Run i (s.startDerive i) :=
  run_goto (run_nonce hr { s.nonce with det := true, retry := 0, step := .step0 } hr.lengths.1 hr.lengths.2.1
    hr.lengths.2.2.1 hr.tlen (by simp) rfl) .derive

theorem inv_startDerive (hr : Run i { s with nonce := { s.nonce with det := true } }) (hd : i.isDet = true) :
    (s.startDerive i).Inv :=
  inv_derivePt (run_startDerive hr) rfl hd

theorem inv_enterDerive (hr : Run i { s with nonce := { s.nonce with det := true } }) (hd : i.isDet = true) :
    (s.enterDerive i).Inv :=
  inv_rfc0 (run_startDerive hr) rfl hd

theorem run_start (h : s.Inv) {i} (hc : s.ctl = .running i .start) (hs : isSecret i = true)
    (hk : s.checksOf i = true) (ha : i.isSign = false) :
   Run i { s with nonce := { s.nonce with det := i.isDet } } where
  base := ⟨h.params, h.memForm, h.memRange, h.attempts⟩
  lengths := h.lengths
  tlen := h.tlen
  busy := h.busyIff.2 (by simp [hc])
  done := (h.status (h.busyIff.2 (by simp [hc]))).1
  err := (h.status (h.busyIff.2 (by simp [hc]))).2
  secret := hs
  checks := hk
  draws := h.draws
  retry := h.retry
  det := rfl
  att := by simp [ha]

theorem run_start1 (h : s.Inv) {i} (hc : s.ctl = .running i .start) (hs : isSecret i = true)
    (hk : s.checksOf i = true)  :
   Run i { s with attempts := 1, nonce := { s.nonce with det := i.isDet } } where
  base := ⟨h.params, h.memForm, h.memRange, by simp⟩
  lengths := h.lengths
  tlen := h.tlen
  busy := h.busyIff.2 (by simp [hc])
  done := (h.status (h.busyIff.2 (by simp [hc]))).1
  err := (h.status (h.busyIff.2 (by simp [hc]))).2
  secret := hs
  checks := hk
  draws := h.draws
  retry := h.retry
  det := rfl
  att := by simp

theorem nonce_start (h : s.Inv) {i} (hc : s.ctl = .running i .start) : s.nonce = NonceState.zero s.bufcap :=
  (h.wiped (by simp [State.inside, hc])).1

theorem run_start_f (h : s.Inv) {i} (hc : s.ctl = .running i .start) (hd : i.isDet = false) : { s with nonce :=
    { s.nonce with det := i.isDet } } = s := by
  have := nonce_start h hc
  rw [hd, this]; ext1 <;> simp [this, NonceState.zero]

/-! ## The retry controller (43_retry_controller.md R172, R175) -/

theorem base_orc (h : Base s) (o tr hd d2 dr) : Base { s with oracles := o, trace := tr, handle := hd, d2o := d2, draws := dr } := ⟨h.params, h.memForm, h.memRange, h.attempts⟩

theorem run_d2o (h : Run i s) (d : Bytes) (hd : d.length = s.bufcap) : Run i { s with d2o := d } :=
  ⟨⟨h.base.params, h.base.memForm, h.base.memRange, h.base.attempts⟩, ⟨h.lengths.1, h.lengths.2.1, h.lengths.2.2.1,
      hd⟩, h.tlen, h.busy, h.done, h.err, h.secret, h.checks, h.draws, h.retry, h.det, h.att⟩

theorem run_putD2o (h : Run i s) : Run i s.putD2o :=
  run_d2o h _ (by rw [length_splice]; exact h.lengths.2.2.2; have := length_digest2op s.params.d2opSelect s.digest s.opsz; have := h.lengths.2.2.2; have := run_opsz h; omega)

theorem State.Inv.aft {p} (h : s.Inv) (hc : s.ctl = .running i p) (hs : isSecret i = true)
    (hp : afterNonce p = true) : Aft i s :=
  ⟨h.run hc hs (by rintro rfl; simp [afterNonce] at hp), h.candidate i p hc hp, h.accepted i p hc (.inl hp)⟩

theorem inv_aft (h : Aft i s) {p} (hc : s.ctl = .running i p) (hp : hasPoint i p = true)
    (ha : afterNonce p = true) : s.Inv :=
  inv_run h.run hc hp (by rintro rfl; simp [afterNonce] at ha) (fun _ => h.cand) (fun _ => h.acc)

theorem aft_orc (h : Aft i s) (o tr hd) : Aft i { s with oracles := o, trace := tr, handle := hd } :=
    ⟨run_orc h.run _ _ _, h.cand, h.acc⟩

theorem aft_goto (h : Aft i s) (p) : Aft i (s.goto i p) := ⟨run_goto h.run _, h.cand, h.acc⟩

theorem inv_writeStep (h : s.Inv) (ha : Aft i s) (slot by' next) (hp : hasPoint i next = true)
    (hn : afterNonce next = true) : (s.writeStep i slot by' next).Inv := by
  unfold State.writeStep
  split
  · exact h
  · rename_i a rest _
    cases a with
    | fatal c => exact inv_hwFault (s := { s with oracles := { s.oracles with write := rest }, trace := .writeOperand s.handle slot by' :: s.trace }) ⟨h.params, h.memForm, h.memRange,
        h.attempts⟩ ha.run.secret _
    | ok => exact inv_aft (aft_goto (aft_orc ha _ _ s.handle) next) rfl hp hn

theorem inv_runStep (h : s.Inv) (ha : Aft i s) (hi : i.isSign = true) : (s.runStep i).Inv := by
  unfold State.runStep
  split
  · exact h
  · rename_i a rest _
    cases a with
    | fatal c => exact inv_hwFault (s := { s with oracles := { s.oracles with run := rest }, trace := .run s.handle :: s.trace }) ⟨h.params, h.memForm, h.memRange, h.attempts⟩ ha.run.secret _
    | ok => exact inv_aft (aft_goto (aft_orc ha _ _ s.handle) .wait) rfl (by simpa [hasPoint]) (by simp [afterNonce])

theorem inv_acquireStep (ha : Aft i s) (hc : s.ctl = .running i .acquire) (hi : i.isSign = true) :
    (s.acquireStep i).Inv := by
  have h1 : Aft i s.putD2o := ⟨run_putD2o ha.run, ha.cand, ha.acc⟩
  unfold State.acquireStep
  dsimp only
  split
  · exact inv_aft h1 hc (by simpa [hasPoint]) (by simp [afterNonce])
  · rename_i a rest _
    cases a with
    | fatal c => exact inv_hwFault (s := { s.putD2o with oracles := { s.putD2o.oracles with acquire := rest }, trace := .acquire :: s.putD2o.trace }) (aft_orc h1 _ _ s.handle).run.base ha.run.secret _
    | ok hd =>
      exact inv_aft (aft_goto (aft_orc h1 _ _ (some hd)) .writePriv) rfl (by simpa [hasPoint])
        (by simp [afterNonce])

theorem inv_nonceForRetry (hr : Run i s) (hi : i.isSign = true) (hacc : i.isDet = true → s.nonce.step = .step6) :
    (s.nonceForRetry i).Inv := by
  unfold State.nonceForRetry
  split_ifs with hd hx
  · exact inv_run (run_goto hr .reject) rfl (by simp [hasPoint, hd, hi]) (by simp) (by simp [afterNonce])
      (fun _ => hacc)
  · refine inv_startDerive ?_ hd
    rwa [← hd, ← hr.det]
  · exact inv_startDraws hr (by simpa using hd)

theorem inv_nextAttempt (ha : Aft i s) (hi : i.isSign = true) : (s.nextAttempt i).Inv := by
  unfold State.nextAttempt
  split_ifs with hx
  · exact inv_raise ha.run.base ha.run.secret (by simp)
  · have hatt := ha.run.att hi
    have hm : s.maxAttempts ≤ 255 := by have := s.maxAtt.isLt; simp only [State.maxAttempts]; omega
    have e2 : (s.attempts + 1).toNat = s.attempts.toNat + 1 := by simp [BitVec.toNat_add]; omega
    have hr := ha.run
    exact inv_nonceForRetry (s := { s with attempts := s.attempts + 1 })
      ⟨⟨hr.base.params, hr.base.memForm, hr.base.memRange, by show (s.attempts + 1).toNat ≤ _; omega⟩, hr.lengths,
          hr.tlen, hr.busy, hr.done, hr.err, hr.secret, hr.checks, hr.draws, hr.retry, hr.det, fun _ => by
        show 1 ≤ (s.attempts + 1).toNat ∧ (s.attempts + 1).toNat ≤ s.maxAttempts + 1; omega⟩ hi ha.acc

theorem inv_waitStep (h : s.Inv) (ha : Aft i s) (hi : i.isSign = true) : (s.waitStep i).Inv := by
  unfold State.waitStep
  split
  · exact h
  · rename_i a rest _
    have h1 := aft_orc ha { s.oracles with wait := rest } (.wait s.handle :: s.trace) none
    cases a with
    | fatal c => exact inv_hwFault (s := { s with oracles := { s.oracles with wait := rest }, trace := .wait s.handle :: s.trace }) (aft_orc ha _ _ s.handle).run.base ha.run.secret _
    | success r u =>
      exact inv_terminate (base_fill (base_fill h1.run.base .sigR (fit s.opsz r) ((length_fit _ _).trans_le
          (run_opsz ha.run))) .sigS (fit s.opsz u) ((length_fit _ _).trans_le (run_opsz ha.run))) (.inl ⟨i, rfl,
          ha.run.secret⟩) (by simp)
    | notInvertible => exact inv_nextAttempt h1 hi
    | invalidSignature => exact inv_nextAttempt h1 hi

theorem inv_signStart (h : s.Inv) (hc : s.ctl = .running i .start) (hi : i.isSign = true) : (s.signStart i).Inv := by
  have hs : isSecret i = true := by simp [isSecret, hi]
  unfold State.signStart
  split_ifs with hk
  · have hk' : s.checksOf i = true := by simp at hk; simp [State.checksOf, hk]
    have hr := run_start1 h hc hs hk'
    unfold State.firstAttempt
    dsimp only
    split_ifs with hd
    · rw [hd] at hr; exact inv_enterDerive (s := { s with attempts := 1 }) hr hd
    · have hd : i.isDet = false := by simpa using hd
      have hz := nonce_start h hc
      have e : { s with attempts := 1, nonce := { s.nonce with det := i.isDet } } = { s with attempts := 1 } := by
        rw [hd, hz]; rfl
      rw [e] at hr
      exact inv_startDraws hr hd
  · exact inv_raise h.base hs (by simp)

theorem inv_forcedReject (h : s.Inv) (hr : Run i s) (hd : i.isDet = true) : (s.forcedReject i).Inv :=
  inv_withHmac h s.kKey (s.vVal ++ [0x00]) (fun s k => (s.putK .step3 k).goto i .derive) fun k hk => inv_derivePt
      (run_goto (run_putK (run_hmacSpent hr s.kKey (s.vVal ++ [0x00])) .step3 k hk) .derive) rfl hd

/-! ## The other commands -/

theorem hp_of (h : s.Inv) {p} (hc : s.ctl = .running i p) : hasPoint i p = true := by
  by_cases hp : p = .start
  · simp [hp, hasPoint]
  · exact (h.checked i p hc hp).1

theorem plain_terminate (h : s.Inv) {p} (hc : s.ctl = .running i p) (hs : isSecret i = false) {u : State}
    (hb : Base u) (hz : SameHidden s u) (e : ErrCode) (he : e ≠ .invalidSignature) : (u.terminate (some i) e).Inv := by
  refine inv_terminate hb (.inr ?_) he
  have hw := h.wiped (by simp only [isSecret] at hs; simp [State.inside, hc, hs])
  obtain ⟨a, b, c, d, e⟩ := hz
  exact ⟨by rw [a, State.bufcap, e]; exact hw.1, by rw [b]; exact hw.2.1, by rw [c]; exact hw.2.2.1, 
    by rw [d, State.bufcap, e]; exact hw.2.2.2⟩

theorem inv_bigint (h : s.Inv) {p} (hc : s.ctl = .running i p) (hs : isSecret i = false) (ok) (f : State → State)
    (hb : ok = true → Base (f s)) (hz : SameHidden s (f s)) : (s.bigint i ok f).Inv := by
  unfold State.bigint
  split_ifs with hk
  · exact plain_terminate h hc hs (hb hk) hz _ (by simp)
  · exact plain_terminate h hc hs h.base ⟨rfl, rfl, rfl, rfl, rfl⟩ _ (by simp)

theorem szOk_le {sz} (h : s.szOk sz = true) : sz ≤ s.bufcap := by simp [State.szOk] at h; omega

/-! ## The host port -/

theorem inv_frame (h : s.Inv) (a b c d : Bool) (r : Resp) (ins) : State.Inv { s with doneEn := a, werrEn := b, donePend := c, werrPend := d, resp := r, inputs := ins } :=
  ⟨h.1, h.2, h.3, h.4, h.5, h.6, h.7, h.8, h.9, h.10, h.11, h.12, h.13, h.14, h.15, h.16, h.17⟩

/-- A host write while BUSY = 0 changes no hidden state (20_memory.md R58). -/
theorem inv_idle' (h : s.Inv) (hb : s.busy = false) {u : State} (hB : Base u) (hz : SameHidden s u)
    (hb' : u.busy = s.busy) (hc : u.ctl = s.ctl) (he : u.err = s.err) : u.Inv := by
  have hi : s.ctl = .idle := by by_contra hx; have := h.busyIff.2 hx; simp [hb] at this
  have hw := h.wiped (by simp [State.inside, hi])
  obtain ⟨a, b, c, d, e⟩ := hz
  exact inv_idle hB ⟨by rw [a, State.bufcap, e]; exact hw.1, by rw [b]; exact hw.2.1, by rw [c]; exact hw.2.2.1,
      by rw [d, State.bufcap, e]; exact hw.2.2.2⟩ (by rw [hb', hb]) (by rw [hc, hi]) (by rw [he]; exact h.errCode)

theorem inv_accept (h : s.Inv) (hb : s.busy = false) (w : Word) : (s.accept w).Inv := by
  have hi : s.ctl = .idle := by by_contra hx; have := h.busyIff.2 hx; simp [hb] at this
  have hw := h.wiped (by simp [State.inside, hi])
  have hst : startOf w = .illegal ∨ ∃ i, startOf w = .running i .start := by
    unfold startOf; split
    · exact .inr ⟨_, rfl⟩
    · exact .inl rfl
  have hstart : ∀ i p, startOf w = .running i p → p = .start := by
    rintro i p hx; rcases hst with h' | ⟨j, h'⟩ <;> rw [h'] at hx <;> cases hx; rfl
  refine ⟨h.params, h.memForm, h.memRange, h.lengths, h.tlen, ?_, fun _ => ⟨rfl, rfl⟩, by simp, fun _ => hw, ?_,
      h.draws, h.retry, ?_, ?_, ?_, ?_, ?_⟩
  · simp; rcases hst with h' | ⟨j, h'⟩ <;> rw [h'] <;> simp
  · intro i p hx hne; exact absurd (hstart i p hx) hne
  · intro i p hx hne; exact absurd (hstart i p hx) hne
  · show (if isSignWord w then 0 else s.attempts).toNat ≤ 256
    split_ifs
    · simp
    · exact h.attempts
  · intro i p hx hne; exact absurd (hstart i p hx) hne
  · intro i p hx hne; rw [hstart i p hx] at hne; simp [afterNonce] at hne
  · intro i p hx hne; rw [hstart i p hx] at hne; simp [afterNonce] at hne

theorem memWrite_base (h : Base s) {a : Nat} (v : Byte) (x : Buf) (j : Nat) (hj : j < s.bufcap)
    (ha : a = bufBase x + j) : Base { s with mem := memWrite s.mem a v } where
  params := h.params
  memForm := memWf_memWrite h.memForm _ _
  memRange := by
    intro b hb
    have hb : memRead (memWrite s.mem a v) b ≠ unlisted := hb
    rw [memRead_memWrite h.memForm] at hb
    split_ifs at hb with hc
    · exact ⟨x, j, hj, hc.trans ha⟩
    · exact h.memRange b hb
  attempts := h.attempts

theorem byteWrite_base (h : Base s) (o b) : Base (s.byteWrite o b) ∧ ∃ m, s.byteWrite o b = { s with mem := m } := by
  unfold State.byteWrite
  split
  · rename_i x j hx
    split_ifs
    · exact ⟨memWrite_base h b x j (bufAt_range hx).2.1 rfl, _, rfl⟩
    · exact ⟨h, s.mem, rfl⟩
  · exact ⟨h, s.mem, rfl⟩

theorem lanesWrite_base (h : Base s) (o v n) : Base (s.lanesWrite o v n) ∧ ∃ m, s.lanesWrite o v n =
    { s with mem := m } := by
  induction n generalizing s o v with
  | zero => exact ⟨h, s.mem, rfl⟩
  | succ n ih =>
    obtain ⟨h1, m, hm⟩ := byteWrite_base h o (v.extractLsb' 0 8)
    obtain ⟨h2, m2, hm2⟩ := ih h1 (o + 1) (v >>> 8)
    refine ⟨h2, m2, ?_⟩
    rw [State.lanesWrite, hm2, hm]

end Sys2Proof.Machine
end

