-- ==== Sys2Proof/Laws/PerInstr.lean ====
section
/-! SUPPORT. Statements made command by command: the row of the opcode map that a command's word belongs to
(30_encoding.md R87). -/

namespace Sys2Proof.Laws.EncodeRow

open Sys2Proof

/-- The match value of a command's row (30_encoding.md R87: match = OPC). -/
def rowMatch : Instr → Word
  | .nop => 0x00000000
  | .zeroize => 0x00000001
  | .cmp _ _ => 0x00000010
  | .add _ => 0x00000011
  | .sub _ => 0x00000012
  | .rshift _ => 0x00000013
  | .trunc _ => 0x00000014
  | .bits2int _ => 0x00000015
  | .bits2oct _ => 0x00000016
  | .d2op _ => 0x00000017
  | .nonceRnd => 0x00000020
  | .nonceDet => 0x00000021
  | .signRnd => 0x00000030
  | .signDet => 0x00000031

/-- The mask of a command's row (30_encoding.md R87). -/
def rowMask : Instr → Word
  | .cmp _ _ => 0xFFFC00FF
  | .add _ | .sub _ | .rshift _ | .trunc _ | .bits2int _ | .bits2oct _ | .d2op _ => 0xFFFF00FF
  | .nop | .zeroize | .nonceRnd | .nonceDet | .signRnd | .signDet => 0xFFFFFFFF

/-- The word of a command belongs to the command's row of the opcode map. -/
def Statement (i : Instr) : Prop := encode i &&& rowMask i = rowMatch i

theorem append_and {n m : Nat} (a b : BitVec n) (c d : BitVec m) :
    (a ++ c) &&& (b ++ d) = (a &&& b) ++ (c &&& d) := by
  ext k hk
  simp only [BitVec.getElem_and, BitVec.getElem_append]
  split <;> rfl

theorem mask_size (o s : BitVec 8) : packWord o s 0 &&& 0xFFFF00FF = packWord o 0 0 := by
  show ((((0 : BitVec 14) ++ (0 : BitVec 2)) ++ s) ++ o) &&&
    ((((0x3FFF : BitVec 14) ++ (3 : BitVec 2)) ++ (0 : BitVec 8)) ++ (0xFF : BitVec 8)) = _
  rw [append_and, append_and, append_and]
  have h : o &&& 0xFF = o := by revert o; decide
  rw [h, show s &&& 0 = 0 by simp]; rfl

theorem mask_size_carry (o s : BitVec 8) (c : BitVec 2) : packWord o s c &&& 0xFFFC00FF = packWord o 0 0 := by
  show ((((0 : BitVec 14) ++ c) ++ s) ++ o) &&&
    ((((0x3FFF : BitVec 14) ++ (0 : BitVec 2)) ++ (0 : BitVec 8)) ++ (0xFF : BitVec 8)) = _
  rw [append_and, append_and, append_and]
  have h : o &&& 0xFF = o := by revert o; decide
  rw [h, show s &&& 0 = 0 by simp, show c &&& 0 = 0 by simp]; rfl

theorem nop : Statement .nop := by unfold Statement; decide
theorem zeroize : Statement .zeroize := by unfold Statement; decide
theorem cmp (sz : Nat) (cin : Int) : Statement (.cmp sz cin) := mask_size_carry _ _ _
theorem add (sz : Nat) : Statement (.add sz) := mask_size _ _
theorem sub (sz : Nat) : Statement (.sub sz) := mask_size _ _
theorem rshift (sz : Nat) : Statement (.rshift sz) := mask_size _ _
theorem trunc (sz : Nat) : Statement (.trunc sz) := mask_size _ _
theorem bits2int (sz : Nat) : Statement (.bits2int sz) := mask_size _ _
theorem bits2oct (sz : Nat) : Statement (.bits2oct sz) := mask_size _ _
theorem d2op (sz : Nat) : Statement (.d2op sz) := mask_size _ _
theorem nonceRnd : Statement .nonceRnd := by unfold Statement; decide
theorem nonceDet : Statement .nonceDet := by unfold Statement; decide
theorem signRnd : Statement .signRnd := by unfold Statement; decide
theorem signDet : Statement .signDet := by unfold Statement; decide

end Sys2Proof.Laws.EncodeRow
end

