-- ==== Sys2Proof/Machine/Assembly.lean ====
section
/-! DEFINITION. The host-transaction assembly (30_encoding.md R91 to R93): each line as the accesses it stands for. -/

namespace Sys2Proof.Machine

open Sys2Proof

/-- `sw OFF, V` (30_encoding.md R91). -/
def asmSw (base off : Nat) (v : Word) : Access := .write (base + off) .w32 v

/-- `sh OFF, V` (30_encoding.md R91). -/
def asmSh (base off : Nat) (v : Word) : Access := .write (base + off) .w16 v

/-- `sb OFF, V` (30_encoding.md R91). -/
def asmSb (base off : Nat) (v : Word) : Access := .write (base + off) .w8 v

/-- `lw OFF` (30_encoding.md R91). -/
def asmLw (base off : Nat) : Access := .read (base + off) .w32

/-- `lh OFF` (30_encoding.md R91). -/
def asmLh (base off : Nat) : Access := .read (base + off) .w16

/-- `lb OFF` (30_encoding.md R91). -/
def asmLb (base off : Nat) : Access := .read (base + off) .w8

/-- A command mnemonic: `sw 0x00C, word` (30_encoding.md R92). -/
def asmCommand (base : Nat) (i : Instr) : Access := asmSw base 0x00C (encode i)

/-- `setimm V` (30_encoding.md R93). -/
def asmSetimm (base : Nat) (v : Word) : Access := asmSw base 0x028 v

/-- `cfg OPSZ, DIGLEN` (30_encoding.md R93). -/
def asmCfg (base : Nat) (opsz diglen : BitVec 8) : Access := asmSw base 0x008 ((0 : BitVec 16) ++ diglen ++ opsz)

/-- `ctrl HASHALG, RFCRETRY` (30_encoding.md R93). -/
def asmCtrl (base : Nat) (alg : BitVec 4) (rfcRetry : Bool) : Access :=
  asmSw base 0x004 ((0 : BitVec 24) ++ alg ++ (0 : BitVec 3) ++ BitVec.ofBool rfcRetry)

/-- `maxatt M` (30_encoding.md R93). -/
def asmMaxatt (base : Nat) (m : BitVec 8) : Access := asmSw base 0x01C ((0 : BitVec 24) ++ m)

/-- `ack` (30_encoding.md R93). -/
def asmAck (base : Nat) : Access := asmSw base 0x018 0x3

/-- One poll of `wait`; the branch is the host CPU's (30_encoding.md R93). -/
def asmPoll (base : Nat) : Access := asmLw base 0x010

/-- `wrbuf BUF, b0 b1 …`, byte by byte from index j (30_encoding.md R93). -/
def asmWrbuf (base : Nat) (x : Buf) (j : Nat) : Bytes → List Access
  | [] => []
  | b :: bs => asmSb base (bufBase x + j) (b.setWidth 32) :: asmWrbuf base x (j + 1) bs

/-- `rdbuf BUF, L` (30_encoding.md R93). -/
def asmRdbuf (base : Nat) (x : Buf) (len : Nat) : List Access :=
  (List.range len).map fun j => asmLb base (bufBase x + j)

end Sys2Proof.Machine
end

