-- ==== Sys2Proof/Tests/Slice0.lean ====
section
/-! SUPPORT. Tests of the model against the spec's own vectors (95_test_vectors.md), and for every obligation with
hypotheses a concrete state that meets them. -/

namespace Sys2Proof.Tests

open Sys2Proof Sys2Proof.Machine

-- One kernel evaluation at a time: each `decide +kernel` below would otherwise hold a thread of its own.
set_option Elab.async false

/-! ## Ill-formed commands are refused (30_encoding.md R83, R84, R92) -/

theorem test_size_of_256_is_ill_formed : (Instr.add 256).wellFormed = false := by decide
theorem test_cmp_size_of_256_is_ill_formed : (Instr.cmp 256 0).wellFormed = false := by decide
theorem test_carry_of_two_is_ill_formed : (Instr.cmp 4 2).wellFormed = false := by decide
theorem test_carry_of_minus_two_is_ill_formed : (Instr.cmp 4 (-2)).wellFormed = false := by decide
theorem test_largest_size_is_well_formed : (Instr.cmp 255 (-1)).wellFormed = true := by decide

/-! ## Decoding: words written out field by field, RSV CIN SZ OPC (30_encoding.md R80, R87; V-ENC) -/

/-- A word from its four fields, written as bits. -/
def bitsOf (rsv : BitVec 14) (cin : BitVec 2) (sz opc : BitVec 8) : Word := rsv ++ cin ++ sz ++ opc

theorem test_decode_nop : decode (bitsOf 0b0 0b00 0b00000000 0b00000000) = .ok .nop := by rfl
theorem test_decode_zeroize : decode (bitsOf 0b0 0b00 0b00000000 0b00000001) = .ok .zeroize := by rfl
theorem test_decode_cmp : decode (bitsOf 0b0 0b11 0b00100000 0b00010000) = .ok (.cmp 32 (-1)) := by rfl
theorem test_decode_cmp_plus_one : decode (bitsOf 0b0 0b01 0b00000100 0b00010000) = .ok (.cmp 4 1) := by rfl
theorem test_decode_add : decode (bitsOf 0b0 0b00 0b00000010 0b00010001) = .ok (.add 2) := by rfl
theorem test_decode_sub : decode (bitsOf 0b0 0b00 0b00000100 0b00010010) = .ok (.sub 4) := by rfl
theorem test_decode_rshift : decode (bitsOf 0b0 0b00 0b10000001 0b00010011) = .ok (.rshift 129) := by rfl
theorem test_decode_trunc : decode (bitsOf 0b0 0b00 0b01000010 0b00010100) = .ok (.trunc 66) := by rfl
theorem test_decode_bits2int : decode (bitsOf 0b0 0b00 0b00000011 0b00010101) = .ok (.bits2int 3) := by rfl
theorem test_decode_bits2oct : decode (bitsOf 0b0 0b00 0b00100000 0b00010110) = .ok (.bits2oct 32) := by rfl
theorem test_decode_d2op : decode (bitsOf 0b0 0b00 0b11111111 0b00010111) = .ok (.d2op 255) := by rfl
theorem test_decode_nonceRnd : decode (bitsOf 0b0 0b00 0b00000000 0b00100000) = .ok .nonceRnd := by rfl
theorem test_decode_nonceDet : decode (bitsOf 0b0 0b00 0b00000000 0b00100001) = .ok .nonceDet := by rfl
theorem test_decode_signRnd : decode (bitsOf 0b0 0b00 0b00000000 0b00110000) = .ok .signRnd := by rfl
theorem test_decode_signDet : decode (bitsOf 0b0 0b00 0b00000000 0b00110001) = .ok .signDet := by rfl

theorem test_decode_reserved_carry : decode 0x00020010 = .error .carryReserved := by rfl
theorem test_decode_size_unused : decode 0x00000120 = .error .sizeUnused := by rfl
theorem test_decode_reserved_bit : decode 0x00040011 = .error .reservedBits := by rfl
theorem test_decode_unassigned : decode 0x00000002 = .error .unassignedOpcode := by rfl
theorem test_decode_carry_unused : decode 0x00010411 = .error .carryUnused := by rfl
theorem test_decode_top_bit : decode 0x80000000 = .error .reservedBits := by rfl

/-- The bytes of 0x00032010 in bus order (20_memory.md R54), and a byte string that is no word. -/
theorem test_decode_bytes : decodeBytes [0x10, 0x20, 0x03, 0x00] = .ok (.cmp 32 (-1)) ∧
    decodeBytes [0x10, 0x20, 0x03] = .error .notOneWord := by decide +kernel

theorem test_encode_cmp : encode (.cmp 32 (-1)) = 0x00032010 := by decide +kernel

/-! ## Small states -/

/-- EX1 (00_scope.md R7), at the base address 0x1000. -/
def ex1 : Params where
  base := 0x1000
  maxOpsz := 66
  maxHlen := 64
  digestSizes := none :: some 32 :: List.replicate 14 none
  rndMaxDraws := 8
  d2opSelect := .trailing
  hmacRows := []

/-- EX1 after reset with operands in A and B, a value in ALU_IMM and an order in N. -/
def bigState (a b n : Bytes) (imm : Word) : State :=
  { State.resetWith ex1 Oracles.unscripted [] [] ⟨false, 0⟩ with
    opsz8 := BitVec.ofNat 8 n.length
    aluImm := imm
    mem := memWriteBytes (memWriteBytes (memWriteBytes [] 0x200 n) 0x280 a) 0x300 b }

/-- One-byte operands and digests, two draws at most, and an HMAC unit whose five answers for KEY = 02, DIGEST = AF and
N = 05 are given. -/
def toyParams : Params where
  base := 0x1000
  maxOpsz := 1
  maxHlen := 1
  digestSizes := none :: some 1 :: List.replicate 14 none
  rndMaxDraws := 2
  d2opSelect := .trailing
  hmacRows :=
    [⟨1, [0x00], [0x01, 0x00, 0x02, 0x00], [0x11]⟩, ⟨1, [0x11], [0x01], [0x22]⟩,
      ⟨1, [0x11], [0x22, 0x01, 0x02, 0x00], [0x33]⟩, ⟨1, [0x33], [0x22], [0x44]⟩, ⟨1, [0x33], [0x44], [0x60]⟩]

/-- KEY = 02, DIGEST = AF and N = 05, at a control point of the engine. -/
def toy (c : Control) : State :=
  { State.resetWith toyParams Oracles.unscripted [] [] ⟨false, 0⟩ with
    opsz8 := 1
    diglen8 := 1
    hashAlg := 1
    mem := [(0x100, 0x02), (0x180, 0xAF), (0x200, 0x05)]
    busy := true
    ctl := c }

/-- `toy` with a byte in T. -/
def toyT (c : Control) (b : Byte) : State :=
  { toy c with nonce := { NonceState.zero 1 with t := [b], tlen := 1 } }

/-- The state after `k` steps. -/
def after (k : Nat) (s : State) : Option State :=
  match runSteps k s with
  | .next t => some t
  | .fault _ => none
  | .refused _ => none

/-- What `f` sees after the one engine step of a command word. -/
def afterWord {α : Type} (s : State) (w : Nat) (f : State → α) : Option α := (after 1 (s.withFetchWord 32 w)).map f

/-- What `f` sees after one engine step at the state's control point. -/
def afterStep {α : Type} (s : State) (f : State → α) : Option α := (after 1 s).map f

/-! ## One engine step of each command (95_test_vectors.md) -/

theorem test_nop_status : afterWord (bigState [] [] [] 0) 0x00000000 (fun t => (t.regView .status, t.regView .intstat)) =
    some (0x00000002, 0x00000001) := by decide +kernel

theorem test_zeroize_wipes_a : afterWord (bigState [0x11, 0x22] [0x33] [0x05] 7) 0x00000001
    (fun t => (t.mem, t.aluImm, t.opsz8)) = some ([], 7, 1) := by decide +kernel

theorem test_cmp_pending_borrow : afterWord (bigState [0, 0, 1, 0] [0, 0, 0, 0xFF] [] 0) 0x00030410
    (fun t => t.regView .status) = some 0x00000002 := by decide +kernel

theorem test_cmp_less : afterWord (bigState [] [] [] 0) 0x00030410 (fun t => t.regView .status) =
    some 0x00003002 := by decide +kernel

theorem test_add_loses_the_carry : afterWord (bigState [0xFF, 0xFE] [] [] 3) 0x00000211
    (fun t => t.bytes .a 2) = some [0x00, 0x01] := by decide +kernel

theorem test_add_reduces_the_summand : afterWord (bigState [0xFF] [] [] 0x101) 0x00000111
    (fun t => t.bytes .a 2) = some [0x00, 0x00] := by decide +kernel

theorem test_sub_borrows : afterWord (bigState [0, 0, 0, 1] [0, 0, 0, 2] [] 0) 0x00000412
    (fun t => (t.bytes .r 4, t.regView .status)) = some ([0xFF, 0xFF, 0xFF, 0xFF], 0x00004002) := by decide +kernel

theorem test_sub_fills_with_zero : afterWord (bigState [1, 0] [0, 1] [] 0) 0x00000212
    (fun t => (t.bytes .r 4, t.borrow)) = some ([0x00, 0xFF, 0x00, 0x00], false) := by decide +kernel

theorem test_rshift : afterWord (bigState [0x80, 0, 0, 1] [] [] 3) 0x00000413
    (fun t => t.bytes .r 4) = some [0x10, 0, 0, 0] := by decide +kernel

theorem test_rshift_by_the_width : afterWord (bigState [0x80, 1] [] [] 16) 0x00000213
    (fun t => t.bytes .r 2) = some [0, 0] := by decide +kernel

theorem test_trunc_inside_a_byte : afterWord (bigState [0xFF, 0xFF, 0xFF, 0xFF] [] [] 13) 0x00000414
    (fun t => t.bytes .r 4) = some [0, 0, 0x1F, 0xFF] := by decide +kernel

theorem test_trunc_beyond_the_width : afterWord (bigState [0xFF, 0xFF] [] [] 100) 0x00000214
    (fun t => t.bytes .r 2) = some [0xFF, 0xFF] := by decide +kernel

theorem test_bits2int_shifts : afterWord (bigState [0xAB, 0xCD, 0xEF] [] [] 9) 0x00000315
    (fun t => t.bytes .r 3) = some [0x01, 0x57, 0x00] := by decide +kernel

theorem test_bits2int_refuses_529_bits : afterWord (bigState [0xAB] [] [] 529) 0x00000115
    (fun t => t.err) = some .invalidArgument := by decide +kernel

theorem test_bits2oct_subtracts_once : afterWord (bigState [0xFF] [] [0x05] 0) 0x00000116
    (fun t => t.bytes .r 2) = some [0x02, 0x00] := by decide +kernel

theorem test_bits2oct_refuses_order_one : afterWord (bigState [0xFF] [] [0x01] 0) 0x00000116
    (fun t => t.err) = some .invalidArgument := by decide +kernel

theorem test_d2op_keeps_the_trailing_bytes : afterWord (bigState [1, 2, 3, 4, 5] [] [0, 0, 0] 0) 0x00000517
    (fun t => t.bytes .r 4) = some [3, 4, 5, 0] := by decide +kernel

theorem test_d2op_pads : afterWord (bigState [1, 2] [] [0, 0, 0, 0] 0) 0x00000217
    (fun t => t.bytes .r 4) = some [0, 0, 1, 2] := by decide +kernel

/-- V-RND-1's second draw: 05 is the order, so the engine draws again. -/
theorem test_nonceRnd_redraws_the_order : afterStep (toyT (.running .nonceRnd .test) 0x05) (fun t => t.ctl) =
    some (.running .nonceRnd .draw) := by decide +kernel

/-- V-RND-1's third draw: 0B is masked to 03 and accepted. -/
theorem test_nonceRnd_masks_the_draw : afterStep (toyT (.running .nonceRnd .test) 0x0B) (fun t => (t.nonce.t, t.ctl)) =
    some ([0x03], .running .nonceRnd .finish) := by decide +kernel

theorem test_nonceDet_checks_the_digest_length : afterStep { toy (.running .nonceDet .start) with diglen8 := 31 }
    (fun t => (t.err, t.mem)) = some (.invalidArgument, [(0x200, 0x05)]) := by decide +kernel

/-- Step 6 with T = FF: 7 is not below 5 and RETRY = MAX_ATTEMPTS = 0 (42_nonce_rfc6979.md R149). -/
theorem test_nonceDet_exhausts : afterStep { toyT (.running .nonceDet .derive) 0xFF with
      nonce := ⟨[0], [0], [0xFF], 1, .step6, 0, true⟩, maxAtt := 0 } (fun t => t.err) =
    some .tooManyAttempts := by decide +kernel

/-- V-SGN-2: the digest operand is the trailing byte, and the nonce is written as it stands in T. -/
theorem test_signRnd_writes_the_nonce : afterStep { toyT (.running .signRnd .writeNonce) 0x03 with
      handle := some 7, oracles := { Oracles.unscripted with write := [.ok] } } (fun t => (t.trace, t.ctl)) =
    some ([.writeOperand (some 7) .nonce [0x03]], .running .signRnd .writeDigest) := by decide +kernel

/-- V-SGN-8: FATAL(BUSY) at the wait of attempt 2. -/
theorem test_signRnd_fatal_busy : afterStep { toyT (.running .signRnd .wait) 0x03 with
      attempts := 2, oracles := { Oracles.unscripted with wait := [.fatal .busy] } }
    (fun t => (t.err, t.regView .faultinfo, t.attempts)) = some (.hardwareFault, 2, 2) := by decide +kernel

/-- V-SGN-3: with RFCRETRY = 1 a retryable outcome leads to forced_reject, the state kept. -/
theorem test_signDet_continues : afterStep { toyT (.running .signDet .wait) 0x03 with
      attempts := 1, rfcRetry := true, nonce := ⟨[0x33], [0x60], [0x03], 1, .step6, 4, true⟩
      oracles := { Oracles.unscripted with wait := [.notInvertible] } }
    (fun t => (t.ctl, t.attempts, t.nonce)) =
    some (.running .signDet .reject, 2, ⟨[0x33], [0x60], [0x03], 1, .step6, 4, true⟩) := by decide +kernel

/-- V-SGN-5 with M = 0: the first retryable outcome is the last. -/
theorem test_signDet_exhausts_its_attempts : afterStep { toyT (.running .signDet .wait) 0x03 with
      attempts := 1, maxAtt := 0, oracles := { Oracles.unscripted with wait := [.invalidSignature] } }
    (fun t => (t.err, t.attempts)) = some (.tooManyAttempts, 1) := by decide +kernel

/-- V-ILL-1. -/
theorem test_illegal_word : afterWord (bigState [1] [2] [] 0) 0x00020010
    (fun t => (t.regView .status, t.bytes .a 1)) = some (0x00000052, [1]) := by decide +kernel

/-! ## The host port (V-MEM) -/

/-- `s` with two host accesses next. -/
def withHost (s : State) (a b : Access) : State := { s with inputs := [.host a, .host b] }

theorem test_port_word_then_byte :
    (after 2 (withHost (bigState [] [] [] 0) (asmSw 0x1000 0x280 0x44332211) (asmLb 0x1000 0x283))).map
      (fun t => (t.bytes .a 4, t.resp)) = some ([0x11, 0x22, 0x33, 0x44], ⟨false, 0x44⟩) := by decide +kernel

theorem test_port_refuses :
    (after 1 (withHost (bigState [] [] [] 0) (asmSh 0x1000 0x004 1) (asmLb 0x1000 0x283))).map
      (fun t => (t.hashAlg, t.rfcRetry, t.resp)) = some (0, false, ⟨true, 0⟩) := by decide +kernel

theorem test_port_reserved_bits :
    (after 2 (withHost (bigState [] [] [] 0) (asmSw 0x1000 0x004 0xFFFFFFFF) (asmLw 0x1000 0x004))).map
      (fun t => t.resp) = some ⟨false, 0xF1⟩ := by decide +kernel

theorem test_port_busy_write :
    (after 2 (withHost (toy (.running .nonceDet .derive)) (asmSw 0x1000 0x008 0x2020) (asmLb 0x1000 0x400))).map
      (fun t => (t.opsz8, t.werrPend, t.resp)) = some (1, true, ⟨false, 0⟩) := by decide +kernel

theorem test_port_above_bufcap :
    (after 2 (withHost (bigState [] [] [] 0) (asmSb 0x1000 0x2C2 0x55) (asmLb 0x1000 0x2C2))).map
      (fun t => (t.mem, t.resp)) = some ([], ⟨false, 0⟩) := by decide +kernel

/-! ## Witnesses: states and operands that meet the hypotheses of the obligations -/

/-- EX1 with a host write next. -/
def hostWrite (o : Nat) (n : Width) (v : Word) : State :=
  { bigState [] [] [] 0 with inputs := [.host (.write (0x1000 + o) n v)] }

/-- EX1 with a host read next. -/
def hostRead (o : Nat) (n : Width) : State := { bigState [] [] [] 0 with inputs := [.host (.read (0x1000 + o) n)] }

/-- `toy` with an oracle script. -/
def toyO (c : Control) (o : Oracles) : State := { toyT c 0x03 with oracles := o }

theorem ex1_ok : ex1.ok := by decide +kernel

theorem toyParams_ok : toyParams.ok := by decide +kernel

theorem witness_EncodeThenDecode : (Instr.cmp 255 (-1)).wellFormed = true ∧ (Instr.d2op 0).wellFormed = true := by decide

theorem witness_DecodedWord : decode 0x0003FF10 = .ok (.cmp 255 (-1)) := by rfl

theorem witness_IllegalWords : (bigState [] [] [] 0).busy = false ∧ decode 0x00040000 = .error .reservedBits ∧
    { bigState [] [] [] 0 with inputs := [.host (.write 0x100C .w32 0x00040000), .engine] }.hostNext
      (.write · .w32 0x00040000) 0x00C [.engine] := by
  refine ⟨rfl, rfl, rfl⟩

theorem witness_StepRuns : decode (BitVec.ofNat 32 (0x00000411 % 2 ^ 32)) = .ok (.add 4) ∧
    { toy (.running .nonceRnd .draw) with inputs := [.engine, .reset] }.inputs = .engine :: [.reset] ∧
    (toy (.running .nonceRnd .draw)).ctl = .running .nonceRnd .draw ∧ (toy (.running .nonceRnd .draw)).inputs = [] := by
  refine ⟨rfl, rfl, rfl, rfl⟩

theorem witness_CommandAcceptance : (hostWrite 0x00C .w32 0x30).hostNext (.write · .w32 0x30) 0x00C [] ∧
    (hostWrite 0x00C .w32 0x30).busy = false ∧ { hostWrite 0x00C .w32 0x30 with busy := true }.busy = true ∧
    { hostWrite 0x00C .w32 0x30 with busy := true }.hostNext (.write · .w32 0x30) 0x00C [] := by
  refine ⟨rfl, rfl, rfl, rfl⟩

theorem witness_ResetInput : { toy (.running .signDet .wait) with inputs := [.reset] }.inputs = .reset :: [] := rfl

/-- The sizes 1 and BUFCAP run, 0 and BUFCAP + 1 do not, and 255 still decodes. -/
theorem witness_Cmp : 1 ≤ 1 ∧ 1 ≤ (bigState [1] [1] [] 0).bufcap ∧ 66 ≤ (bigState [1] [1] [] 0).bufcap ∧
    ¬ (1 ≤ 0 ∧ 0 ≤ (bigState [1] [1] [] 0).bufcap) ∧ ¬ (1 ≤ 67 ∧ 67 ≤ (bigState [1] [1] [] 0).bufcap) ∧ 255 ≤ 255 := by
  decide +kernel

/-- ADD, SUB, RSHIFT and TRUNC: the same sizes over a canonical memory. -/
theorem witness_AddSubRshiftTrunc : memWf (bigState [1] [1] [] 9).mem = true ∧ 1 ≤ 66 ∧
    66 ≤ (bigState [1] [1] [] 9).bufcap ∧ ¬ (1 ≤ 0 ∧ 0 ≤ (bigState [1] [1] [] 9).bufcap) ∧
    ¬ (1 ≤ 67 ∧ 67 ≤ (bigState [1] [1] [] 9).bufcap) := by decide +kernel

/-- BITS2INT at 1 bit and at 8·BUFCAP bits, and refused at 0 and 8·BUFCAP + 1. -/
theorem witness_Bits2int : memWf (bigState [1] [] [] 1).mem = true ∧ 1 ≤ (bigState [1] [] [] 528).aluImm.toNat ∧
    (bigState [1] [] [] 528).aluImm.toNat ≤ 8 * (bigState [1] [] [] 528).bufcap ∧
    (bigState [1] [] [] 528).aluImm.toNat ≤ 8 * 66 ∧ 8 * 66 < (bigState [1] [] [] 528).aluImm.toNat + 8 ∧
    (bigState [1] [] [] 1).aluImm.toNat ≤ 8 * 1 ∧ 8 * 1 < (bigState [1] [] [] 1).aluImm.toNat + 8 ∧
    ¬ (1 ≤ (bigState [1] [] [] 0).aluImm.toNat ∧ (bigState [1] [] [] 0).aluImm.toNat ≤ 8 * 66) ∧
    ¬ (1 ≤ (bigState [1] [] [] 529).aluImm.toNat ∧ (bigState [1] [] [] 529).aluImm.toNat ≤ 8 * 66) := by decide +kernel

/-- BITS2OCT with the least order 2 (qlen 2), and refused with the order 1. -/
theorem witness_Bits2oct : memWf (bigState [0xFF] [] [0x02] 0).mem = true ∧
    1 = (bigState [0xFF] [] [0x02] 0).opsz8.toNat ∧ 2 = beInt ((bigState [0xFF] [] [0x02] 0).bytes .n 1) ∧
    1 ≤ (bigState [0xFF] [] [0x02] 0).params.maxOpsz ∧ 2 < 2 ^ 2 ∧ 2 ^ 2 ≤ 2 * 2 ∧
    3 = (if 2 < 8 * 1 then beInt ((bigState [0xFF] [] [0x02] 0).bytes .a 1) / 2 ^ (8 * 1 - 2) else 0xFF) ∧
    beInt ((bigState [0xFF] [] [0x01] 0).bytes .n 1) < 2 := by decide +kernel

theorem witness_D2op : 1 ≤ (bigState [1] [] [0, 0, 0] 0).opsz8.toNat ∧
    (bigState [1] [] [0, 0, 0] 0).opsz8.toNat ≤ (bigState [1] [] [0, 0, 0] 0).params.maxOpsz ∧
    memWf (bigState [1] [] [0, 0, 0] 0).mem = true ∧
    ¬ (1 ≤ { bigState [1] [] [] 0 with opsz8 := 67 }.opsz8.toNat ∧
      { bigState [1] [] [] 0 with opsz8 := 67 }.opsz8.toNat ≤ 66) := by decide +kernel

theorem witness_Bits2octets : 1 ≤ beInt [0x01] ∧ 1 ≤ beInt [0xFF, 0xFF] := by decide +kernel

theorem witness_Compare : ([0x00] : Bytes).length = ([0x01] : Bytes).length ∧ ([0x01] : Bytes).length = ([0xFF] : Bytes).length ∧
    cmp3 [0x00] [0x01] 0 = .less ∧ cmp3 [0x01] [0xFF] 0 = .less := by decide +kernel

theorem witness_Zeroize : (bigState [1] [2] [5] 0).params.ok ∧ memWf (bigState [1] [2] [5] 0).mem = true := by decide +kernel

/-- rnd_k: the bound, an unanswered call, FAIL, a draw, and a draw under test. -/
theorem witness_RndK : (toy (.running .nonceRnd .draw)).params.ok ∧ memWf (toy (.running .nonceRnd .draw)).mem = true ∧
    { toy (.running .signRnd .draw) with draws := 2 }.draws = toyParams.rndMaxDraws ∧
    (toy (.running .signRnd .draw)).draws ≠ toyParams.rndMaxDraws ∧
    (toy (.running .signRnd .draw)).oracles.entropy = [] ∧
    (toyO (.running .nonceRnd .draw) { Oracles.unscripted with entropy := [.fail] }).oracles.entropy = .fail :: [] ∧
    (toyO (.running .nonceRnd .draw) { Oracles.unscripted with entropy := [.bytes [0xF8]] }).oracles.entropy =
      .bytes [0xF8] :: [] ∧ ([0xF8] : Bytes).length = (toy (.running .nonceRnd .draw)).opsz ∧
    (toyT (.running .nonceRnd .test) 0x0B).q < 2 ^ 3 ∧ 2 ^ 3 ≤ 2 * (toyT (.running .nonceRnd .test) 0x0B).q ∧
    3 = beInt ((toyT (.running .nonceRnd .test) 0x0B).nonce.t.take (toy .idle).opsz) % 2 ^ 3 := by decide +kernel

/-- The checks of a nonce command pass, fail, and a candidate stands in T at the end of NONCE_RND; step 6 is
`witness_RfcReduce`'s. -/
theorem witness_NonceStarts : (toy (.running .nonceRnd .start)).params.ok ∧
    memWf (toy (.running .nonceRnd .start)).mem = true ∧
    (1 ≤ (toy (.running .nonceRnd .start)).opsz ∧ (toy (.running .nonceRnd .start)).opsz ≤ toyParams.maxOpsz ∧
      2 ≤ (toy (.running .nonceRnd .start)).q) ∧
    toyParams.digestSize (toy (.running .nonceDet .start)).hashAlg = some (toy (.running .nonceDet .start)).diglen ∧
    ¬ 2 ≤ { toy (.running .nonceRnd .start) with mem := [(0x200, 0x01)] }.q ∧
    (toyT (.running .nonceRnd .finish) 0x03).opsz ≤ (toyT (.running .nonceRnd .finish) 0x03).nonce.t.length ∧
    (toy (.running .nonceDet .start)).oracles.hmacAnswers ≠ some 0 := by
  decide +kernel

theorem witness_NonceRndEnds :
    (toyO (.running .nonceRnd .start) { Oracles.unscripted with entropy := [.bytes [0], .fail] }).justAccepted .nonceRnd ∧
    toyParams.rndMaxDraws ≤ [EntropyAnswer.bytes [0], .fail].length := by
  refine ⟨⟨rfl, rfl, rfl⟩, by decide⟩

/-- Each step of the RFC 6979 machine, and a unit that answers. -/
theorem witness_RfcSteps : (toyT (.running .signDet .derive) 0x03).ctl = .running .signDet .derive ∧
    (toyT (.running .signDet .derive) 0x03).oracles.hmacAnswers ≠ some 0 ∧
    (∀ st : RfcStep, { toy (.running .nonceDet .derive) with
      nonce := { NonceState.zero 1 with step := st } }.nonce.step = st) ∧
    min (toy .idle).hlen ((toy .idle).opsz - (toy .idle).nonce.tlen) ≤ (toy .idle).nonce.v.length := by
  refine ⟨rfl, by decide, fun _ => rfl, by decide +kernel⟩

/-- Step 6: c = 3 accepted, c = 7 rejected at the bound and below it. -/
theorem witness_RfcReduce :
    let s : State := { toyT (.running .nonceDet .derive) 0x60 with nonce := ⟨[0], [0], [0x60], 1, .step6, 0, true⟩ }
    let r : State := { toyT (.running .nonceDet .derive) 0xFF with nonce := ⟨[0], [0], [0xFF], 1, .step6, 255, true⟩ }
    s.params.ok ∧ memWf s.mem = true ∧ s.opsz ≤ s.params.maxOpsz ∧ s.opsz ≤ s.nonce.t.length ∧ s.q < 2 ^ 3 ∧ 2 ^ 3 ≤ 2 * s.q ∧
      3 = (if 3 < 8 * s.opsz then beInt (s.nonce.t.take s.opsz) / 2 ^ (8 * s.opsz - 3)
        else beInt (s.nonce.t.take s.opsz)) ∧ (1 ≤ 3 ∧ 3 < s.q) ∧
      7 = (if 3 < 8 * r.opsz then beInt (r.nonce.t.take r.opsz) / 2 ^ (8 * r.opsz - 3)
        else beInt (r.nonce.t.take r.opsz)) ∧ ¬ (1 ≤ 7 ∧ 7 < r.q) ∧ r.nonce.retry = r.maxAtt ∧
      s.nonce.retry ≠ s.maxAtt ∧ s.oracles.hmacAnswers ≠ some 0 := by decide +kernel

theorem toy_base (c : Control) : Base (toy c) where
  params := toyParams_ok
  memForm := by rfl
  memRange := memInBuffers_of_cells (by
    show ∀ c ∈ ([(0x100, 0x02), (0x180, 0xAF), (0x200, 0x05)] : Memory),
      ∃ x ∈ allBufs, bufBase x ≤ c.1 ∧ c.1 < bufBase x + toyParams.bufcap
    decide)
  attempts := by show (0 : BitVec 9).toNat ≤ 256; decide

theorem toy_base_with (c : Control) (o : Oracles) (m : BitVec 8) : Base { toy c with oracles := o, maxAtt := m } :=
  ⟨toyParams_ok, (toy_base c).memForm, (toy_base c).memRange, (toy_base c).attempts⟩

/-- A command just accepted over `toy` meets the invariant. -/
theorem toy_inv (i : Instr) (o : Oracles) : { toy (.running i .start) with oracles := o }.Inv :=
  inv_start (i := i) (toy_base_with _ _ _)
    ⟨rfl, rfl, rfl, rfl⟩ rfl rfl rfl rfl

theorem witness_EqualInputs : (toy (.running .nonceDet .start)).Inv ∧ (toy (.running .nonceDet .start)).justAccepted .nonceDet ∧
    (toy (.running .nonceDet .start)).oracles.hmacAnswers = none :=
  ⟨toy_inv .nonceDet _, ⟨rfl, rfl, rfl⟩, rfl⟩

/-- `toy` with the K/V chain of its HMAC unit: T0 = 00, and the first candidate is 3. -/
theorem witness_NonceDetGives : (toy (.running .nonceDet .start)).Inv ∧
    (toy (.running .nonceDet .start)).justAccepted .nonceDet ∧
    (let s := toy (.running .nonceDet .start)
     s.oracles.hmacAnswers = none ∧ s.checksOf .nonceDet = true ∧ s.opsz ≤ s.hlen ∧
      [0x00] = bits2octets (s.bytes .digest s.hlen) (s.bytes .n s.opsz) ∧
      [0x11] = s.hmac (List.replicate s.hlen 0x00) (List.replicate s.hlen 0x01 ++ [0x00] ++ s.bytes .key s.opsz ++ [0x00]) ∧
      [0x22] = s.hmac [0x11] (List.replicate s.hlen 0x01) ∧
      [0x33] = s.hmac [0x11] ([0x22] ++ [0x01] ++ s.bytes .key s.opsz ++ [0x00]) ∧
      [0x44] = s.hmac [0x33] [0x22] ∧ [0x60] = s.hmac [0x33] [0x44] ∧
      3 = bits2int (([0x60] : Bytes).take s.opsz) (bitlen s.q) ∧ 1 ≤ 3 ∧ 3 < s.q) :=
  ⟨toy_inv .nonceDet _, ⟨rfl, rfl, rfl⟩, by decide +kernel⟩

/-- One HMAC block to a candidate, and two where the operand is longer than the digest by a byte. -/
theorem witness_NonceDetCounts : (toy (.running .nonceDet .start)).Inv ∧
    (toy (.running .nonceDet .start)).justAccepted .nonceDet ∧
    (toy (.running .nonceDet .start)).oracles.hmacAnswers = none ∧
    (toy (.running .nonceDet .start)).checksOf .nonceDet = true ∧
    (toy (.running .nonceDet .start)).opsz ≤ 1 * (toy (.running .nonceDet .start)).hlen ∧
    1 * (toy (.running .nonceDet .start)).hlen <
      (toy (.running .nonceDet .start)).opsz + (toy (.running .nonceDet .start)).hlen ∧ 33 ≤ 2 * 32 ∧ 2 * 32 < 33 + 32 :=
  ⟨toy_inv .nonceDet _, ⟨rfl, rfl, rfl⟩, rfl, by decide +kernel, by decide +kernel, by decide +kernel, by decide, by decide⟩

theorem witness_SignStarts : (toy (.running .signDet .start)).params.ok ∧ memWf (toy (.running .signDet .start)).mem = true ∧
    (toyParams.digestSize (toy (.running .signDet .start)).hashAlg = some (toy (.running .signDet .start)).diglen ∧
      1 ≤ (toy (.running .signDet .start)).opsz ∧ (toy (.running .signDet .start)).opsz ≤ toyParams.maxOpsz ∧
      2 ≤ (toy (.running .signDet .start)).q) ∧
    toyParams.digestSize { toy (.running .signRnd .start) with hashAlg := 0 }.hashAlg ≠ some 1 := by decide +kernel

/-- Every channel call answered, and every channel call failed. -/
theorem witness_Submit :
    (toyO (.running .signDet .acquire) { Oracles.unscripted with acquire := [.ok 7] }).oracles.acquire = .ok 7 :: [] ∧
    (toyO (.running .signRnd .acquire) { Oracles.unscripted with acquire := [.fatal .uninit] }).oracles.acquire =
      .fatal .uninit :: [] ∧
    (toyO (.running .signDet .writePriv) { Oracles.unscripted with write := [.ok] }).oracles.write = .ok :: [] ∧
    (toyO (.running .signDet .writeNonce) { Oracles.unscripted with write := [.fatal .dma] }).oracles.write =
      .fatal .dma :: [] ∧
    (toyO (.running .signRnd .run) { Oracles.unscripted with run := [.ok] }).oracles.run = .ok :: [] ∧
    (toyO (.running .signRnd .run) { Oracles.unscripted with run := [.fatal .busy] }).oracles.run = .fatal .busy :: [] ∧
    (toy (.running .signRnd .run)).params.ok ∧ memWf (toy (.running .signRnd .run)).mem = true := by decide +kernel

theorem witness_SignSuccess :
    (toyO (.running .signRnd .wait) { Oracles.unscripted with wait := [.success [2] [1]] }).oracles.wait =
      .success [2] [1] :: [] ∧ ([2] : Bytes).length = (toy .idle).opsz ∧ (toy .idle).opsz ≤ toyParams.maxOpsz ∧
    toyParams.ok ∧ memWf (toy .idle).mem = true := by decide +kernel

/-- A retryable outcome on the last attempt, before it, and a FATAL. -/
theorem witness_Retryable :
    { toyO (.running .signRnd .wait) { Oracles.unscripted with wait := [.notInvertible] } with
      attempts := 256 }.attempts.toNat = (toy .idle).maxAtt.toNat + 1 ∧
    { toyO (.running .signDet .wait) { Oracles.unscripted with wait := [.invalidSignature] } with
      attempts := 255, rfcRetry := true }.attempts.toNat ≠ (toy .idle).maxAtt.toNat + 1 ∧
    (toyO (.running .signDet .wait) { Oracles.unscripted with wait := [.fatal .dma] }).oracles.wait = .fatal .dma :: [] := by
  decide +kernel

theorem witness_ForcedReject : (toyT (.running .signDet .reject) 0x03).ctl = .running .signDet .reject ∧
    (toyT (.running .signDet .reject) 0x03).oracles.hmacAnswers ≠ some 0 := by
  refine ⟨rfl, by decide⟩

/-- Oracles that let SIGN_RND sign on its first attempt. -/
def signing : Oracles where
  entropy := [.bytes [0x0B]]
  acquire := [.ok 7]
  write := [.ok, .ok, .ok]
  run := [.ok]
  wait := [.success [2] [1]]
  hmacAnswers := none

theorem witness_SignRndFirst :
    let s : State := { toy (.running .signRnd .start) with oracles := signing }
    s.Inv ∧ s.justAccepted .signRnd ∧ s.checksOf .signRnd = true ∧ s.oracles.entropy = .bytes [0x0B] :: [] ∧
      ([0x0B] : Bytes).length = s.opsz ∧ 3 = beInt [0x0B] % 2 ^ bitlen s.q ∧ 1 ≤ 3 ∧ 3 < s.q ∧
      s.oracles.acquire = .ok 7 :: [] ∧ s.oracles.write = .ok :: .ok :: .ok :: [] ∧ s.oracles.run = .ok :: [] ∧
      s.oracles.wait = .success [2] [1] :: [] ∧ ([2] : Bytes).length = s.opsz ∧ ([1] : Bytes).length = s.opsz :=
  ⟨toy_inv .signRnd signing, ⟨rfl, rfl, rfl⟩, by decide +kernel⟩

/-- Oracles that make one attempt of SIGN_RND fail. -/
def failing : Oracles := { signing with wait := [.notInvertible] }

theorem witness_SignRndExhausts :
    let s : State := { toy (.running .signRnd .start) with oracles := failing, maxAtt := 0 }
    s.Inv ∧ s.justAccepted .signRnd ∧ s.checksOf .signRnd = true ∧ 1 = s.maxAtt.toNat + 1 ∧
      (∀ e ∈ [[(0x0B : Byte)]], e.length = s.opsz ∧ 1 ≤ beInt e % 2 ^ bitlen s.q ∧ beInt e % 2 ^ bitlen s.q < s.q) ∧
      (∀ a ∈ [WaitAnswer.notInvertible], a = .notInvertible ∨ a = .invalidSignature) ∧
      s.oracles.entropy = [[(0x0B : Byte)]].map .bytes ++ [] ∧ s.oracles.acquire = [7].map .ok ++ [] ∧
      s.oracles.write = List.replicate (3 * 1) .ok ++ [] ∧ s.oracles.run = List.replicate 1 .ok ++ [] ∧
      s.oracles.wait = [.notInvertible] ++ [] :=
  ⟨inv_start (i := .signRnd) (toy_base_with _ _ _) ⟨rfl, rfl, rfl, rfl⟩ rfl rfl rfl rfl, ⟨rfl, rfl, rfl⟩, by decide +kernel⟩

/-- A byte access to a register and a misaligned word are illegal; the last register and the last byte are legal. -/
theorem witness_PortRefuses : ¬ (0x0FC < 0x100 ∧ widthBytes .w8 = 4 ∧ 0x0FC % 4 = 0 ∨ 0x100 ≤ 0x0FC ∧ 0x0FC % widthBytes .w8 = 0) ∧
    ¬ (0x102 < 0x100 ∧ widthBytes .w32 = 4 ∧ 0x102 % 4 = 0 ∨ 0x100 ≤ 0x102 ∧ 0x102 % widthBytes .w32 = 0) ∧
    (0x0FC < 0x100 ∧ widthBytes .w32 = 4 ∧ 0x0FC % 4 = 0) ∧ (0x100 ≤ 0xFFF ∧ 0xFFF % widthBytes .w8 = 0) ∧
    (hostRead 0xFFF .w8).hostNext (.read · .w8) 0xFFF [] ∧
    (hostWrite 0x102 .w32 1).hostNext (.write · .w32 1) 0x102 [] := by
  refine ⟨by decide, by decide, by decide, by decide, rfl, rfl⟩

theorem witness_Outside : 0xFFF < ex1.base ∧ ex1.base + 0x1000 ≤ 0x2000 ∧
    { bigState [] [] [] 0 with inputs := [.host (.read 0x2000 .w8)] }.inputs = .host (.read 0x2000 .w8) :: [] := by
  refine ⟨by decide, by decide, rfl⟩

/-- Writes while busy: at ALU_IMM, at the last byte of KEY, at INTEN, at INTSTAT, and at bytes that ignore writes. -/
theorem witness_BusyWrites : { hostWrite 0x028 .w32 1 with busy := true }.params.ok ∧ legal 0x028 .w32 = true ∧
    0x028 ∈ [0x004, 0x008, 0x00C, 0x01C, 0x028] ∧ legal 0x141 .w8 = true ∧
    0x041 < (hostWrite 0x141 .w8 1).bufcap ∧ 0x141 = bufBase .key + 0x041 ∧ ¬ 0x042 < (hostWrite 0x142 .w8 1).bufcap ∧
    legal 0x014 .w32 = true ∧ legal 0x018 .w32 = true ∧ legal 0x010 .w32 = true ∧ legal 0x380 .w8 = true ∧
    ¬ 0x010 ∈ [0x004, 0x008, 0x00C, 0x01C, 0x028] := by decide +kernel

/-- A buffer read while busy, and register reads busy or not. -/
theorem witness_BusyReads : { hostRead 0x100 .w8 with busy := true }.busy = true ∧ legal 0x100 .w8 = true ∧
    (hostRead 0x100 .w8).hostNext (.read · .w8) 0x100 [] ∧ legal 0x02C .w32 = true ∧
    (hostRead 0x02C .w32).busy = false ∧ (hostRead 0x02C .w32).hostNext (.read · .w32) 0x02C [] := by
  refine ⟨rfl, by decide, rfl, by decide, rfl, rfl⟩

theorem witness_BufferWindows : (hostRead 0x2C1 .w8).params.ok ∧ memWf (hostRead 0x2C1 .w8).mem = true ∧
    (hostRead 0x2C1 .w8).busy = false ∧ 0x41 < 128 ∧ 127 < 128 ∧ (hostRead 0x2C1 .w8).hostNext (.read · .w8) (bufBase .a + 0x41) [] ∧
    (hostWrite 0x57F .w8 1).hostNext (.write · .w8 1) (bufBase .sigS + 127) [] := by
  refine ⟨ex1_ok, by decide +kernel, rfl, by decide, by decide, rfl, rfl⟩

/-- A word that crosses BUFCAP = 66 in A and in KEY, and the last half-word of a window. -/
theorem witness_ByteLanes : (hostRead 0x2C0 .w32).params.ok ∧ memWf (hostRead 0x2C0 .w32).mem = true ∧
    (hostRead 0x2C0 .w32).busy = false ∧ 64 % 4 = 0 ∧ 64 + 4 ≤ 128 ∧ 126 % 2 = 0 ∧ 126 + 2 ≤ 128 ∧
    64 + 1 < (hostRead 0x2C0 .w32).bufcap ∧ ¬ 64 + 2 < (hostRead 0x2C0 .w32).bufcap ∧
    (hostRead 0x2C0 .w32).hostNext (.read · .w32) (bufBase .a + 64) [] ∧
    (hostWrite 0x140 .w32 1).hostNext (.write · .w32 1) (bufBase .key + 64) [] ∧
    (hostRead 0x57E .w16).hostNext (.read · .w16) (bufBase .sigS + 126) [] := by
  refine ⟨ex1_ok, by decide +kernel, rfl, by decide, by decide, by decide, by decide, by decide, by decide, rfl, rfl, rfl⟩

/-- The first and last reserved offsets, a reserved byte of a window, a read-only register, and a register with reserved
fields. -/
theorem witness_Reserved : legal 0x030 .w32 = true ∧ legal 0x0FC .w32 = true ∧ legal 0x580 .w8 = true ∧
    legal 0xFFF .w8 = true ∧ legal 0x142 .w16 = true ∧ (hostRead 0x142 .w16).bufcap ≤ 66 ∧ 0x142 = bufBase .key + 66 ∧
    legal 0x02C .w32 = true ∧ (0x010, (0x00FF7FF3 : Word)) ∈ [((0x010 : Nat), (0x00FF7FF3 : Word))] ∧
    (hostRead 0x030 .w32).hostNext (.read · .w32) 0x030 [] ∧
    (hostWrite 0xFFF .w8 1).hostNext (.write · .w8 1) 0xFFF [] ∧
    (hostWrite 0x02C .w32 1).hostNext (.write · .w32 1) 0x02C [] := by
  refine ⟨by decide, by decide, by decide, by decide, by decide, by decide, by decide, by decide, by simp, rfl, rfl, rfl⟩

/-- The read-write registers, INTEN and INTSTAT among them. -/
theorem witness_Registers : (hostWrite 0x004 .w32 0xFF).hostNext (.write · .w32 0xFF) 0x004 [] ∧
    (hostWrite 0x008 .w32 0xFF).hostNext (.write · .w32 0xFF) 0x008 [] ∧
    (hostWrite 0x014 .w32 3).hostNext (.write · .w32 3) 0x014 [] ∧
    (hostWrite 0x018 .w32 3).hostNext (.write · .w32 3) 0x018 [] ∧
    (hostWrite 0x01C .w32 0).hostNext (.write · .w32 0) 0x01C [] ∧
    (hostWrite 0x028 .w32 1).hostNext (.write · .w32 1) 0x028 [] ∧ (hostWrite 0x028 .w32 1).busy = false := by
  refine ⟨rfl, rfl, rfl, rfl, rfl, rfl, rfl⟩

/-- An engine step that ends a command: busy before, not busy after. -/
theorem witness_CommandEnds : ∃ t, exec .nop (toy (.running .nop .start)) = .next t ∧
    (toy (.running .nop .start)).busy = true ∧ t.busy = false ∧ (toy (.running .nop .start)).faultInfo = .none :=
  ⟨_, rfl, rfl, rfl, rfl⟩

/-- The same for a nonce and for a signing command that fails. -/
theorem witness_SessionEnds : (∃ t, exec .nonceRnd (toyT (.running .nonceRnd .finish) 0x03) = .next t ∧ t.busy = false) ∧
    ∃ t, exec .signDet { toy (.running .signDet .start) with diglen8 := 0 } = .next t ∧ t.busy = false ∧ t.err ≠ .none := by
  refine ⟨⟨_, rfl, rfl⟩, _, rfl, by decide +kernel, by decide +kernel⟩

theorem witness_Qlen : (bigState [] [] [0x05] 0).params.ok := ex1_ok

theorem witness_Reads : (hostRead 0x100 .w32).inputs = .host (.read 0x1100 .w32) :: [] ∧
    ∃ t, step (hostRead 0x100 .w32) = .next t := ⟨rfl, _, rfl⟩

/-- Two states that differ in KEY only. -/
theorem witness_Secrets (k : Nat) (hk : ¬ (0x100 ≤ k ∧ k < 0x200)) :
    memRead [(0x100, 0x55)] k = memRead (hostRead 0x280 .w32).mem k := by
  rw [memRead, if_neg (by omega)]; rfl

/-- A step inside a command, busy before and after. -/
theorem witness_InputsStay : ∃ t, step (toyT (.running .nonceRnd .test) 0x03) = .next t ∧ t.busy = true :=
  ⟨_, rfl, rfl⟩

/-- Each kind of oracle call that is not answered, step 6's with the rejected candidate 7 and step 0's at the start. -/
theorem witness_Unanswered : (toy (.running .signRnd .draw)).oracles.entropy = [] ∧
    (toy (.running .signRnd .draw)).draws ≠ (toy (.running .signRnd .draw)).params.rndMaxDraws ∧
    (toy (.running .signRnd .acquire)).oracles.acquire = [] ∧ (toy (.running .signRnd .writePriv)).oracles.write = [] ∧
    (toy (.running .signRnd .run)).oracles.run = [] ∧ (toy (.running .signRnd .wait)).oracles.wait = [] ∧
    (toyO (.running .nonceDet .derive) { Oracles.unscripted with hmacAnswers := some 0 }).oracles.hmacAnswers = some 0 ∧
    (toy (.running .nonceDet .derive)).nonce.step ≠ .step5 ∧
    (let s : State := { toyT (.running .nonceDet .derive) 0xFF with nonce := ⟨[0], [0], [0xFF], 1, .step6, 0, true⟩ }
     bits2int (s.nonce.t.take s.opsz) (bitlen s.q) = 7 ∧ s.q ≤ 7 ∧ s.nonce.retry ≠ s.maxAtt) ∧
    (toy (.running .signDet .start)).checksOf .signDet = true ∧
    (toy (.running .signRnd .wait)).busy = true ∧ (toy (.running .signRnd .wait)).inputs = [] := by decide +kernel

/-- A step of the host and a step of the engine inside SUB; neither is a reset. -/
theorem witness_Flags : (∃ t, step (hostRead 0x010 .w32) = .next t) ∧
    (hostRead 0x010 .w32).inputs = .host (.read 0x1010 .w32) :: [] ∧ (∃ t, step (toy (.running (.sub 1) .start)) = .next t) ∧
    (∀ sz cin p, (toy (.running (.sub 1) .start)).ctl ≠ .running (.cmp sz cin) p) ∧
    ∀ rest, (toy (.running (.sub 1) .start)).inputs ≠ .reset :: rest := by
  refine ⟨⟨_, rfl⟩, rfl, ⟨_, rfl⟩, ?_, ?_⟩
  · intro sz cin p h; injection h with h; cases h
  · intro rest h; cases h

theorem witness_EveryStep : (toy (.running .nonceDet .start)).Inv ∧ ∃ t, step (toy (.running .nonceDet .start)) = .next t :=
  ⟨toy_inv .nonceDet _, _, rfl⟩

theorem toy_run_nonce (i : Instr) (p : Point) (n : NonceState) (hi : i = .nonceRnd ∨ i = .nonceDet)
    (hl : n.k.length = 1 ∧ n.v.length = 1 ∧ n.t.length = 1 ∧ n.tlen ≤ 1) (hr : n.retry = 0) (hd : n.det = i.isDet) :
    Run i { toy (.running i p) with nonce := n } where
  base := ⟨toyParams_ok, (toy_base .idle).memForm, (toy_base .idle).memRange, (toy_base .idle).attempts⟩
  lengths := ⟨hl.1, hl.2.1, hl.2.2.1, rfl⟩
  tlen := hl.2.2.2
  busy := rfl
  done := rfl
  err := rfl
  secret := by rcases hi with rfl | rfl <;> rfl
  checks := by
    show (toy .idle).checksOf i = true
    rcases hi with rfl | rfl <;> decide +kernel
  draws := by show 0 ≤ 2; omega
  retry := by simp [hr]
  det := hd
  att := by rcases hi with rfl | rfl <;> intro h <;> cases h

/-- NONCE_RND at its last step with the candidate 3, and NONCE_DET at step 6 with T = 60, whose candidate is 3. -/
theorem witness_GivenNonce :
    (toyT (.running .nonceRnd .finish) 0x03).Inv ∧
    (∃ t, exec .nonceRnd (toyT (.running .nonceRnd .finish) 0x03) = .next t ∧ t.busy = false ∧ t.err = .none) ∧
    (let s : State := { toy (.running .nonceDet .derive) with nonce := ⟨[0], [0], [0x60], 1, .step6, 0, true⟩ }
     s.Inv ∧ ∃ t, exec .nonceDet s = .next t ∧ t.busy = false ∧ t.err = .none) := by
  refine ⟨inv_run (i := .nonceRnd) (p := .finish) (toy_run_nonce _ _ _ (.inl rfl) (by decide) rfl rfl)
    rfl rfl (by decide) (fun _ => by unfold State.candInRange; decide +kernel) (fun _ h => by cases h),
    ⟨_, rfl, rfl, rfl⟩,
    inv_run (i := .nonceDet) (p := .derive) (toy_run_nonce _ _ _ (.inr rfl) (by decide) rfl rfl)
      rfl rfl (by decide) (by simp [afterNonce]) (by simp [afterNonce]), ?_⟩
  refine ⟨_, rfl, ?_, ?_⟩ <;> decide +kernel

end Sys2Proof.Tests
end

section
/-! PROOFS. Every step keeps the invariant: the commands one by one, a host access, and the step itself. -/

namespace Sys2Proof.Machine

open Sys2Proof

variable {s t : State} {p : Point}

/-! ## Outcomes whose next state meets the invariant -/

/-- Whatever next state the outcome answers meets the invariant. -/
def NextInv (o : Outcome) : Prop := ∀ t, o = .next t → t.Inv

@[simp] theorem nextInv_next : NextInv (.next s) ↔ s.Inv :=
  ⟨fun h => h s rfl, fun h t e => by cases e; exact h⟩

@[simp] theorem nextInv_fault (r : Fault) : NextInv (.fault r) := fun _ e => by cases e

/-- Outside nonce and signing commands the hidden state is zero (60_exceptions.md R216). -/
theorem State.Inv.hiddenZero {i : Instr} (h : s.Inv) (hc : s.ctl = .running i p) (hs : isSecret i = false) :
    HiddenZero s :=
  h.wiped (by simp only [isSecret] at hs; simp [State.inside, hc, hs])

/-! ## The control family (44_control.md R200, R201) -/

theorem nextInv_execNop (h : s.Inv) (hc : s.ctl = .running .nop p) : NextInv (execNop s) :=
  nextInv_next.2 (plain_terminate h hc rfl h.base ⟨rfl, rfl, rfl, rfl, rfl⟩ .none (by simp))

theorem base_wipeOperands (h : Base s) : Base s.wipeOperands :=
  base_wipe (base_wipe (base_wipe (base_wipe (base_wipe (base_wipe (base_wipe h .n) .a) .b) .r) .nonce) .sigR) .sigS

@[simp] theorem hiddenZero_wipe (x : Buf) : HiddenZero (s.wipe x) ↔ HiddenZero s := Iff.rfl

theorem hiddenZero_wipeOperands (h : HiddenZero s) : HiddenZero s.wipeOperands := by
  simpa [State.wipeOperands] using h

theorem hiddenZero_zeroizeSession (s : State) : HiddenZero s.zeroizeSession := ⟨rfl, rfl, rfl, rfl⟩

theorem nextInv_execZeroize (h : s.Inv) : NextInv (execZeroize s) :=
  nextInv_next.2 <| inv_terminate (base_wipeOperands (base_zeroizeSession h.base))
    (.inr (hiddenZero_wipeOperands (hiddenZero_zeroizeSession s))) (by simp)

/-! ## The bigint family (40_bigint.md R100 to R107) -/

section Bigint

variable {sz : Nat}

/-- "Write R" keeps the parts of the invariant that a store can touch (40_bigint.md R99). -/
theorem base_writeR (h : Base s) {v : Bytes} (hv : v.length ≤ s.bufcap) : Base (s.writeR v) := base_fill h .r v hv

theorem imm_bytes_le (h : s.immOk = true) : (s.imm + 7) / 8 ≤ s.bufcap := by
  simp [State.immOk] at h; omega

theorem opsz_le_of_opszOk (h : s.opszOk = true) : s.opsz ≤ s.bufcap := by
  simp [State.opszOk] at h; simp only [State.bufcap, Params.bufcap]; omega

theorem opszOk_of_curveOk (h : s.curveOk = true) : s.opszOk = true := by
  simp [State.curveOk] at h; exact h.1

theorem nextInv_execCmp {cin : Int} (h : s.Inv) (hc : s.ctl = .running (.cmp sz cin) p) :
    NextInv (execCmp sz cin s) :=
  nextInv_next.2 <| inv_bigint h hc rfl _ _
    (fun _ => ⟨h.params, h.memForm, h.memRange, h.attempts⟩) ⟨rfl, rfl, rfl, rfl, rfl⟩

theorem nextInv_execAdd (h : s.Inv) (hc : s.ctl = .running (.add sz) p) : NextInv (execAdd sz s) :=
  nextInv_next.2 <| inv_bigint h hc rfl _ _
    (fun hk => base_setBytes h.base _ _ ((length_be _ _).trans_le (szOk_le hk))) ⟨rfl, rfl, rfl, rfl, rfl⟩

theorem nextInv_execSub (h : s.Inv) (hc : s.ctl = .running (.sub sz) p) : NextInv (execSub sz s) :=
  nextInv_next.2 <| inv_bigint h hc rfl _ _
    (fun hk =>
      have hb := base_writeR h.base ((length_be sz _).trans_le (szOk_le hk))
      ⟨hb.params, hb.memForm, hb.memRange, hb.attempts⟩)
    ⟨rfl, rfl, rfl, rfl, rfl⟩

theorem nextInv_execRshift (h : s.Inv) (hc : s.ctl = .running (.rshift sz) p) : NextInv (execRshift sz s) :=
  nextInv_next.2 <| inv_bigint h hc rfl _ _
    (fun hk => base_writeR h.base ((length_be _ _).trans_le (szOk_le hk))) ⟨rfl, rfl, rfl, rfl, rfl⟩

theorem nextInv_execTrunc (h : s.Inv) (hc : s.ctl = .running (.trunc sz) p) : NextInv (execTrunc sz s) :=
  nextInv_next.2 <| inv_bigint h hc rfl _ _
    (fun hk => base_writeR h.base ((length_be _ _).trans_le (szOk_le hk))) ⟨rfl, rfl, rfl, rfl, rfl⟩

theorem nextInv_execBits2int (h : s.Inv) (hc : s.ctl = .running (.bits2int sz) p) : NextInv (execBits2int sz s) :=
  nextInv_next.2 <| inv_bigint h hc rfl _ _
    (fun hk => base_writeR h.base ((length_be _ _).trans_le (imm_bytes_le (Bool.and_eq_true_iff.1 hk).2)))
    ⟨rfl, rfl, rfl, rfl, rfl⟩

theorem nextInv_execBits2oct (h : s.Inv) (hc : s.ctl = .running (.bits2oct sz) p) : NextInv (execBits2oct sz s) :=
  nextInv_next.2 <| inv_bigint h hc rfl _ _
    (fun hk => base_writeR h.base <| (length_bits2octets _ _).trans_le <| (length_bytes _ _).trans_le <|
      opsz_le_of_opszOk (opszOk_of_curveOk (Bool.and_eq_true_iff.1 hk).2))
    ⟨rfl, rfl, rfl, rfl, rfl⟩

theorem nextInv_execD2op (h : s.Inv) (hc : s.ctl = .running (.d2op sz) p) : NextInv (execD2op sz s) :=
  nextInv_next.2 <| inv_bigint h hc rfl _ _
    (fun hk => base_writeR h.base <| (length_digest2op _ _ _).trans_le <|
      opsz_le_of_opszOk (Bool.and_eq_true_iff.1 hk).2)
    ⟨rfl, rfl, rfl, rfl, rfl⟩

end Bigint

/-! ## The nonce commands (41_nonce_random.md R130, 42_nonce_rfc6979.md R142) -/

theorem nextInv_execNonceRnd (h : s.Inv) (hc : s.ctl = .running .nonceRnd p) : NextInv (execNonceRnd s) := by
  have hp := hp_of h hc
  rw [execNonceRnd, pointOf_running hc, nextInv_next]
  cases p <;> dsimp only
  case draw => exact inv_drawStep h (h.run hc rfl (by simp)) rfl
  case test => exact inv_testStep (h.run hc rfl (by simp)) rfl rfl rfl
  case finish => exact inv_giveNonce (h.run hc rfl (by simp))
  case start =>
    split_ifs with hk
    · have hr := run_start h hc rfl (by simpa [State.checksOf] using hk) rfl
      rw [run_start_f h hc rfl] at hr
      exact inv_startDraws hr rfl
    · exact inv_raise h.base rfl (by simp)
  all_goals exact absurd hp (by decide)

theorem nextInv_execNonceDet (h : s.Inv) (hc : s.ctl = .running .nonceDet p) : NextInv (execNonceDet s) := by
  have hp := hp_of h hc
  rw [execNonceDet, pointOf_running hc, nextInv_next]
  cases p <;> dsimp only
  case derive => exact inv_deriveStep h (h.run hc rfl (by simp)) hc rfl fun _ ha => inv_giveNonce ha.run
  case start =>
    split_ifs with hk
    · refine inv_enterDerive (run_start h hc rfl ?_ rfl) rfl
      simp only [Bool.and_eq_true] at hk
      simp [State.checksOf, hk]
    · exact inv_raise h.base rfl (by simp)
  all_goals exact absurd hp (by decide)

/-! ## The signing commands (43_retry_controller.md R172 to R176) -/

theorem nextInv_execSignRnd (h : s.Inv) (hc : s.ctl = .running .signRnd p) : NextInv (execSignRnd s) := by
  have hp := hp_of h hc
  have aft (ha : afterNonce p = true) : Aft .signRnd s := h.aft hc rfl ha
  rw [execSignRnd, pointOf_running hc, nextInv_next]
  cases p <;> dsimp only
  case start => exact inv_signStart h hc rfl
  case draw => exact inv_drawStep h (h.run hc rfl (by simp)) rfl
  case test => exact inv_testStep (h.run hc rfl (by simp)) rfl rfl rfl
  case acquire => exact inv_acquireStep (aft rfl) hc rfl
  case writePriv => exact inv_writeStep h (aft rfl) _ _ _ rfl rfl
  case writeNonce => exact inv_writeStep h (aft rfl) _ _ _ rfl rfl
  case writeDigest => exact inv_writeStep h (aft rfl) _ _ _ rfl rfl
  case run => exact inv_runStep h (aft rfl) rfl
  case wait => exact inv_waitStep h (aft rfl) rfl
  all_goals exact absurd hp (by decide)

theorem nextInv_execSignDet (h : s.Inv) (hc : s.ctl = .running .signDet p) : NextInv (execSignDet s) := by
  have hp := hp_of h hc
  have aft (ha : afterNonce p = true) : Aft .signDet s := h.aft hc rfl ha
  rw [execSignDet, pointOf_running hc, nextInv_next]
  cases p <;> dsimp only
  case start => exact inv_signStart h hc rfl
  case derive =>
    exact inv_deriveStep h (h.run hc rfl (by simp)) hc rfl fun _ ha => inv_aft (aft_goto ha .acquire) rfl rfl rfl
  case reject => exact inv_forcedReject h (h.run hc rfl (by simp)) rfl
  case acquire => exact inv_acquireStep (aft rfl) hc rfl
  case writePriv => exact inv_writeStep h (aft rfl) _ _ _ rfl rfl
  case writeNonce => exact inv_writeStep h (aft rfl) _ _ _ rfl rfl
  case writeDigest => exact inv_writeStep h (aft rfl) _ _ _ rfl rfl
  case run => exact inv_runStep h (aft rfl) rfl
  case wait => exact inv_waitStep h (aft rfl) rfl
  all_goals exact absurd hp (by decide)

/-! ## The engine -/

theorem nextInv_exec {i : Instr} (h : s.Inv) (hc : s.ctl = .running i p) : NextInv (exec i s) := by
  cases i with
  | nop => exact nextInv_execNop h hc
  | zeroize => exact nextInv_execZeroize h
  | cmp => exact nextInv_execCmp h hc
  | add => exact nextInv_execAdd h hc
  | sub => exact nextInv_execSub h hc
  | rshift => exact nextInv_execRshift h hc
  | trunc => exact nextInv_execTrunc h hc
  | bits2int => exact nextInv_execBits2int h hc
  | bits2oct => exact nextInv_execBits2oct h hc
  | d2op => exact nextInv_execD2op h hc
  | nonceRnd => exact nextInv_execNonceRnd h hc
  | nonceDet => exact nextInv_execNonceDet h hc
  | signRnd => exact nextInv_execSignRnd h hc
  | signDet => exact nextInv_execSignDet h hc

theorem nextInv_engineStep (h : s.Inv) : NextInv (engineStep s) := by
  unfold engineStep
  split
  next => exact nextInv_next.2 h
  next hc => exact nextInv_next.2 (inv_terminate h.base (.inr (h.wiped (by simp [State.inside, hc]))) (by simp))
  next hc => exact nextInv_exec h hc

/-! ## The host port (20_memory.md R55 to R58) -/

/-- A register write while BUSY = 0: acceptance, or a write of host-visible fields only. -/
theorem inv_regSet_idle (h : s.Inv) (hb : s.busy = false) (r : Reg) (v : Word) : (s.regSet r v).Inv := by
  have hB : Base s := h.base
  cases r
  case cmd => exact inv_accept h hb v
  all_goals
    exact inv_idle' h hb ⟨hB.params, hB.memForm, hB.memRange, hB.attempts⟩ ⟨rfl, rfl, rfl, rfl, rfl⟩ rfl rfl rfl

theorem inv_lanesWrite_idle (h : s.Inv) (hb : s.busy = false) (o : Nat) (v : Word) (n : Nat) :
    (s.lanesWrite o v n).Inv := by
  obtain ⟨hB, m, hm⟩ := lanesWrite_base h.base o v n
  rw [hm] at hB ⊢
  exact inv_idle' h hb hB ⟨rfl, rfl, rfl, rfl, rfl⟩ rfl rfl rfl

/-- While BUSY = 1 a write sets WERR, or reaches INTEN or INTSTAT (20_memory.md R58). -/
theorem inv_writeEffect_busy (h : s.Inv) (hb : s.busy = true) {o : Nat} {n : Width} {v : Word}
    (hw : s.writable o = true) : (s.writeEffect o n v).Inv := by
  by_cases ho : o = regOffset .inten ∨ o = regOffset .intstat
  · have hd : s.dropsWrite o = false := by rcases ho with rfl | rfl <;> simp [State.dropsWrite, regOffset]
    have hlt : o < 0x100 := by rcases ho with rfl | rfl <;> decide
    rw [State.writeEffect, if_neg (by simp [hd]), if_pos hlt, State.regWrite]
    rcases ho with rfl | rfl <;> rw [regAt_regOffset] <;> exact inv_frame h _ _ _ _ _ _
  · have hd : s.dropsWrite o = true := by simpa [State.dropsWrite, hb, hw, regOffset] using ho
    rw [State.writeEffect, if_pos hd]
    exact inv_frame h _ _ _ _ _ _

theorem inv_writeEffect_idle (h : s.Inv) (hb : s.busy = false) (o : Nat) (n : Width) (v : Word) :
    (s.writeEffect o n v).Inv := by
  rw [State.writeEffect, if_neg (by simp [dropsWrite_idle hb])]
  split_ifs
  · unfold State.regWrite
    split
    · exact inv_regSet_idle h hb _ v
    · exact h
  · exact inv_lanesWrite_idle h hb _ _ _

theorem inv_writeEffect (h : s.Inv) {o : Nat} {n : Width} {v : Word} (hl : legal o n = true) :
    (s.writeEffect o n v).Inv := by
  cases hw : s.writable o with
  | false => rwa [writeEffect_not_writable hl hw]
  | true =>
    cases hb : s.busy with
    | false => exact inv_writeEffect_idle h hb _ _ _
    | true => exact inv_writeEffect_busy h hb hw

theorem inv_respond (h : s.Inv) (e : Bool) (d : Word) : (s.respond e d).Inv := inv_frame h _ _ _ _ ⟨e, d⟩ _

theorem nextInv_portRead (h : s.Inv) (addr : Nat) (n : Width) : NextInv (portRead addr n s) := by
  unfold portRead
  split
  · exact nextInv_fault _
  · split_ifs <;> exact nextInv_next.2 (inv_respond h _ _)

theorem nextInv_portWrite (h : s.Inv) (addr : Nat) (n : Width) (v : Word) : NextInv (portWrite addr n v s) := by
  unfold portWrite
  split
  · exact nextInv_fault _
  · split_ifs with hl
    · exact nextInv_next.2 (inv_respond (inv_writeEffect h hl) _ _)
    · exact nextInv_next.2 (inv_respond h _ _)

theorem nextInv_hostStep (h : s.Inv) (a : Access) : NextInv (hostStep a s) := by
  cases a with
  | read addr n => exact nextInv_portRead h addr n
  | write addr n v => exact nextInv_portWrite h addr n v

/-! ## Reset and the step -/

theorem inv_resetInput (h : s.Inv) : s.resetInput.Inv :=
  inv_idle ⟨h.params, memWf_nil, fun _ ha => absurd rfl ha, Nat.zero_le _⟩ ⟨rfl, rfl, rfl, rfl⟩ rfl rfl (by simp)

theorem nextInv_step (h : s.Inv) : NextInv (step s) := by
  have taken (rest : List Input) : State.Inv { s with inputs := rest } := inv_frame h _ _ _ _ _ rest
  unfold step
  split
  next => exact nextInv_engineStep h
  next => exact nextInv_engineStep (taken _)
  next => exact nextInv_hostStep (taken _) _
  next => exact nextInv_next.2 (inv_resetInput (taken _))

/-- Settles O59: each kind of step answers only states that meet the invariant (`nextInv_step`). -/
theorem everyStepKeepsTheInvariant : Obligations.EveryStepKeepsTheInvariant :=
  fun _ t h e => nextInv_step h t e

end Sys2Proof.Machine
end

section
/-! PROOFS. The registers a host sees: what STATUS and the other registers show, QLEN, what a write leaves in them, the
interrupt line, and the step that runs a command. -/

namespace Sys2Proof.Machine

open Sys2Proof

variable {s : State}

/-! ## The registers as numbers (10_state.md R21 to R31) -/

theorem toNat_statusWord : s.statusWord.toNat =
    65536 * s.nonce.retry.toNat + 16384 * s.borrow.toNat + 4096 * (cmpBits s.cmp).toNat + 2048 * s.nonce.det.toNat +
      256 * (stepBits (if s.nonce.det then s.nonce.step else .step0)).toNat + 16 * (errBits s.err).toNat +
      2 * s.done.toNat + s.busy.toNat := by
  unfold State.statusWord
  simp only [toNat_append_add, BitVec.toNat_ofBool]
  simp; omega

theorem toNat_regView_ctrl : (s.regView .ctrl).toNat = s.rfcRetry.toNat + 16 * s.hashAlg.toNat := by
  simp only [State.regView, toNat_append_add, BitVec.toNat_ofBool]
  simp; omega

theorem toNat_regView_cfg : (s.regView .cfg).toNat = s.opsz8.toNat + 256 * s.diglen8.toNat := by
  simp only [State.regView, toNat_append_add]
  simp; omega

theorem toNat_regView_inten : (s.regView .inten).toNat = s.doneEn.toNat + 2 * s.werrEn.toNat := by
  simp only [State.regView, toNat_append_add, BitVec.toNat_ofBool]
  simp; omega

theorem toNat_regView_intstat : (s.regView .intstat).toNat = s.donePend.toNat + 2 * s.werrPend.toNat := by
  simp only [State.regView, toNat_append_add, BitVec.toNat_ofBool]
  simp; omega

theorem toNat_regView_maxatt : (s.regView .maxatt).toNat = s.maxAtt.toNat := by
  simp only [State.regView, toNat_append_add]
  simp

theorem toNat_regView_attempts : (s.regView .attempts).toNat = s.attempts.toNat := by
  simp only [State.regView, toNat_append_add]
  simp

theorem toNat_regView_faultinfo : (s.regView .faultinfo).toNat = (causeBits s.faultInfo).toNat := by
  simp only [State.regView, toNat_append_add]
  simp

theorem ite_eq_mul_toNat (b : Bool) (n : Nat) : (if b then n else 0) = n * b.toNat := by
  cases b <;> simp

/-- Settles O48: STATUS as a number (`toNat_statusWord`) taken apart at its places, each field's pattern read off its
table. -/
theorem statusShowsItsFields : Obligations.StatusShowsItsFields := by
  intro s st hst
  have hst : st = s.statusWord.toNat := hst
  rw [toNat_statusWord] at hst
  have hretry := s.nonce.retry.isLt
  have hcmp := (cmpBits s.cmp).isLt
  have hstep := (stepBits (if s.nonce.det then s.nonce.step else .step0)).isLt
  have herr := (errBits s.err).isLt
  have hborrow := s.borrow.toNat_le
  have hdet := s.nonce.det.toNat_le
  have hdone := s.done.toNat_le
  have hbusy := s.busy.toNat_le
  simp only [ite_eq_mul_toNat]
  refine ⟨by omega, by omega, by omega, ?err, ?step, by omega, ?cmp, by omega, by omega, by omega, by omega, rfl, rfl,
    by rw [toNat_regView_ctrl]; omega, toNat_regView_cfg, by rw [toNat_regView_inten]; omega,
    by rw [toNat_regView_intstat]; omega, toNat_regView_maxatt, toNat_regView_attempts, ?cause, rfl⟩
  case err =>
    have h : st / 16 % 16 = (errBits s.err).toNat := by omega
    rw [h]; cases s.err <;> rfl
  case step =>
    have h : st / 256 % 8 = (stepBits (if s.nonce.det then s.nonce.step else .step0)).toNat := by omega
    rw [h]
    cases s.nonce.det
    · rfl
    · cases s.nonce.step <;> rfl
  case cmp =>
    have h : st / 4096 % 4 = (cmpBits s.cmp).toNat := by omega
    rw [h]; cases s.cmp <;> rfl
  case cause =>
    rw [toNat_regView_faultinfo]; cases s.faultInfo <;> rfl

/-! ## QLEN (10_state.md R32) -/

/-- A buffer of at most 128 bytes has a bit length of at most 1024, which fits QLEN's eleven bits. -/
theorem qlenView_lt (h : s.params.ok) : s.qlenView < 2 ^ 11 := by
  have hlt := beInt_lt (s.bytes .n (min s.opsz s.bufcap))
  rw [length_bytes, ← two_pow_eight_mul, ← bitlen_le] at hlt
  have := bufcap_le h
  unfold State.qlenView
  omega

theorem toNat_regView_qlen (h : s.params.ok) : (s.regView .qlen).toNat = s.qlenView := by
  show ((0 : BitVec 21) ++ BitVec.ofNat 11 s.qlenView).toNat = _
  rw [toNat_append_add, BitVec.toNat_ofNat, Nat.mod_eq_of_lt (qlenView_lt h)]
  simp

theorem qlenView_eq_qlen (h : s.opsz ≤ s.bufcap) : s.qlenView = s.qlen := by
  rw [State.qlenView, min_eq_left h]; rfl

theorem qlenView_reset : State.reset.qlenView = 0 := by
  have h0 : min State.reset.opsz State.reset.bufcap = 0 := Nat.zero_min _
  rw [State.qlenView, h0]; rfl

/-- Settles O50: QLEN's eleven bits hold `qlenView`, and `bitlen` is the least such k (`bitlen_le`). -/
theorem qlenReadsTheOrdersBitLength : Obligations.QlenReadsTheOrdersBitLength := by
  refine ⟨?_, fun s hp => ⟨fun k => ?_, fun ho => ?_⟩⟩
  · rw [State.regView, qlenView_reset]; rfl
  · rw [toNat_regView_qlen hp]; exact bitlen_le _ k
  · rw [toNat_regView_qlen hp]; exact qlenView_eq_qlen ho

/-! ## Register writes (20_memory.md R53, R58) -/

/-- A 32-bit write to a register that is not dropped: the register's own write, and the port's answer. -/
theorem step_writeReg {r : Reg} {v : Word} {rest : List Input} (hd : s.dropsWrite (regOffset r) = false)
    (h : s.hostNext (.write · .w32 v) (regOffset r) rest) :
    step s = .next (State.respond (State.regSet { s with inputs := rest } r v) false 0) := by
  have ho : regOffset r < 0x1000 := by cases r <;> decide
  have hl : legal (regOffset r) .w32 = true := by cases r <;> rfl
  rw [step_write ho hl h, writeEffect_reg (s := { s with inputs := rest }) hd]

/-- INTEN takes a write whether BUSY or not (20_memory.md R58). -/
theorem dropsWrite_inten : s.dropsWrite (regOffset .inten) = false := by simp [State.dropsWrite, regOffset]

/-- A mask of the low `n` bits is a remainder modulo 2^n. -/
theorem toNat_and_low {m : Word} {n : Nat} (hm : m.toNat = 2 ^ n - 1) (v : Word) :
    (v &&& m).toNat = v.toNat % 2 ^ n := by
  rw [BitVec.toNat_and, hm, Nat.and_two_pow_sub_one_eq_mod]

theorem toNat_getLsbD (v : Word) (k : Nat) : (v.getLsbD k).toNat = v.toNat / 2 ^ k % 2 := by
  rw [BitVec.getLsbD, Nat.testBit_eq_decide_div_mod_eq]
  rcases Nat.mod_two_eq_zero_or_one (v.toNat / 2 ^ k) with h | h <;> simp [h]

theorem toNat_extractByte (v : Word) (k : Nat) : (v.extractLsb' k 8).toNat = v.toNat / 2 ^ k % 256 := by
  rw [BitVec.extractLsb'_toNat, Nat.shiftRight_eq_div_pow]

variable (v : Word)

/-- CTRL reads back bits 0 and 7:4, bit by bit. -/
theorem regView_regSet_ctrl : (s.regSet .ctrl v).regView .ctrl = v &&& 0xF1 := by
  apply BitVec.eq_of_getLsbD_eq
  intro k hk
  simp only [State.regSet, State.regView, BitVec.getLsbD_and, BitVec.getLsbD_append, BitVec.getLsbD_extractLsb']
  interval_cases k <;> simp

theorem regView_regSet_cfg : (s.regSet .cfg v).regView .cfg = v &&& 0xFFFF := by
  apply BitVec.eq_of_toNat_eq
  rw [toNat_regView_cfg, toNat_and_low (n := 16) rfl]
  simp only [State.regSet, toNat_extractByte]
  omega

theorem regView_regSet_inten : (s.regSet .inten v).regView .inten = v &&& 0x3 := by
  apply BitVec.eq_of_toNat_eq
  rw [toNat_regView_inten, toNat_and_low (n := 2) rfl]
  simp only [State.regSet, toNat_getLsbD]
  omega

theorem regView_regSet_maxatt : (s.regSet .maxatt v).regView .maxatt = v &&& 0xFF := by
  apply BitVec.eq_of_toNat_eq
  rw [toNat_regView_maxatt, toNat_and_low (n := 8) rfl]
  simp only [State.regSet, toNat_extractByte]
  omega

/-- Settles O46: a write that is not dropped is the register's own write (`step_writeReg`), and each register reads back
its bits (`regView_regSet_ctrl` and the lemmas beside it). -/
theorem registersReadBackWhatIsWritten : Obligations.RegistersReadBackWhatIsWritten := by
  intro s v rest hb
  have taken (r : Reg) (h : s.hostNext (.write · .w32 v) (regOffset r) rest) := step_writeReg (dropsWrite_idle hb) h
  refine ⟨fun h => ⟨_, taken .ctrl h, ?_, rfl⟩, fun h => ⟨_, taken .cfg h, ?_, rfl⟩,
    fun h => ⟨_, taken .inten h, ?_, rfl⟩, fun h => ⟨_, taken .maxatt h, ?_, rfl⟩, fun h => ⟨_, taken .aluImm h, rfl, rfl⟩⟩
  · exact regView_regSet_ctrl (s := { s with inputs := rest }) v
  · exact regView_regSet_cfg (s := { s with inputs := rest }) v
  · exact regView_regSet_inten (s := { s with inputs := rest }) v
  · exact regView_regSet_maxatt (s := { s with inputs := rest }) v

/-! ## The interrupt line (10_state.md R38) -/

theorem irq_iff : s.irq = true ↔ (s.donePend = true ∧ s.doneEn = true) ∨ (s.werrPend = true ∧ s.werrEn = true) := by
  simp [State.irq]

/-- Settles O49: a write to INTEN is never dropped, and IRQ is a function of the state it leaves (`irq_iff`). -/
theorem irqIsTheEnabledPendingBits : Obligations.IrqIsTheEnabledPendingBits :=
  ⟨rfl, fun _ => ⟨irq_iff, fun _ _ h => ⟨_, step_writeReg (r := .inten) dropsWrite_inten h, irq_iff⟩⟩⟩

/-! ## Acceptance and the engine's step (60_exceptions.md R214, 10_state.md R37) -/

theorem isSignWord_ok {w : Word} {i : Instr} (h : decode w = .ok i) : isSignWord w = i.isSign := by
  rw [isSignWord, h]

theorem startOf_ok {w : Word} {i : Instr} (h : decode w = .ok i) : startOf w = .running i .start := by
  rw [startOf, h]

/-- Settles O5: acceptance puts the engine at the decoded command's start, and its step there is `exec`. -/
theorem stepRunsTheDecodedCommand : Obligations.StepRunsTheDecodedCommand := by
  refine ⟨fun s w i h => ?_, fun s i p rest hc hi => ?_, fun s i p hc hi => ?_⟩
  · have hs := startOf_ok h
    have ha := isSignWord_ok h
    rw [step_engine (rest := s.inputs) rfl, engineStep_running (i := i) (p := .start) hs]
    simp only [State.withFetchWord, State.accept, hs, ha]
  · rw [step_engine hi]; exact engineStep_running hc
  · rw [step_no_input hi]; exact engineStep_running hc

end Sys2Proof.Machine
end

section
/-! PROOFS. What a host cannot see and what it cannot write: the secrets behind a read, and the flags CMP and BORROW. -/

namespace Sys2Proof.Machine

open Sys2Proof

variable {s s' t : State} {i : Instr}

/-! ## What a read depends on (10_state.md R33, R35, R36; 20_memory.md R52) -/

/-- `s'` agrees with `s` on everything a read can answer from: memory outside the windows of KEY and DIGEST, every
register but QLEN, and what QLEN and the address map are computed from. -/
structure SameToHost (s s' : State) : Prop where
  mem : ∀ a, ¬ (0x100 ≤ a ∧ a < 0x200) → memRead s'.mem a = memRead s.mem a
  regs : ∀ r, r ≠ .qlen → s'.regView r = s.regView r
  opsz : s'.opsz = s.opsz
  bufcap : s'.bufcap = s.bufcap
  busy : s'.busy = s.busy

/-- The buffers a host reads lie above KEY and DIGEST (20_memory.md R51). -/
theorem le_bufBase_of_hostReads {x : Buf} (h : hostReads x = true) : 0x200 ≤ bufBase x := by
  cases x <;> simp [hostReads] at h <;> decide

theorem SameToHost.byteRead (h : SameToHost s s') (o : Nat) : s'.byteRead o = s.byteRead o := by
  have hat : s'.bufAt o = s.bufAt o := by unfold State.bufAt; rw [h.bufcap]
  unfold State.byteRead
  rw [hat]
  split
  · split_ifs with hx
    · exact h.mem _ (by have := le_bufBase_of_hostReads hx; omega)
    · rfl
  · rfl

theorem SameToHost.lanesRead (h : SameToHost s s') (o n : Nat) : s'.lanesRead o n = s.lanesRead o n := by
  induction n generalizing o with
  | zero => rfl
  | succ n ih => rw [State.lanesRead, State.lanesRead, h.byteRead, ih]

theorem SameToHost.qlenView (h : SameToHost s s') : s'.qlenView = s.qlenView := by
  have hn : s'.bytes .n (min s.opsz s.bufcap) = s.bytes .n (min s.opsz s.bufcap) :=
    memReadBytes_congr fun j _ => h.mem _ (by simp only [bufBase]; omega)
  rw [State.qlenView, State.qlenView, h.opsz, h.bufcap, hn]

theorem SameToHost.regView (h : SameToHost s s') (r : Reg) : s'.regView r = s.regView r := by
  by_cases hr : r = .qlen
  · subst hr; simp only [State.regView, h.qlenView]
  · exact h.regs r hr

theorem SameToHost.readValue (h : SameToHost s s') (o : Nat) (n : Width) : s'.readValue o n = s.readValue o n := by
  unfold State.readValue State.regRead
  rw [h.busy, h.lanesRead]
  split_ifs
  · split
    · exact h.regView _
    · rfl
  all_goals rfl

/-- Two reads of one address at states that agree for the host answer alike. -/
theorem SameToHost.portRead (h : SameToHost s s') (hp : s'.params = s.params) (addr : Nat) (n : Width) :
    (∃ u u', portRead addr n s = .next u ∧ portRead addr n s' = .next u' ∧ u.resp = u'.resp) ∨
      (portRead addr n s = .fault .outsideWindow ∧ portRead addr n s' = .fault .outsideWindow) := by
  have ho : s'.offsetOf addr = s.offsetOf addr := by unfold State.offsetOf; rw [hp]
  unfold Machine.portRead
  rw [ho]
  cases s.offsetOf addr with
  | none => exact .inr ⟨rfl, rfl⟩
  | some o =>
    dsimp only
    split_ifs
    · exact .inl ⟨_, _, rfl, rfl, by rw [h.readValue]; rfl⟩
    · exact .inl ⟨_, _, rfl, rfl, rfl⟩

/-- The input list is nothing a read answers from. -/
theorem SameToHost.take (h : SameToHost s s') (rest : List Input) :
    SameToHost { s with inputs := rest } { s' with inputs := rest } :=
  ⟨h.mem, h.regs, h.opsz, h.bufcap, h.busy⟩

/-- Settles O52: states that differ in secrets only agree for the host (`SameToHost`), so reads answer alike. -/
theorem readsNeverRevealSecrets : Obligations.ReadsNeverRevealSecrets := by
  intro s s' mem k v t tlen draws handle d2o hm hs addr wd rest hi
  have hi' : s'.inputs = .host (.read addr wd) :: rest := by rw [hs]; exact hi
  have hp : s'.params = s.params := by rw [hs]
  have h : SameToHost s s' := by
    subst hs
    refine ⟨hm, fun r hr => ?_, rfl, rfl, rfl⟩
    cases r
    case qlen => exact absurd rfl hr
    all_goals rfl
  rw [step_host hi, step_host hi']
  exact (h.take rest).portRead hp addr wd

/-! ## STATUS.CMP and STATUS.BORROW, operation by operation (10_state.md R25) -/

/-- STATUS.CMP and STATUS.BORROW of `t` are those of `s`. -/
def SameFlags (s t : State) : Prop := t.cmp = s.cmp ∧ t.borrow = s.borrow

theorem sameFlags_refl (s : State) : SameFlags s s := ⟨rfl, rfl⟩

/-- Unchanged flags are unchanged under any condition. -/
theorem SameFlags.weaken (h : SameFlags s t) {p q : Prop} : (p → t.cmp = s.cmp) ∧ (q → t.borrow = s.borrow) :=
  ⟨fun _ => h.1, fun _ => h.2⟩

theorem sameFlags_terminate (h : SameFlags s t) (c : Option Instr) (e : ErrCode) : SameFlags s (t.terminate c e) := by
  have hw : SameFlags s ((t.wipeOutput c e).wipeSession c) := by
    unfold State.wipeSession
    split
    · simpa [SameFlags] using h
    · split_ifs <;> simpa [SameFlags] using h
  exact hw

theorem sameFlags_raise (h : SameFlags s t) (i : Instr) (e : ErrCode) : SameFlags s (t.raise i e) :=
  sameFlags_terminate h _ _

theorem sameFlags_finish (h : SameFlags s t) (i : Instr) : SameFlags s (t.finish i) := sameFlags_terminate h _ _

theorem sameFlags_hwFault (h : SameFlags s t) (i : Instr) (c : FaultCause) : SameFlags s (t.hwFault i c) :=
  sameFlags_raise (t := { t with faultInfo := c }) h _ _

theorem sameFlags_withHmac (h : SameFlags s t) {key msg : Bytes} {f : State → Bytes → State}
    (hf : ∀ u k, SameFlags s u → SameFlags s (f u k)) : SameFlags s (t.withHmac key msg f) := by
  rcases withHmac_cases (s := t) key msg f with ⟨_, e⟩ | ⟨_, e⟩ <;> rw [e]
  · exact h
  · exact hf (t.hmacSpent key msg) _ h

/-! ### rnd_k and the RFC 6979 machine -/

theorem sameFlags_drawStep (s : State) (i : Instr) : SameFlags s (s.drawStep i) := by
  unfold State.drawStep
  split_ifs
  · exact sameFlags_raise (sameFlags_refl s) _ _
  split
  · exact sameFlags_refl s
  unfold State.entropyAnswered
  dsimp only
  split
  · refine sameFlags_hwFault ?_ _ _
    exact ⟨rfl, rfl⟩
  · exact ⟨rfl, rfl⟩

theorem sameFlags_giveNonce (h : SameFlags s t) (i : Instr) : SameFlags s (t.giveNonce i) :=
  sameFlags_finish (t := t.fill .nonce t.cand) h i

theorem sameFlags_rfc0 (h : SameFlags s t) : SameFlags s t.rfc0 := sameFlags_withHmac h fun _ _ hu => hu

theorem sameFlags_enterDerive (h : SameFlags s t) (i : Instr) : SameFlags s (t.enterDerive i) :=
  sameFlags_rfc0 (t := t.startDerive i) h

theorem sameFlags_rfc6 {accept : State → State} (ha : SameFlags s (accept (s.putT s.reducedCand))) :
    SameFlags s (s.rfc6 i accept) := by
  unfold State.rfc6
  split_ifs
  · exact sameFlags_raise (t := s.putT s.reducedCand) (sameFlags_refl s) _ _
  · exact sameFlags_withHmac (sameFlags_refl s) fun _ _ hu => hu
  · exact ha

theorem sameFlags_deriveStep {accept : State → State} (ha : SameFlags s (accept (s.putT s.reducedCand))) :
    SameFlags s (s.deriveStep i accept) := by
  have hs := sameFlags_refl s
  unfold State.deriveStep
  split
  · exact sameFlags_rfc0 hs
  · exact sameFlags_withHmac hs fun _ _ hu => hu
  · exact sameFlags_withHmac hs fun _ _ hu => hu
  · exact sameFlags_withHmac hs fun _ _ hu => hu
  · exact sameFlags_withHmac hs fun _ _ hu => hu
  · exact hs
  · exact sameFlags_rfc6 ha

/-! ### The retry controller -/

theorem sameFlags_nonceForRetry (h : SameFlags s t) (i : Instr) : SameFlags s (t.nonceForRetry i) := by
  unfold State.nonceForRetry
  split_ifs <;> exact h

theorem sameFlags_nextAttempt (h : SameFlags s t) (i : Instr) : SameFlags s (t.nextAttempt i) := by
  unfold State.nextAttempt
  split_ifs
  · exact sameFlags_raise h _ _
  · exact sameFlags_nonceForRetry (t := { t with attempts := t.attempts + 1 }) h i

theorem sameFlags_acquireStep (s : State) (i : Instr) : SameFlags s (s.acquireStep i) := by
  unfold State.acquireStep
  dsimp only
  split
  · exact ⟨rfl, rfl⟩
  split
  · refine sameFlags_hwFault ?_ _ _
    exact ⟨rfl, rfl⟩
  · exact ⟨rfl, rfl⟩

theorem sameFlags_writeStep (s : State) (i : Instr) (slot : Slot) (b : Bytes) (next : Point) :
    SameFlags s (s.writeStep i slot b next) := by
  unfold State.writeStep
  split
  · exact sameFlags_refl s
  dsimp only
  split
  · refine sameFlags_hwFault ?_ _ _
    exact ⟨rfl, rfl⟩
  · exact ⟨rfl, rfl⟩

theorem sameFlags_runStep (s : State) (i : Instr) : SameFlags s (s.runStep i) := by
  unfold State.runStep
  split
  · exact sameFlags_refl s
  dsimp only
  split
  · refine sameFlags_hwFault ?_ _ _
    exact ⟨rfl, rfl⟩
  · exact ⟨rfl, rfl⟩

theorem sameFlags_giveSignature (h : SameFlags s t) (i : Instr) (r u : Bytes) :
    SameFlags s (t.giveSignature i r u) :=
  sameFlags_finish (t := (t.fill .sigR (fit t.opsz r)).fill .sigS (fit t.opsz u)) h i

theorem sameFlags_waitStep (s : State) (i : Instr) : SameFlags s (s.waitStep i) := by
  unfold State.waitStep
  split
  · exact sameFlags_refl s
  dsimp only
  split
  · refine sameFlags_hwFault ?_ _ _
    exact ⟨rfl, rfl⟩
  · refine sameFlags_giveSignature ?_ _ _ _
    exact ⟨rfl, rfl⟩
  · refine sameFlags_nextAttempt ?_ _
    exact ⟨rfl, rfl⟩
  · refine sameFlags_nextAttempt ?_ _
    exact ⟨rfl, rfl⟩

theorem sameFlags_signStart (s : State) (i : Instr) : SameFlags s (s.signStart i) := by
  unfold State.signStart State.firstAttempt
  dsimp only
  split_ifs
  · refine sameFlags_enterDerive ?_ i
    exact ⟨rfl, rfl⟩
  · exact ⟨rfl, rfl⟩
  · exact sameFlags_raise (sameFlags_refl s) _ _

/-! ### The commands -/

theorem bigint_cmp {ok : Bool} {f : State → State} (h : (f s).cmp = s.cmp) : (s.bigint i ok f).cmp = s.cmp := by
  unfold State.bigint
  split_ifs
  · exact (sameFlags_finish (sameFlags_refl (f s)) i).1.trans h
  · exact (sameFlags_raise (sameFlags_refl s) i _).1

theorem bigint_borrow {ok : Bool} {f : State → State} (h : (f s).borrow = s.borrow) :
    (s.bigint i ok f).borrow = s.borrow := by
  unfold State.bigint
  split_ifs
  · exact (sameFlags_finish (sameFlags_refl (f s)) i).2.trans h
  · exact (sameFlags_raise (sameFlags_refl s) i _).2

/-- Whatever next state the outcome answers has the flags of `s`. -/
def KeepsFlags (s : State) (o : Outcome) : Prop := ∀ t, o = .next t → SameFlags s t

@[simp] theorem keepsFlags_next : KeepsFlags s (.next t) ↔ SameFlags s t :=
  ⟨fun h => h t rfl, fun h u e => by cases e; exact h⟩

theorem keepsFlags_execNop (s : State) : KeepsFlags s (execNop s) :=
  keepsFlags_next.2 (sameFlags_finish (sameFlags_refl s) _)

theorem keepsFlags_execZeroize (s : State) : KeepsFlags s (execZeroize s) := by
  have h : SameFlags s s.zeroizeSession.wipeOperands := by simp [SameFlags, State.wipeOperands]
  exact keepsFlags_next.2 (sameFlags_finish h _)

theorem keepsFlags_execNonceRnd (s : State) : KeepsFlags s (execNonceRnd s) := by
  rw [execNonceRnd, keepsFlags_next]
  split
  · exact sameFlags_drawStep _ _
  · exact ⟨rfl, rfl⟩
  · exact sameFlags_giveNonce (sameFlags_refl s) _
  split_ifs
  · exact ⟨rfl, rfl⟩
  · exact sameFlags_raise (sameFlags_refl s) _ _

theorem keepsFlags_execNonceDet (s : State) : KeepsFlags s (execNonceDet s) := by
  rw [execNonceDet, keepsFlags_next]
  split
  · refine sameFlags_deriveStep (sameFlags_giveNonce ?_ _)
    exact ⟨rfl, rfl⟩
  split_ifs
  · exact sameFlags_enterDerive (sameFlags_refl s) _
  · exact sameFlags_raise (sameFlags_refl s) _ _

theorem keepsFlags_execSignRnd (s : State) : KeepsFlags s (execSignRnd s) := by
  rw [execSignRnd, keepsFlags_next]
  split
  · exact sameFlags_drawStep _ _
  · exact ⟨rfl, rfl⟩
  · exact sameFlags_acquireStep _ _
  · exact sameFlags_writeStep _ _ _ _ _
  · exact sameFlags_writeStep _ _ _ _ _
  · exact sameFlags_writeStep _ _ _ _ _
  · exact sameFlags_runStep _ _
  · exact sameFlags_waitStep _ _
  · exact sameFlags_signStart _ _

theorem keepsFlags_execSignDet (s : State) : KeepsFlags s (execSignDet s) := by
  rw [execSignDet, keepsFlags_next]
  split
  · exact sameFlags_deriveStep ⟨rfl, rfl⟩
  · exact sameFlags_withHmac (sameFlags_refl s) fun _ _ hu => hu
  · exact sameFlags_acquireStep _ _
  · exact sameFlags_writeStep _ _ _ _ _
  · exact sameFlags_writeStep _ _ _ _ _
  · exact sameFlags_writeStep _ _ _ _ _
  · exact sameFlags_runStep _ _
  · exact sameFlags_waitStep _ _
  · exact sameFlags_signStart _ _

/-- A command's step writes STATUS.CMP in CMP only and STATUS.BORROW in SUB only. -/
theorem exec_flags (h : exec i s = .next t) :
    ((∀ sz cin, i ≠ .cmp sz cin) → t.cmp = s.cmp) ∧ ((∀ sz, i ≠ .sub sz) → t.borrow = s.borrow) := by
  cases i with
  | cmp sz cin => cases h; exact ⟨fun hi => absurd rfl (hi sz cin), fun _ => bigint_borrow rfl⟩
  | sub sz => cases h; exact ⟨fun _ => bigint_cmp rfl, fun hi => absurd rfl (hi sz)⟩
  | add | rshift | trunc | bits2int | bits2oct | d2op =>
    cases h; exact ⟨fun _ => bigint_cmp rfl, fun _ => bigint_borrow rfl⟩
  | nop => exact (keepsFlags_execNop s t h).weaken
  | zeroize => exact (keepsFlags_execZeroize s t h).weaken
  | nonceRnd => exact (keepsFlags_execNonceRnd s t h).weaken
  | nonceDet => exact (keepsFlags_execNonceDet s t h).weaken
  | signRnd => exact (keepsFlags_execSignRnd s t h).weaken
  | signDet => exact (keepsFlags_execSignDet s t h).weaken

/-! ### The engine's step and a host access -/

theorem engineStep_flags (h : engineStep s = .next t) :
    ((∀ sz cin p, s.ctl ≠ .running (.cmp sz cin) p) → t.cmp = s.cmp) ∧
      ((∀ sz p, s.ctl ≠ .running (.sub sz) p) → t.borrow = s.borrow) := by
  unfold engineStep at h
  split at h
  next => cases h; exact (sameFlags_refl s).weaken
  next => cases h; exact (sameFlags_terminate (sameFlags_refl s) _ _).weaken
  next i p hc =>
    exact (exec_flags h).imp (fun f hi => f fun sz cin e => hi sz cin p (e ▸ hc))
      (fun f hi => f fun sz e => hi sz p (e ▸ hc))

theorem sameFlags_writeEffect (s : State) (o : Nat) (n : Width) (v : Word) : SameFlags s (s.writeEffect o n v) := by
  unfold State.writeEffect
  split_ifs
  · exact ⟨rfl, rfl⟩
  · unfold State.regWrite
    split
    · rename_i r _
      cases r <;> exact ⟨rfl, rfl⟩
    · exact sameFlags_refl s
  · obtain ⟨m, hm⟩ := lanesWrite_mem_only (s := s) o v (widthBytes n)
    rw [hm]; exact ⟨rfl, rfl⟩

/-- No host access reaches the flags. -/
theorem keepsFlags_hostStep (s : State) (a : Access) : KeepsFlags s (hostStep a s) := by
  intro t h
  cases a with
  | read addr n =>
    simp only [hostStep, portRead] at h
    split at h
    · cases h
    · split_ifs at h <;> cases h <;> exact ⟨rfl, rfl⟩
  | write addr n v =>
    simp only [hostStep, portWrite] at h
    split at h
    · cases h
    · split_ifs at h <;> cases h
      · exact sameFlags_writeEffect s _ _ _
      · exact ⟨rfl, rfl⟩

/-- Settles O53: a host access keeps both flags, and the engine's step writes CMP in CMP only and BORROW in SUB only. -/
theorem onlyCmpAndSubWriteTheFlags : Obligations.OnlyCmpAndSubWriteTheFlags := by
  refine ⟨fun _ _ _ => exec_flags, fun s t h hr => ?_⟩
  cases hin : s.inputs with
  | nil =>
    rw [step_no_input hin] at h
    exact (engineStep_flags h).imp (· <| ·.resolve_right (by simp)) (· <| ·.resolve_right (by simp))
  | cons x rest =>
    cases x with
    | reset => exact absurd hin (hr rest)
    | engine =>
      rw [step_engine hin] at h
      exact (engineStep_flags h).imp (· <| ·.resolve_right (by simp)) (· <| ·.resolve_right (by simp))
    | host a =>
      rw [step_host hin] at h
      exact (keepsFlags_hostStep _ a t h).weaken

end Sys2Proof.Machine
end

section
/-! PROOFS. The host port (20_memory.md): which accesses are answered, what a read returns and a write changes, BUSY or
not, and that a running command's inputs stay as they are. -/

namespace Sys2Proof.Machine

open Sys2Proof

variable {s t : State} {o : Nat} {wd : Width} {v : Word} {rest : List Input}

/-! ## Legal accesses, refused ones and ones outside the window (20_memory.md R50, R55) -/

theorem legal_iff : legal o wd = true ↔
    o < 0x100 ∧ widthBytes wd = 4 ∧ o % 4 = 0 ∨ 0x100 ≤ o ∧ o % widthBytes wd = 0 := by
  unfold legal
  split_ifs with ho
  · cases wd <;> simp [widthBytes, ho]
  · simp [ho]; omega

/-- Below 0x100 only 32-bit accesses are legal. -/
theorem width_of_legal_low (hl : legal o wd = true) (ho : o < 0x100) : wd = .w32 := by
  cases wd <;> simp [legal, ho] at hl ⊢

/-- A refused access changes the port's answer only. -/
theorem step_refused (ho : o < 0x1000) (hl : ¬ legal o wd = true)
    (h : s.hostNext (.read · wd) o rest ∨ s.hostNext (.write · wd v) o rest) :
    step s = .next { s with inputs := rest, resp := ⟨true, 0⟩ } := by
  rcases h with h | h
  · rw [step_host h]
    exact (portRead_at (s := { s with inputs := rest }) ho).trans (if_neg hl)
  · rw [step_host h]
    exact (portWrite_at (s := { s with inputs := rest }) ho).trans (if_neg hl)

/-- Settles O39: R55's condition is `legal` (`legal_iff`), and the port answers an access with an error exactly where it
fails. -/
theorem portRefusesIllegalAccesses : Obligations.PortRefusesIllegalAccesses := by
  rintro s o _ wd v rest ho rfl
  rw [← legal_iff]
  refine ⟨step_refused ho, fun hl h => ?_⟩
  rcases h with h | h
  · exact ⟨_, step_read ho hl h, rfl⟩
  · exact ⟨_, step_write ho hl h, rfl⟩

theorem offsetOf_outside {addr : Nat} (h : addr < s.params.base ∨ s.params.base + 0x1000 ≤ addr) :
    s.offsetOf addr = none := by
  rw [State.offsetOf, if_neg (by omega)]

/-- Settles O40: an address outside the window has no offset, and both accesses stop there. -/
theorem accessOutsideTheWindowFaults : Obligations.AccessOutsideTheWindowFaults := by
  intro s addr wd v rest ha h
  have ho : State.offsetOf { s with inputs := rest } addr = none := offsetOf_outside ha
  rcases h with h | h <;> rw [step_host h]
  · simp only [hostStep, portRead, ho]
  · simp only [hostStep, portWrite, ho]

/-- Settles O51: a read answers, legal or refused, by `respond`, or stops. -/
theorem readsHaveNoSideEffect : Obligations.ReadsHaveNoSideEffect := by
  intro s t addr wd rest hi h
  rw [step_host hi, hostStep, portRead] at h
  split at h
  · cases h
  · split_ifs at h <;> cases h <;> rfl

/-! ## What a read returns (20_memory.md R52 to R54, R59) -/

theorem readValue_busy (hb : s.busy = true) (ho : 0x100 ≤ o) : s.readValue o wd = 0 := by
  rw [State.readValue, if_neg (by omega), if_pos hb]

theorem readValue_reg (r : Reg) : s.readValue (regOffset r) wd = s.regView r := by
  have ho : regOffset r < 0x100 := by cases r <;> decide
  rw [State.readValue, if_pos ho, State.regRead, regAt_regOffset]

/-- Settles O42: the value of a read while BUSY = 1 (`readValue_busy`) and of a register read at any time
(`readValue_reg`). -/
theorem busyBufferReadsReturnZero : Obligations.BusyBufferReadsReturnZero := by
  intro s o wd rest ho hl h
  rw [step_read ho hl h]
  refine ⟨fun hb hlo => ?_, fun r hr => ?_⟩
  · rw [readValue_busy (s := { s with inputs := rest }) hb hlo]; rfl
  · have hr : o = regOffset r := by cases r <;> exact hr
    rw [hr, readValue_reg]
    cases r <;> rfl

/-! ## Accesses to a buffer window while BUSY = 0 (20_memory.md R52, R54) -/

section Window

variable {x : Buf} {k : Nat}

theorem le_bufBase_add (x : Buf) (k : Nat) : ¬ bufBase x + k < 0x100 := by
  have := bufBase_aligned x; omega

/-- An aligned access inside a window is legal (20_memory.md R55): the windows lie at multiples of 128. -/
theorem legal_window (ha : k % widthBytes wd = 0) : legal (bufBase x + k) wd = true := by
  have := bufBase_aligned x
  rw [legal_iff]
  cases wd <;> simp only [widthBytes] at ha ⊢ <;> omega

theorem window_lt (hk : k + widthBytes wd ≤ 128) : bufBase x + k < 0x1000 := by
  have := bufBase_aligned x; cases wd <;> simp only [widthBytes] at hk <;> omega

theorem readValue_window (hb : s.busy = false) :
    s.readValue (bufBase x + k) wd = BitVec.ofNat 32 (s.lanesRead (bufBase x + k) (widthBytes wd)) := by
  rw [State.readValue, if_neg (le_bufBase_add x k), if_neg (by simp [hb])]

theorem writeEffect_window (hb : s.busy = false) :
    s.writeEffect (bufBase x + k) wd v = s.lanesWrite (bufBase x + k) v (widthBytes wd) := by
  rw [State.writeEffect, if_neg (by simp [dropsWrite_idle hb]), if_neg (le_bufBase_add x k)]

/-- A read of a window while BUSY = 0 answers the byte lanes. -/
theorem step_readWindow (hb : s.busy = false) (ha : k % widthBytes wd = 0) (hk : k + widthBytes wd ≤ 128)
    (h : s.hostNext (.read · wd) (bufBase x + k) rest) :
    step s = .next { s with
      inputs := rest
      resp :=
        ⟨false, BitVec.ofNat 32 (State.lanesRead { s with inputs := rest } (bufBase x + k) (widthBytes wd))⟩ } := by
  rw [step_read (window_lt hk) (legal_window ha) h, readValue_window (s := { s with inputs := rest }) hb]
  rfl

/-- A write to a window while BUSY = 0 stores the byte lanes below BUFCAP of a writable buffer, and changes nothing
else. -/
theorem step_writeWindow (hm : memWf s.mem = true) (hb : s.busy = false) (ha : k % widthBytes wd = 0)
    (hk : k + widthBytes wd ≤ 128) (h : s.hostNext (.write · wd v) (bufBase x + k) rest) :
    ∃ m, step s = .next { s with inputs := rest, resp := ⟨false, 0⟩, mem := m } ∧ ∀ a, memRead m a =
      if bufBase x + k ≤ a ∧ a < bufBase x + k + widthBytes wd ∧ a < bufBase x + s.bufcap ∧
        x ∈ [Buf.key, .digest, .n, .a, .b]
      then BitVec.ofNat 8 (v.toNat / 256 ^ (a - (bufBase x + k))) else memRead s.mem a := by
  obtain ⟨m, hl⟩ := lanesWrite_mem_only (s := { s with inputs := rest }) (bufBase x + k) v (widthBytes wd)
  have hr := lanesWrite_window (s := { s with inputs := rest }) hm x hk v
  rw [hl] at hr
  refine ⟨m, ?_, hr⟩
  rw [step_write (window_lt hk) (legal_window ha) h, writeEffect_window (s := { s with inputs := rest }) hb, hl]
  rfl

/-- Settles O44: the lanes of a read are the window's bytes (`lanesRead_lane`, `byteRead_window`), and a write stores its
lanes (`step_writeWindow`). -/
theorem byteLanesAreLittleEndian : Obligations.ByteLanesAreLittleEndian := by
  intro s x k n wd v rest _ hm hb hn ha hk
  have hw : n = widthBytes wd := by rcases hn with ⟨rfl, rfl⟩ | ⟨rfl, rfl⟩ | ⟨rfl, rfl⟩ <;> rfl
  subst hw
  refine ⟨fun h => ⟨_, step_readWindow hb ha hk h, ?_⟩, fun h => ?_⟩
  · have hlt := lanesRead_lt (s := { s with inputs := rest }) (bufBase x + k) (widthBytes wd)
    have h32 : 256 ^ widthBytes wd ≤ 2 ^ 32 := by cases wd <;> decide
    rw [BitVec.toNat_ofNat, Nat.mod_eq_of_lt (hlt.trans_le h32)]
    refine ⟨hlt, fun i hi => ?_⟩
    rw [lanesRead_lane hi, add_assoc]
    exact byteRead_window (by omega)
  · obtain ⟨m, hs, hr⟩ := step_writeWindow hm hb ha hk h
    refine ⟨_, hs, fun i hi hc hx => ?_, fun a hna => ?_, rfl⟩
    · rw [hr, if_pos ⟨by omega, by omega, by omega, hx⟩, Nat.add_sub_cancel_left]
    · rw [hr, if_neg hna]

/-- Settles O43: O44's accesses at one byte. -/
theorem bufferWindowsMapTheBuffers : Obligations.BufferWindowsMapTheBuffers := by
  intro s x j v rest _ hm hb hj
  have ha : j % widthBytes .w8 = 0 := Nat.mod_one j
  refine ⟨fun h => ?_, fun h => ?_⟩
  · have hv : State.lanesRead { s with inputs := rest } (bufBase x + j) (widthBytes .w8) =
        (State.byteRead { s with inputs := rest } (bufBase x + j)).toNat := by simp [widthBytes, State.lanesRead]
    have hc : State.bufcap { s with inputs := rest } = s.bufcap := rfl
    rw [step_readWindow hb ha hj h, hv, byteRead_window hj, hc]
    split_ifs <;> rfl
  · obtain ⟨m, hs, hr⟩ := step_writeWindow hm hb ha hj h
    refine ⟨_, hs, fun a => ?_, rfl⟩
    rw [hr]
    by_cases he : a = bufBase x + j
    · subst he; simp [widthBytes]
    · rw [if_neg, if_neg (by tauto)]
      simp only [widthBytes]
      omega

end Window

/-! ## Writable offsets (20_memory.md R51, R58) -/

theorem writable_reg (r : Reg) : s.writable (regOffset r) = regWritable r := by
  have ho : regOffset r < 0x100 := by cases r <;> decide
  rw [State.writable, if_pos ho, regAt_regOffset]

/-- Offsets that hold neither a register nor a buffer's byte take no write. -/
theorem writable_reserved (hr : regAt o = none) (hb : s.bufAt o = none) : s.writable o = false := by
  rw [State.writable, hr, hb]; split_ifs <;> rfl

/-- A buffer's byte below BUFCAP takes a write exactly in KEY, DIGEST, N, A and B. -/
theorem writable_buf (hp : s.params.ok) {x : Buf} {j : Nat} (hj : j < s.bufcap) :
    s.writable (bufBase x + j) = hostWrites x := by
  have := bufcap_le hp
  rw [State.writable, if_neg (le_bufBase_add x j), bufAt_bufBase hj (by omega)]

theorem regWritable_iff (r : Reg) : regWritable r = true ↔
    regOffset r ∈ [0x004, 0x008, 0x00C, 0x01C, 0x028] ∨ regOffset r = 0x014 ∨ regOffset r = 0x018 := by
  cases r <;> decide

theorem hostWrites_iff (x : Buf) : hostWrites x = true ↔ x ∈ [Buf.key, .digest, .n, .a, .b] := by
  cases x <;> decide

/-- The offsets R58 names are the writable ones other than INTEN and INTSTAT. -/
theorem writable_of_dropped (hp : s.params.ok)
    (h : o ∈ [0x004, 0x008, 0x00C, 0x01C, 0x028] ∨
      ∃ x ∈ [Buf.key, .digest, .n, .a, .b], ∃ j, j < s.bufcap ∧ o = bufBase x + j) :
    s.writable o = true ∧ o ≠ 0x014 ∧ o ≠ 0x018 := by
  rcases h with h | ⟨x, hx, j, hj, rfl⟩
  · obtain ⟨r, hr, rfl⟩ := List.mem_map.1 (show o ∈ [Reg.ctrl, .cfg, .cmd, .maxatt, .aluImm].map regOffset from h)
    rw [writable_reg]
    revert hr; cases r <;> decide
  · have := le_bufBase_add x j
    exact ⟨(writable_buf hp hj).trans ((hostWrites_iff x).2 hx), by omega, by omega⟩

theorem dropped_of_writable (hw : s.writable o = true) (h14 : o ≠ 0x014) (h18 : o ≠ 0x018) :
    o ∈ [0x004, 0x008, 0x00C, 0x01C, 0x028] ∨
      ∃ x ∈ [Buf.key, .digest, .n, .a, .b], ∃ j, j < s.bufcap ∧ o = bufBase x + j := by
  unfold State.writable at hw
  split_ifs at hw with ho
  · split at hw
    next r hr =>
      obtain rfl := regAt_some hr
      exact .inl (((regWritable_iff r).1 hw).resolve_right (by simp [h14, h18]))
    next => cases hw
  · split at hw
    next x j hx =>
      obtain ⟨rfl, hj, -⟩ := bufAt_range hx
      exact .inr ⟨x, (hostWrites_iff x).1 hw, j, hj, rfl⟩
    next => cases hw

/-! ## Writes while BUSY = 1 (20_memory.md R58) -/

theorem writeEffect_dropped (hb : s.busy = true) (hw : s.writable o = true) (h14 : o ≠ 0x014) (h18 : o ≠ 0x018) :
    s.writeEffect o wd v = { s with werrPend := true } := by
  rw [State.writeEffect, if_pos (by simp [State.dropsWrite, hb, hw, h14, h18])]

/-- INTSTAT takes a write whether BUSY or not. -/
theorem dropsWrite_intstat : s.dropsWrite (regOffset .intstat) = false := by simp [State.dropsWrite, regOffset]

/-- Settles O41: a write is dropped exactly at the offsets named (`writable_of_dropped`, `dropped_of_writable`), taken at
INTEN and INTSTAT, and without effect where nothing is writable. -/
theorem busyWritesAreDropped : Obligations.BusyWritesAreDropped := by
  intro s o wd v rest hp hb ho hl h
  refine ⟨fun hd => ?dropped, fun hi => ?taken, fun hi => ?cleared, fun hd h14 h18 => ?ignored⟩
  case dropped =>
    obtain ⟨hw, h14, h18⟩ := writable_of_dropped hp hd
    rw [step_write ho hl h, writeEffect_dropped (s := { s with inputs := rest }) hb hw h14 h18]
    rfl
  case taken =>
    obtain rfl : o = regOffset .inten := hi
    obtain rfl := width_of_legal_low hl (by decide)
    exact step_writeReg dropsWrite_inten h
  case cleared =>
    obtain rfl : o = regOffset .intstat := hi
    obtain rfl := width_of_legal_low hl (by decide)
    exact step_writeReg dropsWrite_intstat h
  case ignored =>
    have hw : s.writable o = false := by
      by_contra hw
      exact hd (dropped_of_writable (Bool.not_eq_false _ ▸ hw) h14 h18)
    rw [step_write ho hl h, writeEffect_not_writable (s := { s with inputs := rest }) hl hw]
    rfl

/-! ## Reserved offsets (20_memory.md R51 to R53) -/

/-- The offsets of the address map that are reserved: between the registers and the windows, above the windows, and a
window's bytes at BUFCAP and above. -/
def State.Reserved (s : State) (o : Nat) : Prop :=
  0x030 ≤ o ∧ o < 0x100 ∨ 0x580 ≤ o ∨ ∃ x j, s.bufcap ≤ j ∧ j < 128 ∧ o = bufBase x + j

theorem regOffset_lt (r : Reg) : regOffset r < 0x030 := by cases r <;> decide

theorem State.Reserved.regAt (h : s.Reserved o) : regAt o = none := by
  cases hr : Machine.regAt o with
  | none => rfl
  | some r =>
    have hlt := regOffset_lt r
    rw [← regAt_some hr] at hlt
    rcases h with h | h | ⟨x, j, -, -, rfl⟩
    · omega
    · omega
    · have := le_bufBase_add x j; omega

theorem State.Reserved.bufAt (h : s.Reserved o) : s.bufAt o = none := by
  cases hx : s.bufAt o with
  | none => rfl
  | some p =>
    obtain ⟨y, k⟩ := p
    obtain ⟨ho, -, hk⟩ := bufAt_range hx
    have := bufBase_aligned y
    rcases h with h | h | ⟨x, j, hj, hj', rfl⟩
    · omega
    · omega
    · rw [bufAt_above hj hj'] at hx; cases hx

theorem lanesRead_reserved {n : Nat} (h : ∀ i, i < n → s.bufAt (o + i) = none) : s.lanesRead o n = 0 := by
  induction n generalizing o with
  | zero => rfl
  | succ n ih =>
    have h0 : s.byteRead o = 0 := by rw [State.byteRead, show s.bufAt o = none from h 0 (by omega)]
    rw [State.lanesRead, h0, ih fun i hi => by rw [add_assoc, add_comm 1]; exact h (i + 1) (by omega)]
    rfl

/-- Every byte of a legal access above the registers is reserved when its first one is: an aligned access does not leave
its window. -/
theorem State.Reserved.lane (h : s.Reserved o) (hl : legal o wd = true) (ho : 0x100 ≤ o) {i : Nat}
    (hi : i < widthBytes wd) : s.Reserved (o + i) := by
  rcases h with h | h | ⟨x, j, hj, hj', rfl⟩
  · omega
  · exact .inr (.inl (by omega))
  · have ha : (bufBase x + j) % widthBytes wd = 0 := by simpa [legal, le_bufBase_add x j] using hl
    have := bufBase_aligned x
    refine .inr (.inr ⟨x, j + i, by omega, ?_, by omega⟩)
    cases wd <;> simp only [widthBytes] at hi ha <;> omega

theorem readValue_reserved (h : s.Reserved o) (hl : legal o wd = true) : s.readValue o wd = 0 := by
  by_cases ho : o < 0x100
  · rw [State.readValue, if_pos ho, State.regRead, h.regAt]
  cases hb : s.busy with
  | true => exact readValue_busy hb (by omega)
  | false =>
    rw [State.readValue, if_neg ho, if_neg (by simp [hb]),
      lanesRead_reserved fun i hi => (h.lane hl (by omega) hi).bufAt]
    rfl

/-- A write at an offset that takes none is answered and changes nothing. -/
theorem step_write_ignored (ho : o < 0x1000) (hl : legal o wd = true) (hw : s.writable o = false)
    (h : s.hostNext (.write · wd v) o rest) : step s = .next { s with inputs := rest, resp := ⟨false, 0⟩ } := by
  rw [step_write ho hl h, writeEffect_not_writable (s := { s with inputs := rest }) hl hw]
  rfl

theorem step_reserved (ho : o < 0x1000) (hl : legal o wd = true) (hr : s.Reserved o)
    (h : s.hostNext (.read · wd) o rest ∨ s.hostNext (.write · wd v) o rest) :
    step s = .next { s with inputs := rest, resp := ⟨false, 0⟩ } := by
  rcases h with h | h
  · rw [step_read ho hl h, readValue_reserved (s := { s with inputs := rest }) hr hl]
    rfl
  · exact step_write_ignored ho hl (writable_reserved hr.regAt hr.bufAt) h

/-! ## Reserved register fields (10_state.md R22 to R32, 20_memory.md R53) -/

/-- The fields of a register, all ones, over its reserved bits, all zero; bit 31 first, as `State.regView` shows them. -/
def regFields : Reg → Word
  | .id | .aluImm => BitVec.allOnes 32
  | .ctrl => (0 : BitVec 24) ++ BitVec.allOnes 4 ++ (0 : BitVec 3) ++ BitVec.allOnes 1
  | .cfg => (0 : BitVec 16) ++ BitVec.allOnes 8 ++ BitVec.allOnes 8
  | .cmd => 0
  | .status =>
    (0 : BitVec 8) ++ BitVec.allOnes 8 ++ (0 : BitVec 1) ++ BitVec.allOnes 1 ++ BitVec.allOnes 2 ++
      BitVec.allOnes 1 ++ BitVec.allOnes 3 ++ BitVec.allOnes 4 ++ (0 : BitVec 2) ++ BitVec.allOnes 1 ++
      BitVec.allOnes 1
  | .inten | .intstat => (0 : BitVec 30) ++ BitVec.allOnes 1 ++ BitVec.allOnes 1
  | .maxatt => (0 : BitVec 24) ++ BitVec.allOnes 8
  | .attempts => (0 : BitVec 23) ++ BitVec.allOnes 9
  | .faultinfo => (0 : BitVec 28) ++ BitVec.allOnes 4
  | .qlen => (0 : BitVec 21) ++ BitVec.allOnes 11

/-- `a` has no bit outside the fields `p`. -/
def InFields {n : Nat} (a p : BitVec n) : Prop := a &&& ~~~p = 0

theorem inFields_allOnes {n : Nat} (a : BitVec n) : InFields a (BitVec.allOnes n) := by simp [InFields]

theorem inFields_zero {n : Nat} (p : BitVec n) : InFields 0 p := by simp [InFields]

theorem InFields.append {n m : Nat} {a p : BitVec n} {b q : BitVec m} (h : InFields a p) (h' : InFields b q) :
    InFields (a ++ b) (p ++ q) := by
  unfold InFields at *
  rw [BitVec.not_append, Laws.EncodeRow.append_and, h, h']
  exact BitVec.zero_append_zero

/-- A field below `a`. -/
theorem InFields.field {n m : Nat} {a p : BitVec n} {b : BitVec m} (h : InFields a p) :
    InFields (a ++ b) (p ++ BitVec.allOnes m) := h.append (inFields_allOnes b)

/-- Reserved bits below `a`. -/
theorem InFields.reserved {n m : Nat} {a p : BitVec n} (h : InFields a p) :
    InFields (a ++ (0 : BitVec m)) (p ++ (0 : BitVec m)) := h.append (inFields_zero 0)

/-- A register shows 0 in its reserved bits. -/
theorem regView_inFields (r : Reg) : InFields (s.regView r) (regFields r) := by
  cases r
  case id | aluImm => exact inFields_allOnes _
  case cmd => exact inFields_zero _
  case ctrl => exact (inFields_zero _).field.reserved.field
  case cfg | inten | intstat => exact (inFields_zero _).field.field
  case maxatt | attempts | faultinfo | qlen => exact (inFields_zero _).field
  case status => exact (inFields_zero _).field.reserved.field.field.field.field.field.reserved.field.field

/-- The bits of a register write that are in no field do not matter. -/
theorem regSet_and_fields {r : Reg} (hr : r ∈ [Reg.ctrl, .cfg, .inten, .intstat, .maxatt]) (v : Word) :
    s.regSet r (v &&& regFields r) = s.regSet r v := by
  have nibble (x : BitVec 4) : x &&& 15#4 = x := BitVec.and_allOnes
  have byte (x : BitVec 8) : x &&& 255#8 = x := BitVec.and_allOnes
  cases r
  case ctrl | cfg | inten | intstat | maxatt =>
    simp only [State.regSet, BitVec.getLsbD_and, BitVec.extractLsb'_and]
    simp [regFields, nibble, byte]
  all_goals simp at hr

theorem writeEffect_and_fields {r : Reg} (hr : r ∈ [Reg.ctrl, .cfg, .inten, .intstat, .maxatt]) (v : Word) :
    s.writeEffect (regOffset r) wd (v &&& regFields r) = s.writeEffect (regOffset r) wd v := by
  have ho : regOffset r < 0x100 := (regOffset_lt r).trans (by decide)
  simp only [State.writeEffect, if_pos ho, State.regWrite, regAt_regOffset, regSet_and_fields hr]

/-- A register's offset and the mask of its fields. -/
def maskRow (r : Reg) : Nat × Word := (regOffset r, regFields r)

/-- The register of a row in a table of offsets and masks. -/
theorem reg_of_row {rows : List (Nat × Word)} {regs : List Reg} {m : Word} (ht : rows = regs.map maskRow)
    (h : (o, m) ∈ rows) : ∃ r ∈ regs, o = regOffset r ∧ m = regFields r := by
  subst ht
  obtain ⟨r, hr, e⟩ := List.mem_map.1 h
  exact ⟨r, hr, (congrArg Prod.fst e).symm, (congrArg Prod.snd e).symm⟩

/-- Settles O45: reserved offsets (`step_reserved`) and read-only registers (`step_write_ignored`) are answered without
effect, a register shows its fields only (`regView_inFields`), and a write takes its fields only
(`writeEffect_and_fields`). -/
theorem reservedReadsZeroAndIgnoresWrites : Obligations.ReservedReadsZeroAndIgnoresWrites := by
  intro s o wd v rest ho hl
  refine ⟨fun hr h => step_reserved ho hl hr h, fun hm h => ?readOnly, fun m hm h => ?read, fun m hm => ?write⟩
  case readOnly =>
    have hr : o ∈ [Reg.id, .status, .attempts, .faultinfo, .qlen].map regOffset := hm
    obtain ⟨r, hr, rfl⟩ := List.mem_map.1 hr
    refine step_write_ignored ho hl ?_ h
    rw [writable_reg]
    revert hr; cases r <;> decide
  case read =>
    obtain ⟨r, -, rfl, rfl⟩ := reg_of_row
      (regs := [.ctrl, .cfg, .cmd, .status, .inten, .intstat, .maxatt, .attempts, .faultinfo, .qlen]) (by decide) hm
    refine ⟨_, step_read ho hl h, ?_⟩
    rw [readValue_reg]
    exact regView_inFields r
  case write =>
    obtain ⟨r, hr, rfl, rfl⟩ := reg_of_row (regs := [.ctrl, .cfg, .inten, .intstat, .maxatt]) (by decide) hm
    have taken (w : Word) :=
      step_write (s := { s with inputs := .host (.write (s.params.base + regOffset r) wd w) :: rest }) ho hl rfl
    rw [taken, taken, writeEffect_and_fields hr]

/-! ## The inputs of a running command (20_memory.md R61) -/

section Inputs

variable {i : Instr}

/-- `t` is `s` but for a command's working state: NonceState, DRAWS, HANDLE, D2O, ATTEMPTS, the control point, and the
oracle answers and calls. -/
def SameButWork (s t : State) : Prop :=
  { t with
    nonce := s.nonce, draws := s.draws, handle := s.handle, d2o := s.d2o, attempts := s.attempts, ctl := s.ctl
    oracles := s.oracles, trace := s.trace } = s

theorem SameButWork.trans {u : State} (h : SameButWork s t) (h' : SameButWork t u) : SameButWork s u := by
  unfold SameButWork at *
  rw [← h, ← h']

/-- What an engine step can do: end its command, or change the working state only. -/
def EndsOrWorks (s t : State) : Prop := t.busy = false ∨ SameButWork s t

theorem endsOrWorks_terminate (s t : State) (c : Option Instr) (e : ErrCode) : EndsOrWorks s (t.terminate c e) := .inl rfl

theorem endsOrWorks_withHmac {u : State} {key msg : Bytes} {f : State → Bytes → State} (h : SameButWork s u)
    (hf : ∀ t k, SameButWork t (f t k)) : EndsOrWorks s (u.withHmac key msg f) := by
  rcases withHmac_cases (s := u) key msg f with ⟨_, e⟩ | ⟨_, e⟩ <;> rw [e]
  · exact .inr h
  · have hc : SameButWork u (u.hmacSpent key msg) := rfl
    exact .inr ((h.trans hc).trans (hf _ _))

/-! ### rnd_k and the RFC 6979 machine -/

theorem endsOrWorks_drawStep (s : State) (i : Instr) : EndsOrWorks s (s.drawStep i) := by
  unfold State.drawStep State.entropyAnswered
  split_ifs
  · exact endsOrWorks_terminate _ _ _ _
  split
  · exact .inr rfl
  · dsimp only
    split
    · exact endsOrWorks_terminate _ _ _ _
    · exact .inr rfl

theorem endsOrWorks_rfc6 {accept : State → State} (ha : EndsOrWorks s (accept (s.putT s.reducedCand))) :
    EndsOrWorks s (s.rfc6 i accept) := by
  unfold State.rfc6
  split_ifs
  · exact endsOrWorks_terminate _ _ _ _
  · exact endsOrWorks_withHmac rfl fun _ _ => rfl
  · exact ha

theorem endsOrWorks_deriveStep {accept : State → State} (ha : EndsOrWorks s (accept (s.putT s.reducedCand))) :
    EndsOrWorks s (s.deriveStep i accept) := by
  unfold State.deriveStep
  cases s.nonce.step
  case step5 => exact .inr rfl
  case step6 => exact endsOrWorks_rfc6 ha
  all_goals exact endsOrWorks_withHmac rfl fun _ _ => rfl

/-- Entering derive(FRESH) from any state that differs from `s` in working state only. -/
theorem endsOrWorks_enterDerive (h : SameButWork s t) (i : Instr) : EndsOrWorks s (t.enterDerive i) := by
  unfold State.enterDerive State.rfc0
  exact endsOrWorks_withHmac (h.trans rfl) fun _ _ => rfl

/-! ### The retry controller -/

theorem endsOrWorks_nextAttempt (h : SameButWork s t) (i : Instr) : EndsOrWorks s (t.nextAttempt i) := by
  unfold State.nextAttempt State.nonceForRetry
  split_ifs
  · exact endsOrWorks_terminate _ _ _ _
  all_goals exact .inr (h.trans rfl)

theorem endsOrWorks_acquireStep (s : State) (i : Instr) : EndsOrWorks s (s.acquireStep i) := by
  unfold State.acquireStep
  dsimp only
  split
  · exact .inr rfl
  split
  · exact endsOrWorks_terminate _ _ _ _
  · exact .inr rfl

theorem endsOrWorks_writeStep (s : State) (i : Instr) (slot : Slot) (b : Bytes) (next : Point) :
    EndsOrWorks s (s.writeStep i slot b next) := by
  unfold State.writeStep
  split
  · exact .inr rfl
  dsimp only
  split
  · exact endsOrWorks_terminate _ _ _ _
  · exact .inr rfl

theorem endsOrWorks_runStep (s : State) (i : Instr) : EndsOrWorks s (s.runStep i) := by
  unfold State.runStep
  split
  · exact .inr rfl
  dsimp only
  split
  · exact endsOrWorks_terminate _ _ _ _
  · exact .inr rfl

theorem endsOrWorks_waitStep (s : State) (i : Instr) : EndsOrWorks s (s.waitStep i) := by
  unfold State.waitStep
  split
  · exact .inr rfl
  dsimp only
  split
  · exact endsOrWorks_terminate _ _ _ _
  · exact endsOrWorks_terminate _ _ _ _
  all_goals refine endsOrWorks_nextAttempt ?_ i; rfl

theorem endsOrWorks_signStart (s : State) (i : Instr) : EndsOrWorks s (s.signStart i) := by
  unfold State.signStart State.firstAttempt
  dsimp only
  split_ifs
  · exact endsOrWorks_enterDerive (s := s) (t := { s with attempts := 1 }) rfl i
  · exact .inr rfl
  · exact endsOrWorks_terminate _ _ _ _

/-! ### The commands and the engine -/

theorem endsOrWorks_bigint {ok : Bool} {f : State → State} : EndsOrWorks s (s.bigint i ok f) := by
  unfold State.bigint
  split_ifs <;> exact endsOrWorks_terminate _ _ _ _

theorem execNonceRnd_endsOrWorks (h : execNonceRnd s = .next t) : EndsOrWorks s t := by
  cases h
  split
  · exact endsOrWorks_drawStep _ _
  · exact .inr rfl
  · exact endsOrWorks_terminate _ _ _ _
  split_ifs
  · exact .inr rfl
  · exact endsOrWorks_terminate _ _ _ _

theorem execNonceDet_endsOrWorks (h : execNonceDet s = .next t) : EndsOrWorks s t := by
  cases h
  split
  · exact endsOrWorks_deriveStep (endsOrWorks_terminate _ _ _ _)
  split_ifs
  · exact endsOrWorks_enterDerive (s := s) (t := s) rfl _
  · exact endsOrWorks_terminate _ _ _ _

theorem execSignRnd_endsOrWorks (h : execSignRnd s = .next t) : EndsOrWorks s t := by
  cases h
  split
  · exact endsOrWorks_drawStep _ _
  · exact .inr rfl
  · exact endsOrWorks_acquireStep _ _
  · exact endsOrWorks_writeStep _ _ _ _ _
  · exact endsOrWorks_writeStep _ _ _ _ _
  · exact endsOrWorks_writeStep _ _ _ _ _
  · exact endsOrWorks_runStep _ _
  · exact endsOrWorks_waitStep _ _
  · exact endsOrWorks_signStart _ _

theorem execSignDet_endsOrWorks (h : execSignDet s = .next t) : EndsOrWorks s t := by
  cases h
  split
  · exact endsOrWorks_deriveStep (.inr rfl)
  · exact endsOrWorks_withHmac rfl fun _ _ => rfl
  · exact endsOrWorks_acquireStep _ _
  · exact endsOrWorks_writeStep _ _ _ _ _
  · exact endsOrWorks_writeStep _ _ _ _ _
  · exact endsOrWorks_writeStep _ _ _ _ _
  · exact endsOrWorks_runStep _ _
  · exact endsOrWorks_waitStep _ _
  · exact endsOrWorks_signStart _ _

theorem exec_endsOrWorks (h : exec i s = .next t) : EndsOrWorks s t := by
  cases i with
  | nop | zeroize => cases h; exact endsOrWorks_terminate _ _ _ _
  | cmp | add | sub | rshift | trunc | bits2int | bits2oct | d2op => cases h; exact endsOrWorks_bigint
  | nonceRnd => exact execNonceRnd_endsOrWorks h
  | nonceDet => exact execNonceDet_endsOrWorks h
  | signRnd => exact execSignRnd_endsOrWorks h
  | signDet => exact execSignDet_endsOrWorks h

theorem engineStep_endsOrWorks (h : engineStep s = .next t) : EndsOrWorks s t := by
  unfold engineStep at h
  split at h
  next => cases h; exact .inr rfl
  next => cases h; exact endsOrWorks_terminate _ _ _ _
  next => exact exec_endsOrWorks h

/-! ### Every step -/

/-- `t` has the inputs of a command that `s` has: the buffers, CTRL, CFG, MAXATT and ALU_IMM. -/
def SameInputs (s t : State) : Prop :=
  t.mem = s.mem ∧ t.rfcRetry = s.rfcRetry ∧ t.hashAlg = s.hashAlg ∧ t.opsz8 = s.opsz8 ∧ t.diglen8 = s.diglen8 ∧
    t.maxAtt = s.maxAtt ∧ t.aluImm = s.aluImm

theorem SameButWork.sameInputs (h : SameButWork s t) : SameInputs s t := by
  unfold SameButWork at h
  exact ⟨(congrArg State.mem h :), (congrArg State.rfcRetry h :), (congrArg State.hashAlg h :), (congrArg State.opsz8 h :),
    (congrArg State.diglen8 h :), (congrArg State.maxAtt h :), (congrArg State.aluImm h :)⟩

theorem sameInputs_refl (s : State) : SameInputs s s := ⟨rfl, rfl, rfl, rfl, rfl, rfl, rfl⟩

theorem EndsOrWorks.sameInputs (h : EndsOrWorks s t) (hb : t.busy = true) : SameInputs s t := by
  rcases h with h | h
  · rw [hb] at h; cases h
  · exact h.sameInputs

/-- A write while BUSY = 1 reaches no input: it is ignored, taken at INTEN or INTSTAT, or dropped. -/
theorem writeEffect_busy_sameInputs (hb : s.busy = true) (hl : legal o wd = true) :
    SameInputs s (s.writeEffect o wd v) := by
  have taken (r : Reg) (hd : s.dropsWrite (regOffset r) = false) (hl : legal (regOffset r) wd = true) :
      s.writeEffect (regOffset r) wd v = s.regSet r v := by
    rw [width_of_legal_low hl ((regOffset_lt r).trans (by decide)), writeEffect_reg hd]
  cases hw : s.writable o with
  | false => rw [writeEffect_not_writable hl hw]; exact sameInputs_refl s
  | true =>
    by_cases h14 : o = regOffset .inten
    · subst h14; rw [taken .inten dropsWrite_inten hl]; exact sameInputs_refl s
    by_cases h18 : o = regOffset .intstat
    · subst h18; rw [taken .intstat dropsWrite_intstat hl]; exact sameInputs_refl s
    rw [writeEffect_dropped hb hw h14 h18]; exact sameInputs_refl s

theorem hostStep_busy_sameInputs {a : Access} (h : hostStep a s = .next t) (hb : s.busy = true) : SameInputs s t := by
  cases a with
  | read addr n =>
    simp only [hostStep, portRead] at h
    split at h
    · cases h
    · split_ifs at h <;> cases h <;> exact sameInputs_refl s
  | write addr n v =>
    simp only [hostStep, portWrite] at h
    split at h
    · cases h
    · split_ifs at h with hl <;> cases h
      · exact writeEffect_busy_sameInputs hb hl
      · exact sameInputs_refl s

/-- Settles O56: an engine step that does not end its command changes its working state only
(`engineStep_endsOrWorks`), a host access while BUSY = 1 reaches no input (`hostStep_busy_sameInputs`), and reset
leaves BUSY = 0. -/
theorem inputsStayStableWhileBusy : Obligations.InputsStayStableWhileBusy := by
  intro s t h hb hb'
  unfold step at h
  split at h
  next => exact (engineStep_endsOrWorks h).sameInputs hb'
  next => exact (engineStep_endsOrWorks h).sameInputs hb'
  next _ rest _ => exact hostStep_busy_sameInputs (s := { s with inputs := rest }) h hb
  next => cases h; cases hb'

end Inputs

end Sys2Proof.Machine
end

section
/-! PROOFS. The command word (30_encoding.md): decoding and encoding undo each other, and which words are illegal. -/

namespace Sys2Proof.Machine

open Sys2Proof

variable {row : OpcodeRow} {sz : BitVec 8} {cin : BitVec 2} {w : Word} {i : Instr} {s : State}

/-! ## A row of the opcode map and its operand fields (30_encoding.md R81, R87) -/

/-- The operand fields that the checks of R81 pass in a row: a field the row does not use is 0, and CIN is not 10 in a
row that uses it. -/
def FieldsLegal (row : OpcodeRow) (sz : BitVec 8) (cin : BitVec 2) : Prop :=
  (row.usesSz = false → sz = 0) ∧ (row.usesCin = false → cin = 0) ∧ (row.usesCin = true → cin ≠ 0b10)

theorem decodeRow_ok_iff : decodeRow row sz cin = .ok i ↔
    FieldsLegal row sz cin ∧ row.build (sizeOf8 sz) (carryOf2 cin) = i := by
  unfold decodeRow FieldsLegal
  split_ifs with hs hu hr
  · exact ⟨nofun, fun ⟨⟨h, _, _⟩, _⟩ => absurd (h hs.1) hs.2⟩
  · exact ⟨nofun, fun ⟨⟨_, h, _⟩, _⟩ => absurd (h hu.1) hu.2⟩
  · exact ⟨nofun, fun ⟨⟨_, _, h⟩, _⟩ => absurd hr.2 (h hr.1)⟩
  · simp only [not_and, not_not] at hs hu hr
    rw [Except.ok.injEq, and_iff_right ⟨hs, hu, hr⟩]

/-- Looking up the OPC of a row of the map finds that row. -/
theorem find_opc_of_mem (h : row ∈ opcodeMap) : opcodeMap.find? (fun r => r.opc == row.opc) = some row := by
  simp only [opcodeMap, List.mem_append, List.mem_cons, List.not_mem_nil, or_false, or_assoc] at h
  rcases h with rfl | rfl | rfl | rfl | rfl | rfl | rfl | rfl | rfl | rfl | rfl | rfl | rfl | rfl <;> rfl

/-- The word packed from a row's OPC and legal operand fields decodes to what the row builds from them. -/
theorem decode_packWord_of_legal (hrow : row ∈ opcodeMap) (hl : FieldsLegal row sz cin) :
    decode (packWord row.opc sz cin) = .ok (row.build (sizeOf8 sz) (carryOf2 cin)) := by
  rw [decode_packWord (find_opc_of_mem hrow), decodeRow_ok_iff]
  exact ⟨hl, rfl⟩

theorem decode_ok_iff : decode w = .ok i ↔ fieldRsv w = 0 ∧ ∃ row ∈ opcodeMap, row.opc = fieldOpc w ∧
    FieldsLegal row (fieldSz w) (fieldCin w) ∧ row.build (sizeOf8 (fieldSz w)) (carryOf2 (fieldCin w)) = i := by
  constructor
  · intro h
    obtain ⟨hr, row, hrow, ho, hd⟩ := decode_ok h
    exact ⟨hr, row, hrow, ho, decodeRow_ok_iff.1 hd⟩
  · rintro ⟨hr, row, hrow, ho, hl, rfl⟩
    rw [← decode_packWord_of_legal hrow hl, ho, packWord_fields hr]

/-! ## Encoding what a row builds -/

/-- What a row builds from legal fields is well-formed, and its encoding packs the row's OPC with these fields. -/
theorem encode_build (hrow : row ∈ opcodeMap) (hl : FieldsLegal row sz cin) :
    (row.build (sizeOf8 sz) (carryOf2 cin)).wellFormed = true ∧
      encode (row.build (sizeOf8 sz) (carryOf2 cin)) = packWord row.opc sz cin := by
  obtain ⟨hs, hu, hr⟩ := hl
  have hsz := sizeOf8_le sz
  simp only [opcodeMap, List.mem_append, List.mem_cons, List.not_mem_nil, or_false, or_assoc] at hrow
  rcases hrow with rfl | rfl | rfl | hrow
  · rw [hs rfl, hu rfl]; exact ⟨rfl, rfl⟩
  · rw [hs rfl, hu rfl]; exact ⟨rfl, rfl⟩
  · exact ⟨decide_eq_true ⟨hsz, carryLegal_carryOf2 (hr rfl)⟩,
      by simp only [encode, szField_sizeOf8, cinField_carryOf2]⟩
  · rcases hrow with rfl | rfl | rfl | rfl | rfl | rfl | rfl | rfl | rfl | rfl | rfl <;> rw [hu rfl]
    iterate 7 exact ⟨decide_eq_true hsz, by simp only [encode, szField_sizeOf8]⟩
    all_goals rw [hs rfl]; exact ⟨rfl, rfl⟩

/-- `i` is what a row of the map builds from legal fields. -/
def Built (i : Instr) : Prop :=
  ∃ row ∈ opcodeMap, ∃ sz cin, FieldsLegal row sz cin ∧ row.build (sizeOf8 sz) (carryOf2 cin) = i

/-- Operands that have fields, 0 where the row does not use them, are built from these fields. -/
theorem built_of_operands {n : Nat} {c : Int} (hrow : row ∈ opcodeMap) (hn : sizeFits n) (hc : carryLegal c)
    (hs : row.usesSz = true ∨ n = 0) (hu : row.usesCin = true ∨ c = 0) (hb : row.build n c = i) : Built i := by
  refine ⟨row, hrow, szField n, cinField c, ⟨fun h => ?_, fun h => ?_, fun _ => cinField_legal hc⟩, ?_⟩
  · rw [hs.resolve_left (by simp [h])]; rfl
  · rw [hu.resolve_left (by simp [h])]; rfl
  · rw [sizeOf8_szField hn, carryOf2_cinField hc, hb]

theorem built_of_wellFormed (h : i.wellFormed = true) : Built i := by
  have bare (k : Nat) (hk : k < opcodeMap.length) (hb : opcodeMap[k].build 0 0 = i) : Built i :=
    built_of_operands (List.getElem_mem hk) (Nat.zero_le _) (.inr (.inl rfl)) (.inr rfl) (.inr rfl) hb
  have sized (k n : Nat) (hk : k < opcodeMap.length) (hn : sizeFits n) (hs : opcodeMap[k].usesSz = true)
      (hb : opcodeMap[k].build n 0 = i) : Built i :=
    built_of_operands (List.getElem_mem hk) hn (.inr (.inl rfl)) (.inl hs) (.inr rfl) hb
  cases i with
  | nop => exact bare 0 (by decide) rfl
  | zeroize => exact bare 1 (by decide) rfl
  | cmp n c =>
    obtain ⟨hn, hc⟩ := of_decide_eq_true h
    exact built_of_operands (List.getElem_mem (n := 2) (l := opcodeMap) (by decide)) hn hc (.inl rfl) (.inl rfl) rfl
  | add n => exact sized 3 n (by decide) (of_decide_eq_true h) rfl rfl
  | sub n => exact sized 4 n (by decide) (of_decide_eq_true h) rfl rfl
  | rshift n => exact sized 5 n (by decide) (of_decide_eq_true h) rfl rfl
  | trunc n => exact sized 6 n (by decide) (of_decide_eq_true h) rfl rfl
  | bits2int n => exact sized 7 n (by decide) (of_decide_eq_true h) rfl rfl
  | bits2oct n => exact sized 8 n (by decide) (of_decide_eq_true h) rfl rfl
  | d2op n => exact sized 9 n (by decide) (of_decide_eq_true h) rfl rfl
  | nonceRnd => exact bare 10 (by decide) rfl
  | nonceDet => exact bare 11 (by decide) rfl
  | signRnd => exact bare 12 (by decide) rfl
  | signDet => exact bare 13 (by decide) rfl

/-- Settles O1: the command is what a row builds from legal fields (`built_of_wellFormed`), its encoding packs them
(`encode_build`), and the packed word decodes by that row (`decode_packWord_of_legal`). -/
theorem encodeThenDecodeGivesTheCommand : Obligations.EncodeThenDecodeGivesTheCommand := by
  intro i h
  obtain ⟨row, hrow, sz, cin, hl, rfl⟩ := built_of_wellFormed h
  rw [(encode_build hrow hl).2, decode_packWord_of_legal hrow hl]

/-- Settles O2: a word that decodes is the pack of its fields, which `encode_build` gives back. -/
theorem decodedWordIsTheCommandsEncoding : Obligations.DecodedWordIsTheCommandsEncoding := by
  intro w i h
  obtain ⟨hr, row, hrow, ho, hl, rfl⟩ := decode_ok_iff.1 h
  obtain ⟨hwf, he⟩ := encode_build hrow hl
  exact ⟨hwf, by rw [he, ho, packWord_fields hr]⟩

/-- Settles O4: the decoder evaluated on each word. -/
theorem sampleWordsDecode : Obligations.SampleWordsDecode :=
  ⟨rfl, rfl, rfl, rfl, rfl, rfl, rfl, rfl, rfl, rfl, rfl, rfl, rfl⟩

/-! ## Illegal words (30_encoding.md R88) -/

/-- The OPC values that no row has (30_encoding.md R87, R88). -/
def OpcUnassigned (o : Nat) : Prop :=
  0x02 ≤ o ∧ o ≤ 0x0F ∨ 0x18 ≤ o ∧ o ≤ 0x1F ∨ 0x22 ≤ o ∧ o ≤ 0x2F ∨ 0x32 ≤ o

theorem exists_row_opc_iff (o : BitVec 8) : (∃ row ∈ opcodeMap, row.opc = o) ↔ ¬ OpcUnassigned o.toNat := by
  unfold OpcUnassigned
  revert o; decide

theorem usesSz_eq_false_iff (h : row ∈ opcodeMap) :
    row.usesSz = false ↔ ¬ (0x10 ≤ row.opc.toNat ∧ row.opc.toNat ≤ 0x17) := by
  revert row; decide

theorem usesCin_iff (h : row ∈ opcodeMap) : row.usesCin = true ↔ row.opc.toNat = 0x10 := by
  revert row; decide

theorem decode_error_iff : (∃ e, decode w = .error e) ↔ ¬ ∃ i, decode w = .ok i := by
  cases decode w <;> simp

/-- The fields that a row admits, by the row's OPC. -/
theorem fieldsLegal_iff (h : row ∈ opcodeMap) : FieldsLegal row sz cin ↔
    (¬ (0x10 ≤ row.opc.toNat ∧ row.opc.toNat ≤ 0x17) → sz.toNat = 0) ∧ (row.opc.toNat ≠ 0x10 → cin.toNat = 0) ∧
      (row.opc.toNat = 0x10 → cin.toNat ≠ 2) := by
  rw [FieldsLegal, usesSz_eq_false_iff h, ← Bool.not_eq_true row.usesCin, usesCin_iff h]
  simp only [← BitVec.toNat_inj, ne_eq]; rfl

theorem fieldRsv_eq_zero_iff (w : Word) : fieldRsv w = 0 ↔ w.toNat / 262144 = 0 := by
  rw [← toNat_fieldRsv, ← BitVec.toNat_inj]; rfl

/-- A word is legal exactly where its OPC has a row, RSV is 0, and CIN and SZ are fields that the row admits. -/
theorem exists_decode_ok_iff : (∃ i, decode w = .ok i) ↔
    w.toNat / 262144 = 0 ∧ ¬ OpcUnassigned (w.toNat % 256) ∧
      (¬ (0x10 ≤ w.toNat % 256 ∧ w.toNat % 256 ≤ 0x17) → w.toNat / 256 % 256 = 0) ∧
      (w.toNat % 256 ≠ 0x10 → w.toNat / 65536 % 4 = 0) ∧ (w.toNat % 256 = 0x10 → w.toNat / 65536 % 4 ≠ 2) := by
  simp only [decode_ok_iff, ← toNat_fieldOpc, ← toNat_fieldSz, ← toNat_fieldCin,
    fieldRsv_eq_zero_iff]
  constructor
  · rintro ⟨i, hr, row, hrow, ho, hl, -⟩
    rw [← ho]
    exact ⟨hr, (exists_row_opc_iff _).1 ⟨row, hrow, rfl⟩, (fieldsLegal_iff hrow).1 hl⟩
  · rintro ⟨hr, ho, hl⟩
    obtain ⟨row, hrow, ho⟩ := (exists_row_opc_iff _).2 ho
    rw [← ho] at hl
    exact ⟨_, hr, row, hrow, ho, (fieldsLegal_iff hrow).2 hl, rfl⟩

/-! ## Issuing an illegal word (30_encoding.md R88, 60_exceptions.md R214, R215) -/

theorem startOf_error {e : IllegalWord} (h : decode w = .error e) : startOf w = .illegal := by
  rw [startOf, h]

theorem isSignWord_error {e : IllegalWord} (h : decode w = .error e) : isSignWord w = false := by
  rw [isSignWord, h]

theorem engineStep_illegal (h : s.ctl = .illegal) : engineStep s = .next (s.ended .illegalCommand) := by
  unfold engineStep
  rw [h]
  exact congrArg Host.Outcome.next (terminate_plain (cmd := none) nofun _)

/-- An illegal word is accepted as any word is, with ATTEMPTS kept and nothing for the engine to run. -/
theorem accept_illegal {e : IllegalWord} (h : decode w = .error e) : s.accept w =
    { s with busy := true, done := false, err := .none, faultInfo := .none, ctl := .illegal } := by
  simp [State.accept, startOf_error h, isSignWord_error h]

/-- Settles O3: the legal words by their numbers (`exists_decode_ok_iff`); acceptance of an illegal word
(`accept_illegal`) and the engine's termination of it (`engineStep_illegal`). -/
theorem illegalWordsRaiseIllegalCommand : Obligations.IllegalWordsRaiseIllegalCommand := by
  refine ⟨fun w => ?_, fun s w e rest hb he hw => ?_⟩
  · rw [decode_error_iff, exists_decode_ok_iff]
    unfold OpcUnassigned
    tauto
  · have h1 := step_writeReg (r := .cmd) (dropsWrite_idle hb) hw
    rw [State.regSet, accept_illegal he] at h1
    rw [runSteps_succ_next h1, runSteps_succ_next ((step_engine rfl).trans (engineStep_illegal rfl))]
    rfl

end Sys2Proof.Machine
end

section
/-! PROOFS. The bigint family (40_bigint.md): what each command writes to A, R, STATUS.CMP and STATUS.BORROW, what it
leaves unchanged, and the laws of bits2octets, the comparator and SUB. -/

namespace Sys2Proof.Machine

open Sys2Proof

variable {s t : State} {i : Instr} {sz : Nat}

/-! ## The words of the family (30_encoding.md R80, R87, R92) -/

theorem cmdWord_eq_packWord {o : BitVec 8} {cin : BitVec 2} (hsz : sz ≤ 255) :
    cmdWord o.toNat sz cin.toNat = packWord o (szField sz) cin := by
  apply BitVec.eq_of_toNat_eq
  have ho := o.isLt
  have hc := cin.isLt
  rw [toNat_packWord, cmdWord, szField, BitVec.toNat_ofNat, BitVec.toNat_ofNat]
  omega

theorem decode_cmdWord {row : OpcodeRow} {cin : BitVec 2} (hrow : row ∈ opcodeMap) (hsz : sz ≤ 255)
    (hl : FieldsLegal row (szField sz) cin) :
    decode (cmdWord row.opc.toNat sz cin.toNat) = .ok (row.build sz (carryOf2 cin)) := by
  rw [cmdWord_eq_packWord hsz, decode_packWord_of_legal hrow hl, sizeOf8_szField hsz]

/-- A row with an SZ and no CIN field decodes every SZ with CIN = 0. -/
theorem decode_cmdWord_size {row : OpcodeRow} (hrow : row ∈ opcodeMap) (hs : row.usesSz = true)
    (hc : row.usesCin = false) (hsz : sz ≤ 255) : decode (cmdWord row.opc.toNat sz 0) = .ok (row.build sz 0) :=
  decode_cmdWord (cin := 0) hrow hsz ⟨by simp [hs], fun _ => rfl, by simp [hc]⟩

/-- CMP decodes every SZ with every CIN but 10. -/
theorem decode_cmdWord_cmp {cin : BitVec 2} (hsz : sz ≤ 255) (hc : cin ≠ 0b10) :
    decode (cmdWord 0x10 sz cin.toNat) = .ok (.cmp sz (carryOf2 cin)) :=
  decode_cmdWord (row := ⟨0x10, true, true, fun sz cin => .cmp sz cin⟩) (by simp [opcodeMap]) hsz
    ⟨nofun, nofun, fun _ => hc⟩

/-! ## The checks (60_exceptions.md R213) -/

theorem szOk_iff : s.szOk sz = true ↔ 1 ≤ sz ∧ sz ≤ s.bufcap := by simp [State.szOk]

theorem immOk_iff : s.immOk = true ↔ 1 ≤ s.aluImm.toNat ∧ s.aluImm.toNat ≤ 8 * s.bufcap := by
  rw [State.immOk, Bool.and_eq_true, decide_eq_true_iff, decide_eq_true_iff]; rfl

theorem opszOk_iff : s.opszOk = true ↔ 1 ≤ s.opsz8.toNat ∧ s.opsz8.toNat ≤ s.params.maxOpsz := by
  rw [State.opszOk, Bool.and_eq_true, decide_eq_true_iff, decide_eq_true_iff]; rfl

theorem curveOk_iff : s.curveOk = true ↔
    (1 ≤ s.opsz8.toNat ∧ s.opsz8.toNat ≤ s.params.maxOpsz) ∧ 2 ≤ beInt (s.bytes .n s.opsz8.toNat) := by
  rw [State.curveOk, Bool.and_eq_true, opszOk_iff, decide_eq_true_iff]; rfl

/-! ## The shape of the family: check, write, terminate (40_bigint.md R99) -/

theorem exec_bigint_ok {ok : Bool} {f : State → State} (hx : exec i s = .next (s.bigint i ok f))
    (hi : isSecret i = false) (hk : ok = true) : exec i s = .next ((f s).ended .none) := by
  rw [hx, State.bigint, if_pos hk, State.finish, terminate_plain (by simpa [isSecret] using hi)]

theorem exec_bigint_refused {ok : Bool} {f : State → State} (hx : exec i s = .next (s.bigint i ok f))
    (hi : isSecret i = false) (hk : ¬ ok = true) : exec i s = .next (s.ended .invalidArgument) := by
  rw [hx, State.bigint, if_neg hk, State.raise, terminate_plain (by simpa [isSecret] using hi)]

/-! ## "Write R with L bytes" (40_bigint.md R99) -/

theorem writeR_mem {v : Bytes} {L : Nat} (hm : memWf s.mem = true) (hv : v.length = L) (hL : L ≤ s.bufcap)
    (ht : t.mem = (s.writeR v).mem) :
    t.bytes .r L = v ∧ (∀ j, L ≤ j → j < s.bufcap → memRead t.mem (bufBase .r + j) = 0) ∧ SameOutside [.r] s t := by
  subst hv
  obtain ⟨hb, hz⟩ := fill_bufHolds hm .r hL
  refine ⟨?_, ?_, sameOutside_congr ht (fill_sameOutside hm (by simp) hL)⟩
  · rw [State.bytes, ht]; exact hb
  · rw [ht]; exact hz

/-- A command that writes R and ends with NONE: the number in R, the zero bytes above it, and the frame. -/
theorem exists_next_writeR {v : Bytes} {L n : Nat} (hx : exec i s = .next ((s.writeR v).ended .none))
    (hm : memWf s.mem = true) (hv : v.length = L) (hL : L ≤ s.bufcap) (hn : beInt v = n) :
    ∃ t, exec i s = .next t ∧ beInt (t.bytes .r L) = n ∧
      (∀ j, L ≤ j → j < s.bufcap → memRead t.mem (bufBase .r + j) = 0) ∧
      SameOutside [.r] s t ∧ { t with mem := s.mem } = s.ended .none := by
  obtain ⟨hr, hz, ho⟩ := writeR_mem (t := (s.writeR v).ended .none) hm hv hL rfl
  exact ⟨_, hx, by rw [hr, hn], hz, ho, rfl⟩

/-! ## The operands and results as numbers (40_bigint.md R110 to R112, R114) -/

theorem beInt_bytes_lt (s : State) (x : Buf) (L : Nat) : beInt (s.bytes x L) < 2 ^ (8 * L) := by
  simpa [two_pow_eight_mul] using beInt_lt (s.bytes x L)

theorem beInt_inj {a b : Bytes} (hl : a.length = b.length) : beInt a = beInt b ↔ a = b :=
  ⟨fun h => by rw [← be_beInt a, ← be_beInt b, h, hl], fun h => by rw [h]⟩

theorem cmp3_eq_ite (a b : Bytes) (cin : Int) : cmp3 a b cin =
    if (beInt a : Int) + cin = beInt b then .equal else if (beInt b : Int) < beInt a + cin then .greater else .less := by
  simp only [cmp3, signOf, sub_eq_zero, sub_pos]

theorem cmp3_equal_iff {a b : Bytes} {cin : Int} : cmp3 a b cin = .equal ↔ (beInt a : Int) + cin = beInt b := by
  rw [cmp3_eq_ite]; split_ifs <;> simp [*]

theorem cmp3_greater_iff {a b : Bytes} {cin : Int} : cmp3 a b cin = .greater ↔ (beInt b : Int) < beInt a + cin := by
  rw [cmp3_eq_ite]; split_ifs <;> simp <;> omega

theorem cmp3_less_iff {a b : Bytes} {cin : Int} : cmp3 a b cin = .less ↔ (beInt a : Int) + cin < beInt b := by
  rw [cmp3_eq_ite]; split_ifs <;> simp <;> omega

theorem borrowOf_eq (a b : Bytes) : borrowOf a b = decide (beInt a < beInt b) :=
  decide_eq_decide.2 (by omega)

/-- `be(L, d mod 2^(8·L))` is d modulo 2^(8·L), for a negative d too. -/
theorem beInt_be_emod (L : Nat) (d : Int) : (beInt (be L (d % 2 ^ (8 * L)).toNat) : Int) = d % 2 ^ (8 * L) := by
  have h0 : 0 ≤ d % 2 ^ (8 * L) := Int.emod_nonneg _ (by positivity)
  have h1 : d % 2 ^ (8 * L) < 2 ^ (8 * L) := Int.emod_lt_of_pos _ (by positivity)
  rw [beInt_be_of_lt (by zify; rwa [Int.toNat_of_nonneg h0]), Int.toNat_of_nonneg h0]

/-- A difference of two numbers below m is its residue less m where it is negative. -/
theorem sub_eq_emod_sub_ite {a b m : Nat} (ha : a < m) (hb : b < m) :
    (a : Int) - b = ((a : Int) - b) % m - if a < b then (m : Int) else 0 := by
  split_ifs with h
  · rw [← Int.add_emod_right, Int.emod_eq_of_lt (by omega) (by omega)]; omega
  · rw [Int.emod_eq_of_lt (by omega) (by omega)]; omega

theorem bits2int_eq_ite {data : Bytes} {L : Nat} (hd : data.length = L) (qlen : Nat) : bits2int data qlen =
    if qlen < 8 * L then beInt data / 2 ^ (8 * L - qlen) else beInt data := by
  rw [bits2int, hd, Nat.shiftRight_eq_div_pow]

theorem bitlen_beInt_le (n : Bytes) : bitlen (beInt n) ≤ 8 * n.length := by
  rw [bitlen_le, two_pow_eight_mul]; exact beInt_lt n

/-- bits2octets subtracts the order at most once (40_bigint.md R112). -/
theorem beInt_bits2octets (data n : Bytes) : beInt (bits2octets data n) =
    if beInt n ≤ bits2int data (bitlen (beInt n)) then bits2int data (bitlen (beInt n)) - beInt n
    else bits2int data (bitlen (beInt n)) := by
  have hv : bits2int data (bitlen (beInt n)) < 2 ^ (8 * n.length) :=
    (bits2int_lt data _).trans_le (Nat.pow_le_pow_right (by norm_num) (bitlen_beInt_le n))
  unfold bits2octets
  simp only [cmp3_less, beInt_be_of_lt hv, ← not_le, ite_not]
  exact beInt_be_of_lt (by split_ifs <;> omega)

/-- Settles O17: bits2int stays below 2^qlen ≤ 2·q, so that one subtraction reduces it (`beInt_bits2octets`). -/
theorem bits2octetsIsBelowTheOrder : Obligations.Bits2octetsIsBelowTheOrder := by
  intro data n hn
  have hlt : bits2int data (bitlen (beInt n)) < 2 * beInt n := (bits2int_lt data _).trans_le (two_pow_bitlen_le hn)
  have hmod : beInt (bits2octets data n) = bits2int data (bitlen (beInt n)) % beInt n := by
    rw [beInt_bits2octets]
    split_ifs with h
    · rw [Nat.mod_eq_sub_mod h, Nat.mod_eq_of_lt (by omega)]
    · rw [Nat.mod_eq_of_lt (by omega)]
  exact ⟨length_bits2octets data n, hmod ▸ Nat.mod_lt _ hn, hmod⟩

/-- Settles O18: the comparator orders byte strings by their numbers, which strings of one length share with no other
(`beInt_inj`). -/
theorem compareIsATotalOrder : Obligations.CompareIsATotalOrder := by
  intro a b c hab _
  rw [← beInt_inj hab]
  simp only [ne_eq, cmp3_equal_iff, cmp3_greater_iff, cmp3_less_iff]
  omega

/-! ## The commands -/

/-- Settles O9: CMP passes its check and writes the comparator's result (`cmp3_eq_ite`), or is refused. -/
theorem cmpWritesTheCompareFlag : Obligations.CmpWritesTheCompareFlag := by
  intro s sz cin
  refine ⟨fun h1 h2 => ?_, fun h => exec_bigint_refused rfl rfl (szOk_iff.not.2 h),
    fun h => ⟨decode_cmdWord_cmp (cin := 0) h (by decide), decode_cmdWord_cmp (cin := 1) h (by decide),
      decode_cmdWord_cmp (cin := 3) h (by decide)⟩⟩
  have hx := exec_bigint_ok (s := s) (i := .cmp sz cin) rfl rfl (szOk_iff.2 ⟨h1, h2⟩)
  rw [hx, ← cmp3_eq_ite]
  rfl

/-- Settles O10: the sum's SZ bytes read back from A, and a store leaves what lies outside its bytes. -/
theorem addAddsTheImmediateInPlace : Obligations.AddAddsTheImmediateInPlace := by
  intro s sz hm
  refine ⟨fun h1 h2 => ?_, fun h => exec_bigint_refused rfl rfl (szOk_iff.not.2 h),
    decode_cmdWord_size (row := ⟨0x11, true, false, fun sz _ => .add sz⟩) (by simp [opcodeMap]) rfl rfl⟩
  refine ⟨_, exec_bigint_ok rfl rfl (szOk_iff.2 ⟨h1, h2⟩), ?_, fun a ha => ?_, rfl⟩
  · have hr := memReadBytes_memWriteBytes hm (bufBase .a)
      (length_be sz ((beInt (s.opA sz) + s.imm) % 2 ^ (8 * sz))).ge
    rw [List.take_of_length_le (length_be _ _).le] at hr
    exact (congrArg beInt hr).trans (beInt_be_of_lt (Nat.mod_lt _ (by positivity)))
  · exact memRead_memWriteBytes_outside hm (by rwa [length_be])

/-- Settles O11: R holds the difference modulo 2^(8·SZ) (`beInt_be_emod`), and BORROW is the sign of the difference. -/
theorem subWritesTheDifferenceAndTheBorrow : Obligations.SubWritesTheDifferenceAndTheBorrow := by
  intro s sz hm
  refine ⟨fun h1 h2 => ?_, fun h => exec_bigint_refused rfl rfl (szOk_iff.not.2 h),
    decode_cmdWord_size (row := ⟨0x12, true, false, fun sz _ => .sub sz⟩) (by simp [opcodeMap]) rfl rfl⟩
  have hx := exec_bigint_ok (s := s) (i := .sub sz) rfl rfl (szOk_iff.2 ⟨h1, h2⟩)
  obtain ⟨hr, hz, ho⟩ := writeR_mem hm (length_be _ _) h2 rfl
  refine ⟨_, hx, ?_, hz, ho, ?_⟩
  · exact (congrArg (fun v => (beInt v : Int)) hr).trans (beInt_be_emod sz _)
  · rw [← borrowOf_eq]; rfl

/-- Settles O19: what O11 says of R and BORROW, both operands being below 2^(8·SZ) (`sub_eq_emod_sub_ite`). -/
theorem subResultAndBorrowGiveTheDifference : Obligations.SubResultAndBorrowGiveTheDifference := by
  intro s sz hm h1 h2
  obtain ⟨t, ht, hr, -, -, hf⟩ := (subWritesTheDifferenceAndTheBorrow s sz hm).1 h1 h2
  have hb : t.borrow = decide (beInt (s.bytes .a sz) < beInt (s.bytes .b sz)) := congrArg State.borrow hf
  refine ⟨t, ht, ?_⟩
  simpa [hr, hb] using sub_eq_emod_sub_ite (beInt_bytes_lt s .a sz) (beInt_bytes_lt s .b sz)

/-- Settles O12: the shifted number is no larger than A. -/
theorem rshiftShiftsTowardsTheLeastSignificantEnd : Obligations.RshiftShiftsTowardsTheLeastSignificantEnd := by
  intro s sz hm
  refine ⟨fun h1 h2 => ?_, fun h => exec_bigint_refused rfl rfl (szOk_iff.not.2 h),
    decode_cmdWord_size (row := ⟨0x13, true, false, fun sz _ => .rshift sz⟩) (by simp [opcodeMap]) rfl rfl⟩
  have hx := exec_bigint_ok (s := s) (i := .rshift sz) rfl rfl (szOk_iff.2 ⟨h1, h2⟩)
  simp only [Nat.shiftRight_eq_div_pow] at hx
  refine exists_next_writeR hx hm (length_be _ _) h2 (beInt_be_of_lt ?_)
  split_ifs
  · positivity
  · exact (Nat.div_le_self _ _).trans_lt (beInt_bytes_lt s .a sz)

/-- Settles O13: the kept bits are no larger a number than A. -/
theorem truncKeepsTheLowBits : Obligations.TruncKeepsTheLowBits := by
  intro s sz hm
  refine ⟨fun h1 h2 => ?_, fun h => exec_bigint_refused rfl rfl (szOk_iff.not.2 h),
    decode_cmdWord_size (row := ⟨0x14, true, false, fun sz _ => .trunc sz⟩) (by simp [opcodeMap]) rfl rfl⟩
  have hx := exec_bigint_ok (s := s) (i := .trunc sz) rfl rfl (szOk_iff.2 ⟨h1, h2⟩)
  refine exists_next_writeR hx hm (length_be _ _) h2 (beInt_be_of_lt ?_)
  split_ifs
  · exact beInt_bytes_lt s .a sz
  · exact (Nat.mod_le _ _).trans_lt (beInt_bytes_lt s .a sz)

/-- Settles O14: `olen` is (ALU_IMM + 7) / 8, and ALU_IMM bits fit in that many bytes (`bits2int_lt`). -/
theorem bits2intKeepsTheLeftmostBits : Obligations.Bits2intKeepsTheLeftmostBits := by
  intro s sz olen hm
  refine ⟨fun h1 h2 h3 h4 h5 h6 => ?_, fun h => exec_bigint_refused rfl rfl ?_,
    decode_cmdWord_size (row := ⟨0x15, true, false, fun sz _ => .bits2int sz⟩) (by simp [opcodeMap]) rfl rfl⟩
  · have hk := immOk_iff.2 ⟨h3, h4⟩
    have hx := exec_bigint_ok (s := s) (i := .bits2int sz) rfl rfl
      (Bool.and_eq_true_iff.2 ⟨szOk_iff.2 ⟨h1, h2⟩, hk⟩)
    obtain rfl : olen = (s.imm + 7) / 8 := by change _ = (s.aluImm.toNat + 7) / 8; omega
    refine exists_next_writeR hx hm (length_be _ _) (imm_bytes_le hk) ?_
    have hlt := (bits2int_lt (s.opA sz) s.imm).trans_le (Nat.pow_le_pow_right (by norm_num) h5)
    exact (beInt_be_of_lt hlt).trans (bits2int_eq_ite (length_bytes _ _) _)
  · rw [Bool.and_eq_true_iff, szOk_iff, immOk_iff]
    tauto

/-- Settles O15: bits2octets as a number (`beInt_bits2octets`), `qlen` being the bit length of the order. -/
theorem bits2octReducesOnce : Obligations.Bits2octReducesOnce := by
  rintro s sz _ _ qlen v hm rfl rfl
  refine ⟨fun h1 h2 h3 h4 h5 h6 h7 hv => ?_, fun h => exec_bigint_refused rfl rfl ?_,
    decode_cmdWord_size (row := ⟨0x16, true, false, fun sz _ => .bits2oct sz⟩) (by simp [opcodeMap]) rfl rfl⟩
  · have hk := curveOk_iff.2 ⟨⟨h3, h4⟩, h5⟩
    have hx := exec_bigint_ok (s := s) (i := .bits2oct sz) rfl rfl
      (Bool.and_eq_true_iff.2 ⟨szOk_iff.2 ⟨h1, h2⟩, hk⟩)
    refine exists_next_writeR hx hm ((length_bits2octets _ _).trans (length_bytes _ _))
      (opsz_le_of_opszOk (opszOk_of_curveOk hk)) ?_
    obtain rfl := bitlen_unique h6 h7
    rw [hv, ← bits2int_eq_ite (length_bytes _ _)]
    exact beInt_bits2octets _ _
  · rw [Bool.and_eq_true_iff, szOk_iff, curveOk_iff, ← Nat.not_lt (b := 2)]
    tauto

/-- digest2op of a string of L bytes (40_bigint.md R113). -/
theorem digest2op_eq_ite {d : Bytes} {L : Nat} (hd : d.length = L) (sel : D2opSelect) (n : Nat) :
    digest2op sel d n = if L < n then List.replicate (n - L) 0 ++ d
      else match sel with
        | .trailing => d.drop (L - n)
        | .leading => d.take n := by
  subst hd
  cases sel <;> rfl

/-- Settles O16: R holds the digest2op of A (`digest2op_eq_ite`). -/
theorem d2opPadsOrSelects : Obligations.D2opPadsOrSelects := by
  rintro s sz _ hm rfl
  refine ⟨fun h1 h2 h3 h4 => ?_, fun h => exec_bigint_refused rfl rfl ?_,
    decode_cmdWord_size (row := ⟨0x17, true, false, fun sz _ => .d2op sz⟩) (by simp [opcodeMap]) rfl rfl⟩
  · have hk := opszOk_iff.2 ⟨h3, h4⟩
    have hx := exec_bigint_ok (s := s) (i := .d2op sz) rfl rfl
      (Bool.and_eq_true_iff.2 ⟨szOk_iff.2 ⟨h1, h2⟩, hk⟩)
    obtain ⟨hr, hz, ho⟩ := writeR_mem hm (length_digest2op s.params.d2opSelect (s.opA sz) s.opsz)
      (opsz_le_of_opszOk hk) rfl
    exact ⟨_, hx, hr.trans (digest2op_eq_ite (length_bytes _ _) _ _), hz, ho, rfl⟩
  · rw [Bool.and_eq_true_iff, szOk_iff, opszOk_iff]
    tauto

end Sys2Proof.Machine
end

section
/-! PROOFS. The randomized nonce (41_nonce_random.md): rnd_k's draw and test, the two ends of NONCE_RND, its step bound,
and the range of the nonce that a NONCE command gives. -/

namespace Sys2Proof.Machine

open Sys2Proof

variable {s t : State} {i : Instr} {accepted : Point}

/-! ## What termination leaves (60_exceptions.md R215) -/

theorem wipeSession_eq (s : State) (cmd : Option Instr) :
    s.wipeSession cmd = s ∨ s.wipeSession cmd = s.zeroizeSession := by
  unfold State.wipeSession
  split
  · exact .inl rfl
  · split_ifs
    · exact .inr rfl
    · exact .inl rfl

/-- Termination leaves the parameters, CFG.OPSZ and the input list. -/
theorem terminate_frame (s : State) (cmd : Option Instr) (e : ErrCode) :
    (s.terminate cmd e).params = s.params ∧ (s.terminate cmd e).opsz8 = s.opsz8 ∧
      (s.terminate cmd e).inputs = s.inputs := by
  unfold State.terminate
  rcases wipeSession_eq (s.wipeOutput cmd e) cmd with h | h <;> rw [h] <;> simp

theorem terminate_bufcap (s : State) (cmd : Option Instr) (e : ErrCode) : (s.terminate cmd e).bufcap = s.bufcap :=
  congrArg Params.bufcap (terminate_frame s cmd e).1

/-! ## A failed nonce or signing command (60_exceptions.md R215, R216) -/

theorem isSign_of_isNonce (hi : i.isNonce = true) : i.isSign = false := by
  cases i <;> simp [Instr.isNonce, Instr.isSign] at hi ⊢

theorem wipeOutput_of_isNonce {e : ErrCode} (hi : i.isNonce = true) (he : e ≠ .none) :
    s.wipeOutput (some i) e = s.wipe .nonce := by
  simp [State.wipeOutput, hi, he]

theorem wipeOutput_of_isSign {e : ErrCode} (hi : i.isSign = true) (he : e ≠ .none) :
    s.wipeOutput (some i) e = (s.wipe .sigR).wipe .sigS := by
  have hn : i.isNonce = false := Bool.eq_false_iff.2 fun hn => by simp [isSign_of_isNonce hn] at hi
  simp [State.wipeOutput, hi, hn, he]

theorem wipeOutput_bufZero (hm : memWf s.mem = true) (hi : isSecret i = true) {e : ErrCode} (he : e ≠ .none) {x : Buf}
    (hx : x ∈ outputsOf i) : BufZero (s.wipeOutput (some i) e) x := by
  unfold outputsOf at hx
  split_ifs at hx with hs
  · rw [wipeOutput_of_isSign hs he]
    have hr := wipe_memForm hm .sigR
    obtain rfl | rfl : x = .sigR ∨ x = .sigS := by simpa using hx
    · exact wipe_keeps_bufZero hr .sigS .sigR (wipe_bufZero hm .sigR)
    · exact wipe_bufZero hr .sigS
  · have hn : i.isNonce = true := by simpa [isSecret, hs] using hi
    obtain rfl : x = .nonce := by simpa using hx
    rw [wipeOutput_of_isNonce hn he]
    exact wipe_bufZero hm .nonce

/-- Session zeroization leaves a zeroed buffer zero. -/
theorem zeroizeSession_bufZero (hm : memWf s.mem = true) {x : Buf} (hx : BufZero s x) : BufZero s.zeroizeSession x :=
  wipe_keeps_bufZero (s := s.wipe .key) (wipe_memForm hm .key) .digest x (wipe_keeps_bufZero hm .key x hx)

/-- `raise e` in a nonce or signing command. -/
theorem raise_sessionFailed (hm : memWf s.mem = true) (hi : isSecret i = true) {e : ErrCode} (he : e ≠ .none) :
    SessionFailed i e s (s.raise i e) := by
  refine ⟨terminate_sessionEnded hi hm e (fun hn => ?_) (fun hs => ?_), fun x hx => ?_⟩
  · simp [outputsOf, isSign_of_isNonce hn]
  · simp [outputsOf, hs]
  · rw [State.raise, terminate_session hi]
    exact zeroizeSession_bufZero (wipeOutput_memForm hm _ _) (wipeOutput_bufZero hm hi he hx)

/-! ## The end of a nonce command: `k` into NONCE (41_nonce_random.md R130, 42_nonce_rfc6979.md R142) -/

/-- Only the bytes of a buffer say what it holds: a change outside leaves it. -/
theorem SameOutside.bufHolds {xs : List Buf} (h : SameOutside xs s t) (hc : s.bufcap ≤ 128)
    (ht : t.bufcap = s.bufcap) {x : Buf} (hx : x ∉ xs) {v : Bytes} (hv : v.length ≤ s.bufcap) (hs : BufHolds s x v) :
    BufHolds t x v := by
  obtain ⟨hb, hz⟩ := hs
  refine ⟨(h.bytes hc hx hv).trans hb, fun j h1 h2 => ?_⟩
  rw [ht] at h2
  refine (h _ fun y hy => ?_).trans (hz j h1 h2)
  have := bufBase_apart (x := x) (y := y) (by rintro rfl; exact hx hy)
  omega

/-- `finish()` of a nonce or signing command writes KEY and DIGEST only. -/
theorem finish_sameOutside (hm : memWf s.mem = true) (hi : isSecret i = true) :
    SameOutside [.key, .digest] s (s.finish i) := by
  rw [State.finish, terminate_session hi, wipeOutput_none]
  exact (wipe_sameOutside (x := .key) hm (by simp)).trans
    (wipe_sameOutside (s := s.wipe .key) (x := .digest) (wipe_memForm hm .key) (by simp)) rfl

theorem giveNonce_bufHolds (hp : s.params.ok) (hm : memWf s.mem = true) (hi : isSecret i = true)
    (hc : s.cand.length ≤ s.bufcap) : BufHolds (s.giveNonce i) .nonce s.cand :=
  (finish_sameOutside (fill_memForm hm _ _) hi).bufHolds (bufcap_le hp) (terminate_bufcap _ _ _) (by simp) hc
    (fill_bufHolds hm _ hc)

theorem giveNonce_sessionEnded (hm : memWf s.mem = true) (hi : i.isNonce = true) (hc : s.cand.length ≤ s.bufcap) :
    SessionEnded [.nonce] .none s (s.giveNonce i) := by
  obtain ⟨hk, hd, ho, hf⟩ := terminate_sessionEnded (s := s.fill .nonce s.cand) (i := i) (xs := [.nonce])
    (by simp [hi]) (fill_memForm hm _ _) .none (by simp) (by simp [isSign_of_isNonce hi])
  exact ⟨hk, hd, (fill_sameOutside hm (by simp) hc).trans ho rfl, congrArg (fun u => { u with mem := s.mem }) hf⟩

/-! ## rnd_k at its draw point (41_nonce_random.md R131, 70_reset_and_hazards.md R248) -/

/-- `i` is a command of the randomized path, and goes on to `accepted` with a tested candidate. -/
def OnRandomPath (i : Instr) (accepted : Point) : Prop :=
  i = .nonceRnd ∧ accepted = .finish ∨ i = .signRnd ∧ accepted = .acquire

theorem OnRandomPath.isSecret (h : OnRandomPath i accepted) : isSecret i = true := by
  rcases h with ⟨rfl, -⟩ | ⟨rfl, -⟩ <;> rfl

theorem exec_draw (h : OnRandomPath i accepted) (hc : s.ctl = .running i .draw) : exec i s = .next (s.drawStep i) := by
  rcases h with ⟨rfl, -⟩ | ⟨rfl, -⟩
  · rw [exec, execNonceRnd, pointOf_running hc]
  · rw [exec, execSignRnd, pointOf_running hc]

theorem exec_test (h : OnRandomPath i accepted) (hc : s.ctl = .running i .test) :
    exec i s = .next (s.testStep i accepted) := by
  rcases h with ⟨rfl, rfl⟩ | ⟨rfl, rfl⟩
  · rw [exec, execNonceRnd, pointOf_running hc]
  · rw [exec, execSignRnd, pointOf_running hc]

theorem drawStep_exhausted (hd : s.draws = s.params.rndMaxDraws) : s.drawStep i = s.raise i .insufficientEntropy :=
  if_pos hd

theorem drawStep_unanswered (hd : s.draws ≠ s.params.rndMaxDraws) (ho : s.oracles.entropy = []) : s.drawStep i = s := by
  rw [State.drawStep, if_neg hd, ho]

/-- `s` after an Entropy call that the source answered: the call is counted and traced (41_nonce_random.md R131). -/
def State.entropySpent (s : State) (rest : List EntropyAnswer) : State :=
  { s with
    draws := s.draws + 1
    oracles := { s.oracles with entropy := rest }
    trace := .entropy s.opsz :: s.trace }

theorem drawStep_failed (hd : s.draws ≠ s.params.rndMaxDraws) {rest : List EntropyAnswer}
    (ho : s.oracles.entropy = .fail :: rest) :
    s.drawStep i = { s.entropySpent rest with faultInfo := .entropy }.raise i .hardwareFault := by
  rw [State.drawStep, if_neg hd, ho]; rfl

theorem drawStep_drawn (hd : s.draws ≠ s.params.rndMaxDraws) {e : Bytes} {rest : List EntropyAnswer}
    (ho : s.oracles.entropy = .bytes e :: rest) :
    s.drawStep i = { s.entropySpent rest with
      nonce := { s.nonce with t := fit s.opsz e ++ s.nonce.t.drop s.opsz, tlen := s.opsz }
      ctl := .running i .test } := by
  rw [State.drawStep, if_neg hd, ho, ← splice_zero (length_fit _ _)]; rfl

/-! ## rnd_k at its test point (41_nonce_random.md R131) -/

/-- The masked candidate fits in OPSZ bytes, as the order does. -/
theorem beInt_maskedCand (s : State) : beInt s.maskedCand = beInt s.cand % 2 ^ s.qlen := by
  have hq : s.qlen ≤ 8 * s.opsz := (bitlen_beInt_le s.order).trans_eq (by rw [State.order, length_bytes])
  exact beInt_be_of_lt ((Nat.mod_lt _ (by positivity)).trans_le (Nat.pow_le_pow_right (by norm_num) hq))

theorem outOfRange_iff {c n : Bytes} : outOfRange c n = true ↔ beInt c = 0 ∨ beInt n ≤ beInt c := by
  rw [← Bool.not_eq_false, outOfRange_false]; omega

theorem testStep_eq {c : Nat} (h : c = beInt s.cand % 2 ^ s.qlen) : s.testStep i accepted =
    { s with
      nonce := { s.nonce with t := be s.opsz c ++ s.nonce.t.drop s.opsz }
      ctl := .running i (if c = 0 ∨ s.q ≤ c then .draw else accepted) } := by
  have hr : outOfRange s.maskedCand s.order = true ↔ c = 0 ∨ s.q ≤ c := by
    rw [outOfRange_iff, beInt_maskedCand, h]; rfl
  have ht : splice s.nonce.t 0 s.maskedCand = be s.opsz c ++ s.nonce.t.drop s.opsz := by
    rw [h]; exact splice_zero (length_be _ _)
  rw [← ht, ← if_congr hr rfl rfl]
  rfl

/-- Settles O22: the draw step's four cases (`drawStep_exhausted` and the lemmas beside it), and the test of the masked
candidate as a number (`testStep_eq`). -/
theorem rndKDrawsMasksAndTests : Obligations.RndKDrawsMasksAndTests := by
  intro s i accepted (hi : OnRandomPath i accepted) _ hm
  refine ⟨fun hc hd => ⟨_, exec_draw hi hc, ?_⟩, fun hc hd ho => ?_, fun rest hc hd ho => ⟨_, exec_draw hi hc, ?_⟩,
    fun e rest hc hd ho he => ?_, fun qlen c hc h1 h2 h => ?_⟩
  · rw [drawStep_exhausted hd]
    exact raise_sessionFailed hm hi.isSecret (by decide)
  · rw [exec_draw hi hc, drawStep_unanswered hd ho]
  · rw [drawStep_failed hd ho]
    exact raise_sessionFailed (s := { s.entropySpent rest with faultInfo := .entropy }) hm hi.isSecret (by decide)
  · rw [exec_draw hi hc, drawStep_drawn hd ho, fit_of_length he]
    rfl
  · obtain rfl := bitlen_unique h1 h2
    rw [exec_test hi hc, testStep_eq h]

/-! ## NONCE_RND at its start and at its end (41_nonce_random.md R130) -/

theorem exec_nonceRnd_start (hc : s.ctl = .running .nonceRnd .start) : exec .nonceRnd s =
    .next (if s.curveOk then s.startDraws .nonceRnd else s.raise .nonceRnd .invalidArgument) := by
  rw [exec, execNonceRnd, pointOf_running hc]

theorem exec_nonceRnd_finish (hc : s.ctl = .running .nonceRnd .finish) :
    exec .nonceRnd s = .next (s.giveNonce .nonceRnd) := by
  rw [exec, execNonceRnd, pointOf_running hc]

/-- Settles O23: the curve check decides the first step, and the last one gives the candidate (`giveNonce_bufHolds`,
`giveNonce_sessionEnded`). -/
theorem nonceRndStartsAndCompletes : Obligations.NonceRndStartsAndCompletes := by
  intro s hp hm
  have hk : s.curveOk = true ↔ 1 ≤ s.opsz ∧ s.opsz ≤ s.params.maxOpsz ∧ 2 ≤ s.q := curveOk_iff.trans and_assoc
  refine ⟨fun hc => ⟨fun h => ?_, fun h => ⟨_, exec_nonceRnd_start hc, ?_⟩⟩, fun hc ho _ => ?_⟩
  · rw [exec_nonceRnd_start hc, if_pos (hk.2 h)]; rfl
  · rw [if_neg (hk.not.2 h)]
    exact raise_sessionFailed hm rfl (by decide)
  · have hl : s.cand.length ≤ s.bufcap := (List.length_take_le _ _).trans (ho.trans (le_max_right _ _))
    exact ⟨_, exec_nonceRnd_finish hc, giveNonce_bufHolds hp hm rfl hl, giveNonce_sessionEnded hm rfl hl⟩

/-! ## The step bound of NONCE_RND (41_nonce_random.md R133, 70_reset_and_hazards.md R251) -/

/-- After `k` steps the command has terminated. -/
def EndsAfter (k : Nat) (s : State) : Prop :=
  ∃ t, runSteps k s = .next t ∧ t.busy = false ∧ t.done = true ∧ t.ctl = .idle

theorem endsAfter_terminate (hi : s.inputs = []) (k : Nat) (cmd : Option Instr) (e : ErrCode) :
    EndsAfter k (s.terminate cmd e) := by
  obtain ⟨-, -, h⟩ := terminate_frame s cmd e
  exact ⟨_, runSteps_idle (h.trans hi) rfl k, rfl, rfl, rfl⟩

theorem endsAfter_raise (hi : s.inputs = []) (k : Nat) (e : ErrCode) : EndsAfter k (s.raise i e) :=
  endsAfter_terminate hi k _ e

theorem endsAfter_giveNonce (hi : s.inputs = []) (k : Nat) : EndsAfter k (s.giveNonce i) :=
  endsAfter_terminate (s := s.fill .nonce s.cand) hi k _ _

theorem EndsAfter.of_exec {k : Nat} {p : Point} (hi : s.inputs = []) (hc : s.ctl = .running i p)
    (hx : exec i s = .next t) (h : EndsAfter k t) : EndsAfter (k + 1) s := by
  have hs : step s = .next t := by rw [step_no_input hi, engineStep_running hc, hx]
  unfold EndsAfter
  rwa [runSteps_succ_next hs]

theorem nonceRnd_onRandomPath : OnRandomPath .nonceRnd .finish := .inl ⟨rfl, rfl⟩

/-- From the test point the command goes back to the draw point, everything that the next draw reads being as before, or
goes on to its last step. -/
theorem endsAfter_test {k : Nat} (hi : s.inputs = []) (hc : s.ctl = .running .nonceRnd .test)
    (hdraw : ∀ t : State, t.inputs = [] → t.ctl = .running .nonceRnd .draw → t.draws = s.draws →
      t.params = s.params → t.oracles = s.oracles → EndsAfter (k + 1) t) : EndsAfter (k + 2) s := by
  refine EndsAfter.of_exec hi hc (exec_test nonceRnd_onRandomPath hc) ?_
  rw [testStep_eq rfl]
  split_ifs
  · exact hdraw _ hi rfl rfl rfl rfl
  · refine EndsAfter.of_exec ?_ rfl (exec_nonceRnd_finish rfl) (endsAfter_giveNonce ?_ k) <;> exact hi

/-- From the draw point with `k` draws left, every draw takes two steps and the end one more. -/
theorem endsAfter_draw {k : Nat} (hi : s.inputs = []) (hc : s.ctl = .running .nonceRnd .draw)
    (hd : s.draws + k = s.params.rndMaxDraws) (ho : k ≤ s.oracles.entropy.length) : EndsAfter (2 * k + 1) s := by
  induction k generalizing s with
  | zero =>
    refine EndsAfter.of_exec hi hc (exec_draw nonceRnd_onRandomPath hc) ?_
    rw [drawStep_exhausted hd]
    exact endsAfter_raise hi _ _
  | succ k ih =>
    refine EndsAfter.of_exec (k := 2 * k + 2) hi hc (exec_draw nonceRnd_onRandomPath hc) ?_
    have hne : s.draws ≠ s.params.rndMaxDraws := by omega
    obtain ⟨a, rest, ha⟩ := List.exists_cons_of_length_pos (l := s.oracles.entropy) (by omega)
    have hrest : k ≤ rest.length := by rw [ha] at ho; simpa using ho
    cases a with
    | fail =>
      rw [drawStep_failed hne ha]
      exact endsAfter_raise (s := { s.entropySpent rest with faultInfo := .entropy }) hi _ _
    | bytes e =>
      rw [drawStep_drawn hne ha]
      refine endsAfter_test hi rfl fun t hi' hc' hdraws hparams horacles => ih hi' hc' ?_ ?_
      · rw [hdraws, hparams]
        change s.draws + 1 + k = s.params.rndMaxDraws
        omega
      · rw [horacles]
        exact hrest

/-- Settles O24: one step for the check, and the rest from the first draw on (`endsAfter_draw`). -/
theorem nonceRndEndsWithinItsBound : Obligations.NonceRndEndsWithinItsBound := by
  intro s ⟨hc, _, hi⟩ ho
  refine EndsAfter.of_exec hi hc (exec_nonceRnd_start hc) ?_
  split_ifs
  · exact endsAfter_draw hi rfl (Nat.zero_add _) ho
  · exact endsAfter_raise hi _ _

/-! ## The nonce that a NONCE command gives (41_nonce_random.md R133, 42_nonce_rfc6979.md R150) -/

/-- The step left BUSY as it was, or ended with an error. -/
def StaysOrFails (s t : State) : Prop := t.busy = s.busy ∨ t.err ≠ .none

theorem staysOrFails_raise {e : ErrCode} (he : e ≠ .none) : StaysOrFails s (t.raise i e) := .inr he

theorem staysOrFails_drawStep (s : State) (i : Instr) : StaysOrFails s (s.drawStep i) := by
  by_cases hd : s.draws = s.params.rndMaxDraws
  · rw [drawStep_exhausted hd]; exact staysOrFails_raise (by decide)
  cases ho : s.oracles.entropy with
  | nil => rw [drawStep_unanswered hd ho]; exact .inl rfl
  | cons a rest =>
    cases a with
    | fail => rw [drawStep_failed hd ho]; exact staysOrFails_raise (by decide)
    | bytes e => rw [drawStep_drawn hd ho]; exact .inl rfl

theorem staysOrFails_withHmac {u : State} {key msg : Bytes} {f : State → Bytes → State} (hu : u.busy = s.busy)
    (hf : ∀ t k, (f t k).busy = t.busy) : StaysOrFails s (u.withHmac key msg f) := by
  rcases withHmac_cases (s := u) key msg f with ⟨_, e⟩ | ⟨_, e⟩ <;> rw [e]
  · exact .inl hu
  · exact .inl ((hf _ _).trans hu)

/-- derive's loop reaches `accept` in step 6 only, with a reduced candidate in 1..n−1. -/
theorem deriveStep_cases (s : State) (i : Instr) (accept : State → State) :
    StaysOrFails s (s.deriveStep i accept) ∨
      outOfRange s.reducedCand s.order = false ∧ s.deriveStep i accept = accept (s.putT s.reducedCand) := by
  unfold State.deriveStep
  cases s.nonce.step
  case step5 => exact .inl (.inl rfl)
  case step6 =>
    dsimp only
    unfold State.rfc6
    split_ifs with hr
    · exact .inl (staysOrFails_raise (by decide))
    · exact .inl (staysOrFails_withHmac rfl fun _ _ => rfl)
    · exact .inr ⟨by simpa using hr, rfl⟩
  all_goals exact .inl (staysOrFails_withHmac rfl fun _ _ => rfl)

/-- `t` ends nonce command `i` by giving a tested candidate. -/
def GivesTested (i : Instr) (t : State) : Prop := ∃ u, Run i u ∧ u.candInRange ∧ t = u.giveNonce i

theorem execNonceRnd_cases {p : Point} (h : s.Inv) (hc : s.ctl = .running .nonceRnd p)
    (hx : execNonceRnd s = .next t) : StaysOrFails s t ∨ GivesTested .nonceRnd t := by
  unfold execNonceRnd at hx
  rw [pointOf_running hc] at hx
  cases hx
  split
  · exact .inl (staysOrFails_drawStep s _)
  · exact .inl (.inl rfl)
  · exact .inr ⟨s, h.run hc rfl (by decide), h.candidate _ _ hc rfl, rfl⟩
  split_ifs
  · exact .inl (.inl rfl)
  · exact .inl (staysOrFails_raise (by decide))

theorem execNonceDet_cases {p : Point} (h : s.Inv) (hc : s.ctl = .running .nonceDet p)
    (hx : execNonceDet s = .next t) : StaysOrFails s t ∨ GivesTested .nonceDet t := by
  unfold execNonceDet at hx
  rw [pointOf_running hc] at hx
  cases hx
  split
  · refine (deriveStep_cases s .nonceDet _).imp_right fun ⟨hr, he⟩ => ?_
    have hrun := h.run hc rfl (by decide)
    refine ⟨_, run_putT hrun _ ((length_be _ _).trans_le (run_opsz hrun)), ?_, he⟩
    unfold State.candInRange
    rw [cand_putT _ (length_be _ _)]
    exact outOfRange_false.1 hr
  split_ifs
  · exact .inl (staysOrFails_withHmac rfl fun _ _ => rfl)
  · exact .inl (staysOrFails_raise (by decide))

/-- NONCE holds the candidate, and N is as it was when the candidate was tested. -/
theorem giveNonce_inRange (hr : Run i s) (hi : i.isNonce = true) (hk : s.candInRange) (ht : t = s.giveNonce i) :
    1 ≤ beInt (t.bytes .nonce t.opsz) ∧ beInt (t.bytes .nonce t.opsz) < beInt (t.bytes .n t.opsz) := by
  subst ht
  have hm := hr.base.memForm
  have ho := run_opsz hr
  have hl : s.cand.length = s.opsz := by
    obtain ⟨-, -, hT, -⟩ := hr.lengths
    exact List.length_take_of_le (ho.trans hT.ge)
  obtain ⟨hb, -⟩ := giveNonce_bufHolds hr.base.params hm hr.secret (hl.trans_le ho)
  obtain ⟨-, -, hn, -⟩ := giveNonce_sessionEnded hm hi (hl.trans_le ho)
  have hz : (s.giveNonce i).opsz = s.opsz := by
    obtain ⟨-, h, -⟩ := terminate_frame (s.fill .nonce s.cand) (some i) .none
    exact congrArg BitVec.toNat h
  rw [hl] at hb
  rw [hz, hb, hn.bytes (bufcap_le hr.base.params) (x := .n) (by decide) ho]
  exact hk

/-- Settles O60: the only step that ends a NONCE command with NONE gives a tested candidate (`execNonceRnd_cases`,
`execNonceDet_cases`). -/
theorem givenNonceIsInRange : Obligations.GivenNonceIsInRange := by
  intro s t i p hi h hc hx hb he
  have hs : s.busy = true := h.busyIff.2 (by simp [hc])
  have hcases : StaysOrFails s t ∨ GivesTested i t := by
    rcases hi with rfl | rfl
    · exact execNonceRnd_cases h hc hx
    · exact execNonceDet_cases h hc hx
  have hn : i.isNonce = true := by rcases hi with rfl | rfl <;> rfl
  rcases hcases with (hbusy | herr) | ⟨u, hr, hk, ht⟩
  · rw [hb, hs] at hbusy; cases hbusy
  · exact absurd he herr
  · exact giveNonce_inRange hr hn hk ht

end Sys2Proof.Machine
end

section
/-! PROOFS. The RFC 6979 machine, step by step (42_nonce_rfc6979.md R143 to R151): what each step of derive and
forced_reject writes, and how the commands that run it start and complete. -/

namespace Sys2Proof.Machine

open Sys2Proof

variable {s t : State} {i : Instr} {accept : State → State}

/-! ## The engine at derive (42_nonce_rfc6979.md R140, R142) -/

theorem exec_nonceDet_derive (hc : s.ctl = .running .nonceDet .derive) :
    exec .nonceDet s = .next (s.deriveStep .nonceDet (·.giveNonce .nonceDet)) := by
  rw [exec, execNonceDet, pointOf_running hc]

theorem exec_signDet_derive (hc : s.ctl = .running .signDet .derive) :
    exec .signDet s = .next (s.deriveStep .signDet (·.goto .signDet .acquire)) := by
  rw [exec, execSignDet, pointOf_running hc]

/-- Both commands of the RFC 6979 machine run derive's loop; they differ in what they do with an accepted candidate. -/
theorem exec_derive (hi : i = .nonceDet ∨ i = .signDet) (hc : s.ctl = .running i .derive) :
    ∃ accept, exec i s = .next (s.deriveStep i accept) := by
  rcases hi with rfl | rfl
  · exact ⟨_, exec_nonceDet_derive hc⟩
  · exact ⟨_, exec_signDet_derive hc⟩

theorem isSecret_of_isDet (hi : i = .nonceDet ∨ i = .signDet) : isSecret i = true := by
  rcases hi with rfl | rfl <;> rfl

/-! ## What an answered HMAC call leaves in NonceState (42_nonce_rfc6979.md R143 to R147) -/

/-- `n` after `V ← HMAC_K(V); STEP ← st`. -/
def State.chainV (s : State) (n : NonceState) (st : RfcStep) : NonceState :=
  { n with v := s.hmac (n.k.take s.hlen) (n.v.take s.hlen) ++ n.v.drop s.hlen, step := st }

/-- `n` after `K ← HMAC_K(msg); STEP ← st`. -/
def State.chainK (s : State) (n : NonceState) (msg : Bytes) (st : RfcStep) : NonceState :=
  { n with k := s.hmac (n.k.take s.hlen) msg ++ n.k.drop s.hlen, step := st }

/-- `n` after step 0 (42_nonce_rfc6979.md R143). -/
def State.setup (s : State) (n : NonceState) : NonceState :=
  { n with
    k := s.hmac (zeros s.hlen) (s.keyMsg (ones s.hlen) 0x00 s.t0) ++ n.k.drop s.hlen
    v := ones s.hlen ++ n.v.drop s.hlen
    t := s.t0 ++ n.t.drop s.opsz
    tlen := s.opsz
    step := .step1 }

/-- The message of step 2 (42_nonce_rfc6979.md R145). -/
def State.seedMsg (s : State) (n : NonceState) : Bytes := s.keyMsg (n.v.take s.hlen) 0x01 (n.t.take s.opsz)

/-- `n` after step 3: V moves on, and T is empty (42_nonce_rfc6979.md R146). -/
def State.emptied (s : State) (n : NonceState) : NonceState :=
  { s.chainV n .step4 with t := zeros s.bufcap, tlen := 0 }

/-- The message of a rejection, V ‖ 0x00 (42_nonce_rfc6979.md R149, R151). -/
def State.rejectMsg (s : State) (n : NonceState) : Bytes := n.v.take s.hlen ++ [0x00]

theorem hmacSpent_putV (key msg : Bytes) (st : RfcStep) : (s.hmacSpent key msg).putV st (s.hmac s.kKey s.vVal) =
    { s.hmacSpent key msg with nonce := s.chainV s.nonce st } :=
  congrArg (fun v => { s.hmacSpent key msg with nonce := { s.nonce with v := v, step := st } })
    (splice_zero (length_hmac _ _))

theorem hmacSpent_putK (key msg : Bytes) (st : RfcStep) : (s.hmacSpent key msg).putK st (s.hmac s.kKey msg) =
    { s.hmacSpent key msg with nonce := s.chainK s.nonce msg st } :=
  congrArg (fun k => { s.hmacSpent key msg with nonce := { s.nonce with k := k, step := st } })
    (splice_zero (length_hmac _ _))

theorem initKVT_nonce (s : State) : s.initKVT.nonce =
    { s.nonce with
      k := zeros s.hlen ++ s.nonce.k.drop s.hlen
      v := ones s.hlen ++ s.nonce.v.drop s.hlen
      t := s.t0 ++ s.nonce.t.drop s.opsz
      tlen := s.opsz } := by
  rw [← splice_zero (length_zeros _), ← splice_zero (length_ones _), ← splice_zero (length_t0 _)]; rfl

/-! ## The steps with the HMAC unit answering -/

section Answered

variable (h : s.oracles.hmacAnswers ≠ some 0)
include h

theorem deriveStep_step0 (hn : s.nonce.step = .step0) : s.deriveStep i accept =
    { s.hmacSpent (zeros s.hlen) (s.keyMsg (ones s.hlen) 0x00 s.t0) with nonce := s.setup s.nonce } := by
  rw [State.deriveStep, hn]
  dsimp only
  rw [State.rfc0, withHmac_answered h]
  have hk : splice (zeros s.hlen ++ s.nonce.k.drop s.hlen) 0
      (s.hmac (zeros s.hlen) (s.keyMsg (ones s.hlen) 0x00 s.t0)) =
      s.hmac (zeros s.hlen) (s.keyMsg (ones s.hlen) 0x00 s.t0) ++ s.nonce.k.drop s.hlen := by
    rw [splice_zero (length_hmac _ _), List.drop_left' (length_zeros _)]
  unfold State.putK
  rw [initKVT_nonce (s.hmacSpent _ _), State.setup, ← hk]
  rfl

theorem deriveStep_step1 (hn : s.nonce.step = .step1) : s.deriveStep i accept =
    { s.hmacSpent s.kKey s.vVal with nonce := s.chainV s.nonce .step2 } := by
  rw [State.deriveStep, hn]
  exact (withHmac_answered h).trans (hmacSpent_putV _ _ _)

theorem deriveStep_step2 (hn : s.nonce.step = .step2) : s.deriveStep i accept =
    { s.hmacSpent s.kKey (s.seedMsg s.nonce) with nonce := s.chainK s.nonce (s.seedMsg s.nonce) .step3 } := by
  rw [State.deriveStep, hn]
  exact (withHmac_answered h).trans (hmacSpent_putK _ _ _)

theorem deriveStep_step3 (hn : s.nonce.step = .step3) : s.deriveStep i accept =
    { s.hmacSpent s.kKey s.vVal with nonce := s.emptied s.nonce } := by
  rw [State.deriveStep, hn]
  exact (withHmac_answered h).trans (congrArg State.emptyT (hmacSpent_putV _ _ _))

theorem deriveStep_step4 (hn : s.nonce.step = .step4) : s.deriveStep i accept =
    { s.hmacSpent s.kKey s.vVal with nonce := s.chainV s.nonce .step5 } := by
  rw [State.deriveStep, hn]
  exact (withHmac_answered h).trans (hmacSpent_putV _ _ _)

theorem rejectKey_answered (f : State → State) : s.rejectKey f =
    f { s.hmacSpent s.kKey (s.rejectMsg s.nonce) with
      nonce := s.chainK s.nonce (s.rejectMsg s.nonce) .step3 } :=
  (withHmac_answered h).trans (congrArg f (hmacSpent_putK _ _ _))

end Answered

/-- Settles O25: what steps 0, 1 and 2 leave, in `deriveStep_step0` and the lemmas beside it. -/
theorem rfcSetupSteps : Obligations.RfcSetupSteps := by
  intro s i hi hc ho
  obtain ⟨accept, hx⟩ := exec_derive hi hc
  refine ⟨?step0, ?step1, ?step2⟩ <;> rintro h _ _ rfl rfl
  case step0 => exact hx.trans (congrArg _ (deriveStep_step0 ho h))
  case step1 => exact hx.trans (congrArg _ (deriveStep_step1 ho h))
  case step2 => exact hx.trans (congrArg _ (deriveStep_step2 ho h))

/-! ## Step 5 appends to T (42_nonce_rfc6979.md R148) -/

theorem splice_of_length {x y : Bytes} {n : Nat} (off : Nat) (h : y.length = n) :
    splice x off y = x.take off ++ y ++ x.drop (off + n) := by
  subst h; rfl

/-- `n` after step 5 (42_nonce_rfc6979.md R148). -/
def State.appendV (s : State) (n : NonceState) : NonceState :=
  let m := min s.hlen (s.opsz - n.tlen)
  { n with
    t := splice n.t n.tlen (n.v.take m)
    tlen := n.tlen + m
    step := if n.tlen + m < s.opsz then .step4 else .step6 }

theorem deriveStep_step5 (hn : s.nonce.step = .step5) :
    s.deriveStep i accept = { s with nonce := s.appendV s.nonce } := by
  rw [State.deriveStep, hn]; rfl

/-- Settles O26: what steps 3, 4 and 5 leave, in `deriveStep_step3` and the lemmas beside it; step 5 appends `m` bytes. -/
theorem rfcCandidateSteps : Obligations.RfcCandidateSteps := by
  intro s i hi hc
  obtain ⟨accept, hx⟩ := exec_derive hi hc
  refine ⟨?step3, ?step4, ?step5⟩
  case step3 => rintro h ho _ _ rfl rfl; exact hx.trans (congrArg _ (deriveStep_step3 ho h))
  case step4 => rintro h ho _ _ rfl rfl; exact hx.trans (congrArg _ (deriveStep_step4 ho h))
  case step5 =>
    rintro h m rfl hm
    rw [hx, deriveStep_step5 h, ← splice_of_length _ (List.length_take_of_le hm)]
    rfl

/-! ## Step 6 (42_nonce_rfc6979.md R149, R150) -/

theorem length_reducedCand (s : State) : s.reducedCand.length = s.opsz := length_be _ _

/-- The reduced candidate fits in OPSZ bytes. -/
theorem beInt_reducedCand (s : State) : beInt s.reducedCand = bits2int s.cand s.qlen := by
  have hq : s.qlen ≤ 8 * s.opsz := (bitlen_beInt_le s.order).trans_eq (by rw [State.order, length_bytes])
  exact beInt_be_of_lt ((bits2int_lt _ _).trans_le (Nat.pow_le_pow_right (by norm_num) hq))

/-- Step 6 refuses the candidate exactly where it is not in 1..q−1. -/
theorem outOfRange_reducedCand (s : State) : outOfRange s.reducedCand s.order = false ↔
    1 ≤ bits2int s.cand s.qlen ∧ bits2int s.cand s.qlen < s.q := by
  rw [outOfRange_false, beInt_reducedCand]; rfl

theorem putT_reducedCand (s : State) : s.putT s.reducedCand = { s with
    nonce := { s.nonce with t := s.reducedCand ++ s.nonce.t.drop s.opsz } } :=
  congrArg (fun t => { s with nonce := { s.nonce with t := t } }) (splice_zero (length_reducedCand s))

theorem cand_putT_reducedCand (s : State) : (s.putT s.reducedCand).cand = s.reducedCand :=
  cand_putT _ (length_reducedCand s)

theorem deriveStep_accepted (h : s.nonce.step = .step6) (hr : outOfRange s.reducedCand s.order = false) :
    s.deriveStep i accept = accept (s.putT s.reducedCand) := by
  rw [State.deriveStep, h]; dsimp only; rw [State.rfc6, if_neg (by simp [hr])]

theorem deriveStep_exhausted (h : s.nonce.step = .step6) (hr : outOfRange s.reducedCand s.order = true)
    (hm : s.nonce.retry = s.maxAtt) :
    s.deriveStep i accept = (s.putT s.reducedCand).raise i .tooManyAttempts := by
  rw [State.deriveStep, h]; dsimp only; rw [State.rfc6, if_pos hr, if_pos hm]

theorem deriveStep_rejected (h : s.nonce.step = .step6) (hr : outOfRange s.reducedCand s.order = true)
    (hm : s.nonce.retry ≠ s.maxAtt) (ho : s.oracles.hmacAnswers ≠ some 0) :
    s.deriveStep i accept = { s.hmacSpent s.kKey (s.rejectMsg s.nonce) with
      nonce := { s.chainK s.nonce (s.rejectMsg s.nonce) .step3 with
        t := s.reducedCand ++ s.nonce.t.drop s.opsz
        retry := s.nonce.retry + 1 } } := by
  rw [State.deriveStep, h]; dsimp only
  rw [State.rfc6, if_pos hr, if_neg hm, rejectKey_answered ho, ← splice_zero (length_reducedCand s)]
  rfl

/-- The end of NONCE_DET with an accepted candidate: it stands in NONCE, and the session is wiped. -/
theorem giveNonce_reducedCand (hp : s.params.ok) (hm : memWf s.mem = true) (ho : s.opsz ≤ s.params.maxOpsz) :
    BufHolds ((s.putT s.reducedCand).giveNonce .nonceDet) .nonce s.reducedCand ∧
      SessionEnded [.nonce] .none s ((s.putT s.reducedCand).giveNonce .nonceDet) := by
  have hl : (s.putT s.reducedCand).cand.length ≤ (s.putT s.reducedCand).bufcap := by
    rw [cand_putT_reducedCand, length_reducedCand]; exact ho.trans (le_max_right _ _)
  have hb := giveNonce_bufHolds (s := s.putT s.reducedCand) (i := .nonceDet) hp hm rfl hl
  rw [cand_putT_reducedCand] at hb
  exact ⟨hb, giveNonce_sessionEnded (s := s.putT s.reducedCand) hm rfl hl⟩

/-- The candidate of step 6 as a number, for `qlen` the bit length of the order. -/
theorem bits2int_cand_eq {qlen c : Nat} (hl : s.opsz ≤ s.nonce.t.length) (h1 : s.q < 2 ^ qlen) (h2 : 2 ^ qlen ≤ 2 * s.q)
    (h : c = (if qlen < 8 * s.opsz then beInt (s.nonce.t.take s.opsz) / 2 ^ (8 * s.opsz - qlen)
      else beInt (s.nonce.t.take s.opsz))) : bits2int s.cand s.qlen = c := by
  rw [h, ← bits2int_eq_ite (List.length_take_of_le hl) qlen, State.qlen, bitlen_unique h1 h2, State.cand]

/-- Settles O27: step 6's three cases (`deriveStep_accepted`, `deriveStep_exhausted`, `deriveStep_rejected`), the range
test being one of numbers (`outOfRange_reducedCand`). -/
theorem rfcReduceAndTestStep : Obligations.RfcReduceAndTestStep := by
  intro s i qlen c hi hp hm hc h6 ho hl h1 h2 h
  obtain rfl := bits2int_cand_eq hl h1 h2 h
  rw [← outOfRange_reducedCand, Bool.not_eq_false]
  have hx := exec_derive hi hc
  refine ⟨?sign, ?nonce, ?exhausted, ?rejected⟩
  case sign =>
    rintro hr rfl
    rw [exec_signDet_derive hc, deriveStep_accepted h6 hr, putT_reducedCand]; rfl
  case nonce =>
    rintro hr rfl
    refine ⟨_, exec_nonceDet_derive hc, ?_⟩
    rw [deriveStep_accepted h6 hr]
    exact giveNonce_reducedCand hp hm ho
  case exhausted =>
    intro hr hmax
    obtain ⟨accept, hx⟩ := hx
    refine ⟨_, hx, ?_⟩
    rw [deriveStep_exhausted h6 hr hmax]
    exact raise_sessionFailed (s := s.putT s.reducedCand) hm (isSecret_of_isDet hi) (by decide)
  case rejected =>
    rintro hr hmax hans _ _ rfl rfl
    obtain ⟨accept, hx⟩ := hx
    rw [hx, deriveStep_rejected h6 hr hmax hans]; rfl

/-! ## forced_reject (42_nonce_rfc6979.md R151) -/

/-- Settles O36: the key update of a rejection (`rejectKey_answered`), and on to derive. -/
theorem forcedRejectUpdatesTheKey : Obligations.ForcedRejectUpdatesTheKey := by
  rintro s _ _ hc ho rfl rfl
  have hx : exec .signDet s = .next (s.forcedReject .signDet) := by rw [exec, execSignDet, pointOf_running hc]
  rw [hx, State.forcedReject, rejectKey_answered ho]
  rfl

/-! ## The start of a command of the RFC 6979 machine, and of a SIGN command (60_exceptions.md R213) -/

theorem hashOk_and_curveOk_iff : (s.hashOk && s.curveOk) = true ↔
    s.params.digestSize s.hashAlg = some s.diglen ∧ 1 ≤ s.opsz ∧ s.opsz ≤ s.params.maxOpsz ∧ 2 ≤ s.q := by
  rw [Bool.and_eq_true, State.hashOk, decide_eq_true_iff, curveOk_iff, and_assoc]; rfl

theorem exec_nonceDet_start (hc : s.ctl = .running .nonceDet .start) : exec .nonceDet s =
    .next (if s.hashOk && s.curveOk then s.enterDerive .nonceDet else s.raise .nonceDet .invalidArgument) := by
  rw [exec, execNonceDet, pointOf_running hc]

theorem exec_sign_start (hi : i = .signRnd ∨ i = .signDet) (hc : s.ctl = .running i .start) : exec i s =
    .next (if s.hashOk && s.curveOk then s.firstAttempt i else s.raise i .invalidArgument) := by
  rcases hi with rfl | rfl
  · rw [exec, execSignRnd, pointOf_running hc, State.signStart]
  · rw [exec, execSignDet, pointOf_running hc, State.signStart]

/-- Settles O28: the checks decide the first step, which enters derive (`enterDerive_answered`,
`enterDerive_unanswered`); the last gives the reduced candidate (`giveNonce_reducedCand`). -/
theorem nonceDetStartsAndCompletes : Obligations.NonceDetStartsAndCompletes := by
  intro s hp hm
  refine ⟨fun hc => ⟨fun h => ?_, fun h => ⟨_, exec_nonceDet_start hc, ?_⟩⟩,
    fun qlen c hc h6 ho hl h1 h2 h hc1 hcq => ?_⟩
  · rw [exec_nonceDet_start hc, if_pos (hashOk_and_curveOk_iff.2 h)]
    refine ⟨fun hans t0 msg h0 hmsg => ?_, fun hans => ?_⟩
    · rw [enterDerive_answered hans h0 hmsg]
    · rw [enterDerive_unanswered hans]; rfl
  · rw [if_neg (hashOk_and_curveOk_iff.not.2 h)]
    exact raise_sessionFailed hm rfl (by decide)
  · obtain ⟨-, hgive, -⟩ := rfcReduceAndTestStep s .nonceDet qlen c (.inl rfl) hp hm hc h6 ho hl h1 h2 h
    exact hgive ⟨hc1, hcq⟩ rfl

/-- Settles O32: the checks decide the first step, which counts attempt 0 and starts rnd_k's draws or enters derive. -/
theorem signStartsWithItsChecks : Obligations.SignStartsWithItsChecks := by
  intro s i hi hp hm hc
  refine ⟨fun h => ?_, fun h => ⟨_, exec_sign_start hi hc, ?_⟩⟩
  · rw [exec_sign_start hi hc, if_pos (hashOk_and_curveOk_iff.2 h)]
    refine ⟨?_, ?_, ?_⟩
    · rintro rfl; rfl
    · rintro rfl hans t0 msg h0 hmsg
      exact congrArg _ (enterDerive_answered (s := { s with attempts := 1 }) hans h0 hmsg)
    · rintro rfl hans
      exact congrArg _ (enterDerive_unanswered (s := { s with attempts := 1 }) hans)
  · rw [if_neg (hashOk_and_curveOk_iff.not.2 h)]
    refine raise_sessionFailed hm ?_ (by decide)
    rcases hi with rfl | rfl <;> rfl

end Sys2Proof.Machine
end

section
/-! PROOFS. Engine-only runs of NONCE_DET (42_nonce_rfc6979.md R140 to R154): NonceState after each step of derive, the
nonce of the first candidate, the count of steps and HMAC calls, and that equal inputs give equal nonces. -/

namespace Sys2Proof.Machine

open Sys2Proof

variable {s s' t u v w : State} {n : NonceState} {tr : List OracleCall} {e : ErrCode}

/-! ## NonceState after a step of derive -/

/-- The candidate of step 6 in NonceState `n` (42_nonce_rfc6979.md R149). -/
def State.reduced (s : State) (n : NonceState) : Bytes := be s.opsz (bits2int (n.t.take s.opsz) s.qlen)

/-- `n` after the next step of derive in `s`, the HMAC unit answering and step 6 rejecting its candidate
(42_nonce_rfc6979.md R143 to R149). -/
def State.derived (s : State) (n : NonceState) : NonceState :=
  match n.step with
  | .step0 => s.setup n
  | .step1 => s.chainV n .step2
  | .step2 => s.chainK n (s.seedMsg n) .step3
  | .step3 => s.emptied n
  | .step4 => s.chainV n .step5
  | .step5 => s.appendV n
  | .step6 => { s.chainK n (s.rejectMsg n) .step3 with
      t := s.reduced n ++ n.t.drop s.opsz
      retry := n.retry + 1 }

/-- The next step of derive leaves its loop: step 6 with a candidate in range, or with no rejection left. -/
def State.Leaves (s : State) (n : NonceState) : Prop :=
  n.step = .step6 ∧ (outOfRange (s.reduced n) s.order = false ∨ n.retry = s.maxAtt)

theorem not_leaves_of_step {st : RfcStep} (h : n.step = st) (hne : st ≠ .step6) : ¬ s.Leaves n :=
  fun hx => hne (h.symm.trans hx.1)

theorem derived_step0 (h : n.step = .step0) : s.derived n = s.setup n := by rw [State.derived, h]
theorem derived_step1 (h : n.step = .step1) : s.derived n = s.chainV n .step2 := by rw [State.derived, h]
theorem derived_step2 (h : n.step = .step2) : s.derived n = s.chainK n (s.seedMsg n) .step3 := by
  rw [State.derived, h]
theorem derived_step3 (h : n.step = .step3) : s.derived n = s.emptied n := by rw [State.derived, h]
theorem derived_step4 (h : n.step = .step4) : s.derived n = s.chainV n .step5 := by rw [State.derived, h]
theorem derived_step5 (h : n.step = .step5) : s.derived n = s.appendV n := by rw [State.derived, h]
theorem derived_step6 (h : n.step = .step6) : s.derived n = { s.chainK n (s.rejectMsg n) .step3 with
    t := s.reduced n ++ n.t.drop s.opsz
    retry := n.retry + 1 } := by rw [State.derived, h]

/-! ## The states of a run -/

/-- `s` inside NONCE_DET's derive with NonceState `n` and the oracle calls `tr` made. -/
def State.inDerive (s : State) (n : NonceState) (tr : List OracleCall) : State :=
  { s with nonce := n, trace := tr, ctl := .running .nonceDet .derive }

/-- Only the engine moves, its HMAC unit always answers, and the command runs. -/
structure EngineOnly (s : State) : Prop where
  inputs : s.inputs = []
  hmac : s.oracles.hmacAnswers = none
  busy : s.busy = true
  err : s.err = .none
  params : s.params.ok
  memForm : memWf s.mem = true

theorem engineOnly_of_justAccepted (h : s.Inv) (hj : s.justAccepted .nonceDet)
    (ho : s.oracles.hmacAnswers = none) : EngineOnly s := by
  obtain ⟨-, hb, hi⟩ := hj
  exact ⟨hi, ho, hb, (h.status hb).2, h.params, h.memForm⟩

theorem EngineOnly.answers (h : EngineOnly s) : s.oracles.hmacAnswers ≠ some 0 := by simp [h.hmac]

/-- A unit that always answers is not used up by a call. -/
theorem EngineOnly.hmacSpent_eq (h : EngineOnly s) (key msg : Bytes) :
    s.hmacSpent key msg = { s with trace := .hmac s.hashAlg key msg :: s.trace } := by
  have ho : s.oracles.hmacAnswers.map (· - 1) = s.oracles.hmacAnswers := by rw [h.hmac]; rfl
  rw [State.hmacSpent, ho]

theorem EngineOnly.inDerive (h : EngineOnly s) (n : NonceState) (tr : List OracleCall) : EngineOnly (s.inDerive n tr) :=
  ⟨h.inputs, h.hmac, h.busy, h.err, h.params, h.memForm⟩

theorem step_inDerive (h : EngineOnly s) (n : NonceState) (tr : List OracleCall) : step (s.inDerive n tr) =
    .next ((s.inDerive n tr).deriveStep .nonceDet (·.giveNonce .nonceDet)) := by
  rw [step_no_input (s := s.inDerive n tr) h.inputs, engineStep_running rfl, exec_nonceDet_derive rfl]

theorem step_of_hmacCall (h : EngineOnly s) {key msg : Bytes} {m : NonceState} (h5 : n.step ≠ .step5)
    (hd : (s.inDerive n tr).deriveStep .nonceDet (·.giveNonce .nonceDet) =
      { (s.inDerive n tr).hmacSpent key msg with nonce := m }) :
    ∃ tr', tr'.length = tr.length + (if n.step = .step5 then 0 else 1) ∧
      step (s.inDerive n tr) = .next (s.inDerive m tr') := by
  rw [step_inDerive h, hd, (h.inDerive n tr).hmacSpent_eq, if_neg h5]
  exact ⟨_, rfl, rfl⟩

/-- A step that stays in derive: NonceState moves on by `derived`, and every step but step 5 is an HMAC call. -/
theorem step_derived (h : EngineOnly s) (hx : ¬ s.Leaves n) (tr : List OracleCall) :
    ∃ tr', tr'.length = tr.length + (if n.step = .step5 then 0 else 1) ∧
      step (s.inDerive n tr) = .next (s.inDerive (s.derived n) tr') := by
  have ho := (h.inDerive n tr).answers
  obtain ⟨st, hn⟩ : ∃ st, n.step = st := ⟨_, rfl⟩
  cases st
  case step0 => rw [derived_step0 hn]; exact step_of_hmacCall h (by simp [hn]) (deriveStep_step0 ho hn)
  case step1 => rw [derived_step1 hn]; exact step_of_hmacCall h (by simp [hn]) (deriveStep_step1 ho hn)
  case step2 => rw [derived_step2 hn]; exact step_of_hmacCall h (by simp [hn]) (deriveStep_step2 ho hn)
  case step3 => rw [derived_step3 hn]; exact step_of_hmacCall h (by simp [hn]) (deriveStep_step3 ho hn)
  case step4 => rw [derived_step4 hn]; exact step_of_hmacCall h (by simp [hn]) (deriveStep_step4 ho hn)
  case step5 =>
    rw [derived_step5 hn, if_pos hn, step_inDerive h, deriveStep_step5 hn]
    exact ⟨tr, rfl, rfl⟩
  case step6 =>
    rw [State.Leaves, not_and_or, not_or, Bool.not_eq_false] at hx
    obtain ⟨hr, hm⟩ := hx.resolve_left (not_not.2 hn)
    rw [derived_step6 hn]
    exact step_of_hmacCall h (by simp [hn]) (deriveStep_rejected hn hr hm ho)

/-- The step 6 that accepts ends the command with the candidate. -/
theorem step_accepted (h : EngineOnly s) (h6 : n.step = .step6) (hr : outOfRange (s.reduced n) s.order = false) :
    step (s.inDerive n tr) = .next (((s.inDerive n tr).putT (s.reduced n)).giveNonce .nonceDet) := by
  rw [step_inDerive h, deriveStep_accepted (s := s.inDerive n tr) h6 hr]; rfl

/-- The step 6 that has no rejection left ends the command with TOO_MANY_ATTEMPTS. -/
theorem step_exhausted (h : EngineOnly s) (h6 : n.step = .step6) (hr : outOfRange (s.reduced n) s.order = true)
    (hm : n.retry = s.maxAtt) :
    step (s.inDerive n tr) = .next (((s.inDerive n tr).putT (s.reduced n)).raise .nonceDet .tooManyAttempts) := by
  rw [step_inDerive h, deriveStep_exhausted (s := s.inDerive n tr) h6 hr hm]; rfl

/-- NonceState as derive(FRESH) begins (42_nonce_rfc6979.md R140). -/
def NonceState.fresh (n : NonceState) : NonceState := { n with det := true, retry := 0, step := .step0 }

theorem checksOf_nonceDet (s : State) : s.checksOf .nonceDet = (s.hashOk && s.curveOk) := Bool.and_comm _ _

theorem step_nonceDet_start (h : EngineOnly s) (hc : s.ctl = .running .nonceDet .start) : step s =
    .next (if s.checksOf .nonceDet then s.enterDerive .nonceDet else s.raise .nonceDet .invalidArgument) := by
  rw [step_no_input h.inputs, engineStep_running hc, exec_nonceDet_start hc, checksOf_nonceDet]

/-- With its checks passing the command's first step is derive's step 0 on a fresh NonceState. -/
theorem step_nonceDet_enters (h : EngineOnly s) (hc : s.ctl = .running .nonceDet .start)
    (hk : s.checksOf .nonceDet = true) : step s = step (s.inDerive s.nonce.fresh s.trace) := by
  rw [step_nonceDet_start h hc, if_pos hk, step_inDerive h]; rfl

/-! ## Runs of several steps -/

/-- `k` steps lead from `u` to `v`. -/
def Leads (k : Nat) (u v : State) : Prop := ∀ j, runSteps (j + k) u = runSteps j v

theorem leads_of_step (h : step u = .next v) : Leads 1 u v := fun _ => runSteps_succ_next h

theorem Leads.trans {a b : Nat} (h : Leads a u v) (h' : Leads b v w) : Leads (a + b) u w := fun j => by
  rw [← h', ← h, add_assoc, add_comm b a]

/-- The steps from `s.inDerive n tr` to NonceState `n'`, with `c` HMAC calls. -/
def DerivesTo (s : State) (k c : Nat) (n n' : NonceState) : Prop :=
  ∀ tr, ∃ tr', tr'.length = tr.length + c ∧ Leads k (s.inDerive n tr) (s.inDerive n' tr')

theorem DerivesTo.trans {n' n'' : NonceState} {k k' c c' : Nat} (h : DerivesTo s k c n n')
    (h' : DerivesTo s k' c' n' n'') : DerivesTo s (k + k') (c + c') n n'' := fun tr => by
  obtain ⟨tr1, hl1, h1⟩ := h tr
  obtain ⟨tr2, hl2, h2⟩ := h' tr1
  exact ⟨tr2, by omega, h1.trans h2⟩

theorem derivesTo_derived (h : EngineOnly s) (hx : ¬ s.Leaves n) :
    DerivesTo s 1 (if n.step = .step5 then 0 else 1) n (s.derived n) := fun tr => by
  obtain ⟨tr', hl, hs⟩ := step_derived h hx tr
  exact ⟨tr', hl, leads_of_step hs⟩

/-- An HMAC step of derive, to the NonceState it leaves. -/
theorem derivesTo_call (h : EngineOnly s) {st : RfcStep} {n' : NonceState} (hn : n.step = st) (hd : s.derived n = n')
    (h5 : st ≠ .step5) (h6 : st ≠ .step6) : DerivesTo s 1 1 n n' := by
  subst hd
  simpa [hn, h5] using derivesTo_derived h (not_leaves_of_step hn h6)

/-- Step 5 of derive. -/
theorem derivesTo_append (h : EngineOnly s) (hn : n.step = .step5) : DerivesTo s 1 0 n (s.appendV n) := by
  simpa [hn, derived_step5 hn] using derivesTo_derived h (not_leaves_of_step hn (by decide))

/-! ## Counting the steps (42_nonce_rfc6979.md R154, 70_reset_and_hazards.md R251) -/

/-- A block: step 4 and step 5. -/
theorem derivesTo_block (h : EngineOnly s) (hn : n.step = .step4) :
    DerivesTo s 2 1 n (s.appendV (s.chainV n .step5)) :=
  (derivesTo_call h hn (derived_step4 hn) (by decide) (by decide)).trans (derivesTo_append h rfl)

/-- The `b + 1` blocks that fill T from TLEN on. -/
theorem derivesTo_blocks (h : EngineOnly s) {b : Nat} (hn : n.step = .step4)
    (h1 : s.opsz ≤ n.tlen + (b + 1) * s.hlen) (h2 : n.tlen + (b + 1) * s.hlen < s.opsz + s.hlen) :
    ∃ n', n'.step = .step6 ∧ n'.retry = n.retry ∧ DerivesTo s (2 * (b + 1)) (b + 1) n n' := by
  induction b generalizing n with
  | zero =>
    refine ⟨s.appendV (s.chainV n .step5), if_neg ?_, rfl, derivesTo_block h hn⟩
    change ¬ n.tlen + min s.hlen (s.opsz - n.tlen) < s.opsz
    omega
  | succ b ih =>
    rw [add_mul, one_mul] at h1 h2
    have hpos : s.hlen ≤ (b + 1) * s.hlen := Nat.le_mul_of_pos_left _ (by omega)
    have hm : n.tlen + min s.hlen (s.opsz - n.tlen) = n.tlen + s.hlen := by omega
    have hlen : (s.appendV (s.chainV n .step5)).tlen = n.tlen + s.hlen := hm
    have hstep : (s.appendV (s.chainV n .step5)).step = .step4 := if_pos (hm.trans_lt (by omega))
    obtain ⟨n', hs, hr, hd⟩ := ih hstep (by omega) (by omega)
    refine ⟨n', hs, hr, ?_⟩
    rw [add_comm (b + 1) 1, mul_add]
    exact (derivesTo_block h hn).trans hd

theorem derivesTo_emptied (h : EngineOnly s) (hn : n.step = .step3) : DerivesTo s 1 1 n (s.emptied n) :=
  derivesTo_call h hn (derived_step3 hn) (by decide) (by decide)

/-- Steps 3, 4 and 5: a whole candidate of B blocks. -/
theorem derivesTo_candidate (h : EngineOnly s) {B : Nat} (h0 : 1 ≤ s.opsz) (h1 : s.opsz ≤ B * s.hlen)
    (h2 : B * s.hlen < s.opsz + s.hlen) (hn : n.step = .step3) :
    ∃ n', n'.step = .step6 ∧ n'.retry = n.retry ∧ DerivesTo s (1 + 2 * B) (1 + B) n n' := by
  obtain ⟨b, rfl⟩ : ∃ b, B = b + 1 := Nat.exists_eq_succ_of_ne_zero (by rintro rfl; omega)
  obtain ⟨n', hs, hr, hd⟩ := derivesTo_blocks h (n := s.emptied n) rfl (h1.trans_eq (Nat.zero_add _).symm)
    ((Nat.zero_add _).trans_lt h2)
  exact ⟨n', hs, hr, (derivesTo_emptied h hn).trans hd⟩

/-- After `k` steps and `c` more oracle calls the command has terminated with code `e`. -/
def EndsWith (k c : Nat) (e : ErrCode) (u : State) : Prop :=
  ∃ t, runSteps k u = .next t ∧ t.busy = false ∧ t.done = true ∧ t.err = e ∧ t.trace.length = u.trace.length + c

theorem terminate_trace (s : State) (cmd : Option Instr) (e : ErrCode) : (s.terminate cmd e).trace = s.trace := by
  unfold State.terminate
  rcases wipeSession_eq (s.wipeOutput cmd e) cmd with h | h <;> rw [h] <;> simp

/-- One step that terminates. -/
theorem endsWith_terminate {cmd : Option Instr} (ht : t.trace = u.trace) (h : step u = .next (t.terminate cmd e)) :
    EndsWith 1 0 e u :=
  ⟨_, runSteps_succ_next h, rfl, rfl, rfl, by rw [terminate_trace, ht]; rfl⟩

theorem EndsWith.of_derivesTo {n' : NonceState} {k k' c c' : Nat} (h : DerivesTo s k c n n')
    (h' : ∀ tr, EndsWith k' c' e (s.inDerive n' tr)) (tr : List OracleCall) :
    EndsWith (k + k') (c + c') e (s.inDerive n tr) := by
  obtain ⟨tr', hl, hk⟩ := h tr
  obtain ⟨t, hrun, hb, hd, he, htr⟩ := h' tr'
  refine ⟨t, by rw [add_comm, hk, hrun], hb, hd, he, ?_⟩
  change t.trace.length = tr.length + (c + c')
  change t.trace.length = tr'.length + c' at htr
  omega

/-- The end code after `r` of `d` possible rejections. -/
def EndCode (r d : Nat) (e : ErrCode) : Prop := e = .none ∨ e = .tooManyAttempts ∧ r = d

theorem endsWith_accepted (h : EngineOnly s) (h6 : n.step = .step6) (ha : outOfRange (s.reduced n) s.order = false)
    (tr : List OracleCall) : EndsWith 1 0 .none (s.inDerive n tr) :=
  endsWith_terminate (t := ((s.inDerive n tr).putT (s.reduced n)).fill .nonce _) rfl (step_accepted h h6 ha)

theorem endsWith_exhausted (h : EngineOnly s) (h6 : n.step = .step6) (ha : outOfRange (s.reduced n) s.order = true)
    (hm : n.retry = s.maxAtt) (tr : List OracleCall) : EndsWith 1 0 .tooManyAttempts (s.inDerive n tr) :=
  endsWith_terminate (t := (s.inDerive n tr).putT (s.reduced n)) rfl (step_exhausted h h6 ha hm)

/-- A rejecting step 6 is an HMAC step, counts in RETRY and leads back to step 3. -/
theorem derivesTo_rejected (h : EngineOnly s) (h6 : n.step = .step6) (ha : outOfRange (s.reduced n) s.order = true)
    (hm : n.retry.toNat < s.maxAtt.toNat) :
    ∃ n', n'.step = .step3 ∧ n'.retry.toNat = n.retry.toNat + 1 ∧ DerivesTo s 1 1 n n' := by
  have hx : ¬ s.Leaves n := by
    rintro ⟨-, hr | hr⟩
    · simp [ha] at hr
    · simp [hr] at hm
  have hlt := s.maxAtt.isLt
  refine ⟨s.derived n, ?_, ?_, by simpa [h6] using derivesTo_derived h hx⟩
  · rw [derived_step6 h6]; rfl
  · rw [derived_step6 h6]
    change (n.retry + 1).toNat = _
    rw [BitVec.toNat_add]
    simp; omega

/-- From step 3 on, with `d` rejections left: a candidate and its step 6 for each of `r` rejections and for the end. -/
theorem endsWith_candidates (h : EngineOnly s) {B d : Nat} (h0 : 1 ≤ s.opsz) (h1 : s.opsz ≤ B * s.hlen)
    (h2 : B * s.hlen < s.opsz + s.hlen) (hn : n.step = .step3) (hd : n.retry.toNat + d = s.maxAtt.toNat) :
    ∃ r e, r ≤ d ∧ EndCode r d e ∧
      ∀ tr, EndsWith ((r + 1) * (1 + 2 * B) + r + 1) ((r + 1) * (1 + B) + r) e (s.inDerive n tr) := by
  induction d generalizing n with
  | zero =>
    obtain ⟨n', h6, hr, hc⟩ := derivesTo_candidate h h0 h1 h2 hn
    cases ha : outOfRange (s.reduced n') s.order with
    | false => exact ⟨0, .none, le_rfl, .inl rfl, by simpa using EndsWith.of_derivesTo hc (endsWith_accepted h h6 ha)⟩
    | true =>
      have hm : n'.retry = s.maxAtt := BitVec.eq_of_toNat_eq (by rw [hr]; exact hd)
      exact ⟨0, .tooManyAttempts, le_rfl, .inr ⟨rfl, rfl⟩,
        by simpa using EndsWith.of_derivesTo hc (endsWith_exhausted h h6 ha hm)⟩
  | succ d ih =>
    obtain ⟨n', h6, hr, hc⟩ := derivesTo_candidate h h0 h1 h2 hn
    cases ha : outOfRange (s.reduced n') s.order with
    | false =>
      exact ⟨0, .none, Nat.zero_le _, .inl rfl, by simpa using EndsWith.of_derivesTo hc (endsWith_accepted h h6 ha)⟩
    | true =>
      obtain ⟨n'', h3, hr', hc'⟩ := derivesTo_rejected h h6 ha (by rw [hr]; omega)
      obtain ⟨r, e, hle, he, hends⟩ := ih h3 (by rw [hr', hr]; omega)
      refine ⟨r + 1, e, by omega, he.imp_right fun ⟨e1, e2⟩ => ⟨e1, by rw [e2]⟩, fun tr => ?_⟩
      have := EndsWith.of_derivesTo (hc.trans hc') hends tr
      convert this using 1 <;> ring

/-- NonceState after steps 0, 1 and 2. -/
def State.seeded (s : State) (n : NonceState) : NonceState :=
  let m := s.chainV (s.setup n) .step2
  s.chainK m (s.seedMsg m) .step3

theorem derivesTo_seeded (h : EngineOnly s) (hn : n.step = .step0) : DerivesTo s 3 3 n (s.seeded n) := by
  have h0 := derivesTo_call h hn (derived_step0 hn) (by decide) (by decide)
  have h1 := derivesTo_call h (st := .step1) rfl (derived_step1 (s := s) (n := s.setup n) rfl) (by decide) (by decide)
  have h2 := derivesTo_call h (st := .step2) rfl
    (derived_step2 (s := s) (n := s.chainV (s.setup n) .step2) rfl) (by decide) (by decide)
  exact (h0.trans h1).trans h2

/-- A run from the start of the command is one from derive(FRESH). -/
theorem runSteps_nonceDet (h : EngineOnly s) (hc : s.ctl = .running .nonceDet .start)
    (hk : s.checksOf .nonceDet = true) (k : Nat) :
    runSteps (k + 1) s = runSteps (k + 1) (s.inDerive s.nonce.fresh s.trace) := by
  rw [runSteps, step_nonceDet_enters h hc hk]; rfl

/-- Settles O31: steps 0, 1 and 2, and then the candidates (`endsWith_candidates`). -/
theorem nonceDetCountsItsSteps : Obligations.NonceDetCountsItsSteps := by
  intro s B hinv hj ho hk h1 h2
  have h := engineOnly_of_justAccepted hinv hj ho
  obtain ⟨h0, -, -⟩ := curve_of_checks hk
  obtain ⟨r, e, hle, he, hends⟩ := endsWith_candidates h h0 h1 h2 (n := s.seeded s.nonce.fresh) rfl
    (d := s.maxAtt.toNat) (Nat.zero_add _)
  obtain ⟨t, hrun, hb, hdone, herr, htr⟩ := EndsWith.of_derivesTo (derivesTo_seeded h rfl) hends s.trace
  obtain ⟨hc, -, -⟩ := hj
  refine ⟨r, t, hle, ?_, hb, hdone, herr ▸ he, ?_⟩
  · have hsum : 4 + (r + 1) * B + 2 * r + (r + 1) * B + 1 = 3 + ((r + 1) * (1 + 2 * B) + r) + 1 := by ring
    rw [hsum, runSteps_nonceDet h hc hk]
    exact hrun
  · rw [htr]
    change s.trace.length + _ = _
    ring

/-! ## The nonce of the first candidate (42_nonce_rfc6979.md R142 to R150) -/

@[simp] theorem chainV_k (n : NonceState) (st : RfcStep) : (s.chainV n st).k = n.k := rfl
@[simp] theorem chainV_t (n : NonceState) (st : RfcStep) : (s.chainV n st).t = n.t := rfl
@[simp] theorem chainK_v (n : NonceState) (msg : Bytes) (st : RfcStep) : (s.chainK n msg st).v = n.v := rfl
@[simp] theorem emptied_k (n : NonceState) : (s.emptied n).k = n.k := rfl

@[simp] theorem chainV_vVal (n : NonceState) (st : RfcStep) :
    (s.chainV n st).v.take s.hlen = s.hmac (n.k.take s.hlen) (n.v.take s.hlen) :=
  List.take_left' (length_hmac _ _)

@[simp] theorem chainK_kKey (n : NonceState) (msg : Bytes) (st : RfcStep) :
    (s.chainK n msg st).k.take s.hlen = s.hmac (n.k.take s.hlen) msg :=
  List.take_left' (length_hmac _ _)

@[simp] theorem emptied_vVal (n : NonceState) :
    (s.emptied n).v.take s.hlen = s.hmac (n.k.take s.hlen) (n.v.take s.hlen) :=
  List.take_left' (length_hmac _ _)

@[simp] theorem setup_kKey (n : NonceState) : (s.setup n).k.take s.hlen =
    s.hmac (zeros s.hlen) (s.keyMsg (ones s.hlen) 0x00 s.t0) :=
  List.take_left' (length_hmac _ _)

@[simp] theorem setup_vVal (n : NonceState) : (s.setup n).v.take s.hlen = ones s.hlen :=
  List.take_left' (length_ones _)

@[simp] theorem setup_cand (n : NonceState) : (s.setup n).t.take s.opsz = s.t0 :=
  List.take_left' (length_t0 _)

/-- Step 5 on an empty T with an operand no longer than the digest: the candidate is the head of V. -/
theorem appendV_cand (hn : n.tlen = 0) (ho : s.opsz ≤ s.hlen) (hv : s.hlen ≤ n.v.length) :
    (s.appendV n).t.take s.opsz = (n.v.take s.hlen).take s.opsz := by
  have ht : (s.appendV n).t = splice n.t 0 (n.v.take s.opsz) := by
    simp only [State.appendV, hn, Nat.sub_zero, min_eq_right ho]
  rw [ht, take_splice_zero (List.length_take_of_le (ho.trans hv)), List.take_take, min_eq_left ho]

/-- NonceState at step 6 where one block fills T. -/
def State.firstCand (s : State) (n : NonceState) : NonceState :=
  s.appendV (s.chainV (s.emptied (s.seeded n)) .step5)

theorem firstCand_step (ho : s.opsz ≤ s.hlen) (n : NonceState) : (s.firstCand n).step = .step6 :=
  if_neg (by change ¬ 0 + min s.hlen (s.opsz - 0) < s.opsz; omega)

theorem derivesTo_firstCand (h : EngineOnly s) (hn : n.step = .step0) : DerivesTo s 6 5 n (s.firstCand n) :=
  ((derivesTo_seeded h hn).trans (derivesTo_emptied h rfl)).trans (derivesTo_block h rfl)

/-- The K/V chain up to the third V, whose head is the first candidate. -/
theorem firstCand_cand {k1 v1 k2 v2 v3 : Bytes} (ho : s.opsz ≤ s.hlen)
    (hk1 : k1 = s.hmac (zeros s.hlen) (s.keyMsg (ones s.hlen) 0x00 s.t0)) (hv1 : v1 = s.hmac k1 (ones s.hlen))
    (hk2 : k2 = s.hmac k1 (s.keyMsg v1 0x01 s.t0)) (hv2 : v2 = s.hmac k2 v1) (hv3 : v3 = s.hmac k2 v2)
    (n : NonceState) : (s.firstCand n).t.take s.opsz = v3.take s.opsz := by
  have hk : (s.seeded n).k.take s.hlen = k2 := by simp [State.seeded, State.seedMsg, hk2, hv1, hk1]
  have hv : (s.seeded n).v.take s.hlen = v1 := by simp [State.seeded, hv1, hk1]
  have hv3 : (s.chainV (s.emptied (s.seeded n)) .step5).v.take s.hlen = v3 := by simp [hk, hv, hv2, hv3]
  rw [State.firstCand, appendV_cand rfl ho, hv3]
  simp [State.chainV]

/-- Settles O30: seven steps to the first candidate and its acceptance (`derivesTo_firstCand`, `step_accepted`), the
candidate being the head of the chain's third V (`firstCand_cand`). -/
theorem nonceDetGivesTheFirstCandidate : Obligations.NonceDetGivesTheFirstCandidate := by
  rintro s _ k1 v1 k2 v2 v3 c hinv hj ho hk hle rfl hk1 hv1 hk2 hv2 hv3 hc hc1 hcq
  have h := engineOnly_of_justAccepted hinv hj ho
  obtain ⟨-, hmax, -⟩ := curve_of_checks hk
  obtain ⟨tr, hl, hrun⟩ := derivesTo_firstCand h (n := s.nonce.fresh) rfl s.trace
  generalize hn : s.firstCand s.nonce.fresh = n at hrun
  have h6 : n.step = .step6 := hn ▸ firstCand_step hle _
  have hbits : bits2int (n.t.take s.opsz) s.qlen = c := by
    rw [← hn, firstCand_cand hle hk1 hv1 hk2 hv2 hv3, hc]; rfl
  have hr : outOfRange (s.reduced n) s.order = false := by
    rw [← hbits] at hc1 hcq
    exact (outOfRange_reducedCand (s.inDerive n tr)).2 ⟨hc1, hcq⟩
  obtain ⟨hb, -⟩ := giveNonce_reducedCand (s := s.inDerive n tr) h.params h.memForm hmax
  obtain ⟨hctl, -, -⟩ := hj
  refine ⟨((s.inDerive n tr).putT (s.reduced n)).giveNonce .nonceDet, ?_, rfl, rfl, ?_, ?_⟩
  · rw [runSteps_nonceDet h hctl hk, hrun 1, runSteps_succ_next (step_accepted h h6 hr)]; rfl
  · rw [← hbits]; exact hb
  · exact (congrArg List.length (terminate_trace _ _ _)).trans hl

/-! ## Equal inputs (42_nonce_rfc6979.md R153) -/

/-- `s` and `s'` agree on what the rules of NONCE_DET read. -/
structure SameDetInputs (s s' : State) : Prop where
  params : s.params = s'.params
  hashAlg : s.hashAlg = s'.hashAlg
  opsz8 : s.opsz8 = s'.opsz8
  diglen8 : s.diglen8 = s'.diglen8
  maxAtt : s.maxAtt = s'.maxAtt
  privKey : s.privKey = s'.privKey
  hashDigest : s.hashDigest = s'.hashDigest
  order : s.order = s'.order

namespace SameDetInputs

variable (h : SameDetInputs s s')
include h

theorem opsz : s.opsz = s'.opsz := congrArg BitVec.toNat h.opsz8

theorem bufcap : s.bufcap = s'.bufcap := congrArg Params.bufcap h.params

theorem hlen : s.hlen = s'.hlen := by rw [State.hlen, h.params, h.hashAlg]; rfl

theorem qlen : s.qlen = s'.qlen := congrArg (fun o => bitlen (beInt o)) h.order

theorem hmac (key msg : Bytes) : s.hmac key msg = s'.hmac key msg := by
  rw [State.hmac, h.hlen, h.params, h.hashAlg]; rfl

theorem t0 : s.t0 = s'.t0 := by rw [State.t0, h.hashDigest, h.order]; rfl

theorem keyMsg (v : Bytes) (sep : Byte) (t0 : Bytes) : s.keyMsg v sep t0 = s'.keyMsg v sep t0 := by
  rw [State.keyMsg, h.privKey]; rfl

theorem reduced (n : NonceState) : s.reduced n = s'.reduced n := by
  rw [State.reduced, h.opsz, h.qlen]; rfl

/-- NonceState moves on alike. -/
theorem derived (n : NonceState) : s.derived n = s'.derived n := by
  simp only [State.derived, State.setup, State.emptied, State.chainV, State.chainK, State.seedMsg, State.rejectMsg,
    State.appendV, h.opsz, h.bufcap, h.hlen, h.hmac, h.t0, h.keyMsg, h.reduced]

theorem leaves_iff (n : NonceState) : s.Leaves n ↔ s'.Leaves n := by
  rw [State.Leaves, State.Leaves, h.reduced, h.order, h.maxAtt]

theorem checks : s.checksOf .nonceDet = s'.checksOf .nonceDet := by
  have hd : s.diglen = s'.diglen := congrArg BitVec.toNat h.diglen8
  rw [checksOf_nonceDet, State.hashOk, State.curveOk, State.opszOk, State.q, h.params, h.hashAlg, hd, h.opsz, h.order]
  exact (checksOf_nonceDet s').symm

end SameDetInputs

/-- After `k` steps from `u` and from `u'` the engine stands at the same control point with the same BUSY and ERR, and
once idle the first `cap` bytes of NONCE are the same. -/
def RunAlike (cap k : Nat) (u u' : State) : Prop :=
  ∃ t t', runSteps k u = .next t ∧ runSteps k u' = .next t' ∧ t.ctl = t'.ctl ∧ t.busy = t'.busy ∧ t.err = t'.err ∧
    (t.busy = false → t.bytes .nonce cap = t'.bytes .nonce cap)

theorem RunAlike.succ {u' v' : State} {cap k : Nat} (h : step u = .next v) (h' : step u' = .next v')
    (hr : RunAlike cap k v v') : RunAlike cap (k + 1) u u' := by
  unfold RunAlike
  rwa [runSteps_succ_next h, runSteps_succ_next h']

/-- While the command runs, equal control points are all there is to see. -/
theorem runAlike_zero {cap : Nat} (hs : EngineOnly s) (hs' : EngineOnly s') (hc : s.ctl = s'.ctl) :
    RunAlike cap 0 s s' :=
  ⟨s, s', rfl, rfl, hc, hs.busy.trans hs'.busy.symm, hs.err.trans hs'.err.symm,
    fun hb => absurd (hs.busy.symm.trans hb) (by decide)⟩

theorem bytes_inj {x : Buf} {L : Nat} (h : t.bytes x L = u.bytes x L) {j : Nat} (hj : j < L) :
    memRead t.mem (bufBase x + j) = memRead u.mem (bufBase x + j) :=
  List.map_inj_left.1 h j (List.mem_range.2 hj)

/-- Buffers that hold the same bytes, zero above them, are the same. -/
theorem BufHolds.bytes_eq {x : Buf} {b : Bytes} {cap : Nat} (h : BufHolds t x b) (h' : BufHolds u x b)
    (ht : t.bufcap = cap) (hu : u.bufcap = cap) : t.bytes x cap = u.bytes x cap := by
  obtain ⟨hb, hz⟩ := h
  obtain ⟨hb', hz'⟩ := h'
  refine memReadBytes_congr fun j hj => ?_
  by_cases hjb : j < b.length
  · exact bytes_inj (hb.trans hb'.symm) hjb
  · exact (hz j (by omega) (by omega)).trans (hz' j (by omega) (by omega)).symm

/-- Commands that have terminated with one code and one NONCE stay as they are. -/
theorem runAlike_terminated {cmd : Option Instr} {b : Bytes} {cap : Nat} (hi : u.inputs = []) (hi' : v.inputs = [])
    (hu : u.bufcap = cap) (hv : v.bufcap = cap) (hb : BufHolds (u.terminate cmd e) .nonce b)
    (hb' : BufHolds (v.terminate cmd e) .nonce b) (k : Nat) :
    RunAlike cap k (u.terminate cmd e) (v.terminate cmd e) := by
  have idle {w : State} (hw : w.inputs = []) : runSteps k (w.terminate cmd e) = .next (w.terminate cmd e) := by
    obtain ⟨-, -, hin⟩ := terminate_frame w cmd e
    exact runSteps_idle (hin.trans hw) rfl k
  exact ⟨_, _, idle hi, idle hi', rfl, rfl, rfl,
    fun _ => hb.bytes_eq hb' ((terminate_bufcap _ _ _).trans hu) ((terminate_bufcap _ _ _).trans hv)⟩

/-- A failed NONCE_DET holds no byte in NONCE. -/
theorem raise_nonceDet_bufHolds (hm : memWf s.mem = true) (he : e ≠ .none) :
    BufHolds (s.raise .nonceDet e) .nonce [] := by
  obtain ⟨-, hz⟩ := raise_sessionFailed (i := .nonceDet) hm rfl he
  exact ⟨rfl, fun j _ => hz .nonce (by simp [outputsOf, Instr.isSign]) j⟩

theorem runAlike_raise {cap : Nat} (hs : EngineOnly s) (hs' : EngineOnly s') (hc : s.bufcap = cap)
    (hc' : s'.bufcap = cap) (he : e ≠ .none) (k : Nat) :
    RunAlike cap k (s.raise .nonceDet e) (s'.raise .nonceDet e) :=
  runAlike_terminated hs.inputs hs'.inputs hc hc' (raise_nonceDet_bufHolds hs.memForm he)
    (raise_nonceDet_bufHolds hs'.memForm he) k

theorem EngineOnly.putT (h : EngineOnly s) (c : Bytes) : EngineOnly (s.putT c) :=
  ⟨h.inputs, h.hmac, h.busy, h.err, h.params, h.memForm⟩

section Runs

variable (h : SameDetInputs s s') (hs : EngineOnly s) (hs' : EngineOnly s')
include h hs hs'

theorem runAlike_accepted (ho : s.opsz ≤ s.params.maxOpsz) (h6 : n.step = .step6)
    (hr : outOfRange (s.reduced n) s.order = false) (k : Nat) (tr tr' : List OracleCall) :
    RunAlike s.bufcap (k + 1) (s.inDerive n tr) (s'.inDerive n tr') := by
  have hr' : outOfRange (s'.reduced n) s'.order = false := by rwa [← h.reduced, ← h.order]
  obtain ⟨hb, -⟩ := giveNonce_reducedCand (s := s.inDerive n tr) hs.params hs.memForm ho
  obtain ⟨hb', -⟩ := giveNonce_reducedCand (s := s'.inDerive n tr') hs'.params hs'.memForm
    (by change s'.opsz ≤ s'.params.maxOpsz; rwa [← h.opsz, ← h.params])
  have hcand : (s'.inDerive n tr').reducedCand = (s.inDerive n tr).reducedCand := (h.reduced n).symm
  refine RunAlike.succ (step_accepted hs h6 hr) (step_accepted hs' h6 hr') ?_
  exact runAlike_terminated (u := ((s.inDerive n tr).putT (s.reduced n)).fill .nonce _)
    (v := ((s'.inDerive n tr').putT (s'.reduced n)).fill .nonce _)
    hs.inputs hs'.inputs rfl h.bufcap.symm hb (hcand ▸ hb') k

theorem runAlike_exhausted (h6 : n.step = .step6) (hr : outOfRange (s.reduced n) s.order = true)
    (hm : n.retry = s.maxAtt) (k : Nat) (tr tr' : List OracleCall) :
    RunAlike s.bufcap (k + 1) (s.inDerive n tr) (s'.inDerive n tr') := by
  have hr' : outOfRange (s'.reduced n) s'.order = true := by rwa [← h.reduced, ← h.order]
  exact RunAlike.succ (step_exhausted hs h6 hr hm) (step_exhausted hs' h6 hr' (hm.trans h.maxAtt))
    (runAlike_raise ((hs.inDerive n tr).putT _) ((hs'.inDerive n tr').putT _) rfl h.bufcap.symm (by decide) k)

/-- From derive on, two runs from one NonceState stay alike. -/
theorem runAlike_inDerive (ho : s.opsz ≤ s.params.maxOpsz) (k : Nat) (n : NonceState) (tr tr' : List OracleCall) :
    RunAlike s.bufcap k (s.inDerive n tr) (s'.inDerive n tr') := by
  induction k generalizing n tr tr' with
  | zero => exact runAlike_zero (hs.inDerive n tr) (hs'.inDerive n tr') rfl
  | succ k ih =>
    by_cases hx : s.Leaves n
    · obtain ⟨h6, hx⟩ := hx
      cases hr : outOfRange (s.reduced n) s.order with
      | false => exact runAlike_accepted h hs hs' ho h6 hr k tr tr'
      | true => exact runAlike_exhausted h hs hs' h6 hr (hx.resolve_left (by simp [hr])) k tr tr'
    · obtain ⟨tr1, -, h1⟩ := step_derived hs hx tr
      obtain ⟨tr1', -, h1'⟩ := step_derived hs' ((h.leaves_iff n).not.1 hx) tr'
      rw [← h.derived] at h1'
      exact RunAlike.succ h1 h1' (ih _ _ _)

/-- From the start, two runs both fail the checks or both enter derive. -/
theorem runAlike_start (hc : s.ctl = .running .nonceDet .start) (hc' : s'.ctl = .running .nonceDet .start)
    (hn : s.nonce = s'.nonce) (k : Nat) : RunAlike s.bufcap k s s' := by
  cases k with
  | zero => exact runAlike_zero hs hs' (hc.trans hc'.symm)
  | succ k =>
    by_cases hk : s.checksOf .nonceDet = true
    · obtain ⟨-, ho, -⟩ := curve_of_checks hk
      have hrun := runAlike_inDerive h hs hs' ho (k + 1) s.nonce.fresh s.trace s'.trace
      unfold RunAlike at hrun ⊢
      rwa [runSteps_nonceDet hs hc hk, runSteps_nonceDet hs' hc' (h.checks ▸ hk), ← hn]
    · have h1 := step_nonceDet_start hs hc
      have h1' := step_nonceDet_start hs' hc'
      rw [if_neg hk] at h1
      rw [← h.checks, if_neg hk] at h1'
      exact RunAlike.succ h1 h1' (runAlike_raise hs hs' rfl h.bufcap.symm (by decide) k)

end Runs

/-- Settles O29: the states agree on what the rules read (`SameDetInputs`), and the hidden state is zero in both, so the
runs stay alike (`runAlike_start`). -/
theorem equalInputsGiveEqualNonces : Obligations.EqualInputsGiveEqualNonces := by
  intro s s' hinv hinv' hj hj' hp ha hz hd hm hkey hdig hord hans hans' k
  have hopsz : s.opsz = s'.opsz := congrArg BitVec.toNat hz
  have hlen : s.hlen = s'.hlen := by rw [State.hlen, hp, ha]; rfl
  have hcap : s.bufcap = s'.bufcap := congrArg Params.bufcap hp
  have h : SameDetInputs s s' :=
    ⟨hp, ha, hz, hd, hm, by rw [State.privKey, hkey, hopsz]; rfl, by rw [State.hashDigest, hdig, hlen]; rfl,
      by rw [State.order, hord, hopsz]; rfl⟩
  have hs := engineOnly_of_justAccepted hinv hj hans
  have hs' := engineOnly_of_justAccepted hinv' hj' hans'
  obtain ⟨hc, -, -⟩ := hj
  obtain ⟨hc', -, -⟩ := hj'
  have hn : s.nonce = s'.nonce := by rw [nonce_start hinv hc, nonce_start hinv' hc', hcap]
  exact runAlike_start h hs hs' hc hc' hn k

end Sys2Proof.Machine
end

section
/-! PROOFS. The retry controller (43_retry_controller.md): submit's calls and their answers, and what the answer of
Ch.wait leads to. -/

namespace Sys2Proof.Machine

open Sys2Proof

variable {s : State} {i : Instr} {p : Point}

/-! ## The SIGN commands (43_retry_controller.md R174, R176) -/

/-- SIGN_RND and SIGN_DET, which share the retry controller. -/
def IsSignCommand (i : Instr) : Prop := i = .signRnd ∨ i = .signDet

theorem IsSignCommand.isSign (hi : IsSignCommand i) : i.isSign = true := by
  rcases hi with rfl | rfl <;> rfl

theorem IsSignCommand.isSecret (hi : IsSignCommand i) : isSecret i = true := by
  rcases hi with rfl | rfl <;> rfl

theorem signRnd_isSignCommand : IsSignCommand .signRnd := .inl rfl

/-! ## The engine inside submit (43_retry_controller.md R172) -/

/-- The Ch.write_operand call at point `p`: its slot, its operand, and the point of the next call. -/
def State.WritesOperand (s : State) (p : Point) (slot : Slot) (bytes : Bytes) (next : Point) : Prop :=
  p = .writePriv ∧ slot = .priv ∧ bytes = s.bytes .key s.opsz ∧ next = .writeNonce ∨
    p = .writeNonce ∧ slot = .nonce ∧ bytes = s.nonce.t.take s.opsz ∧ next = .writeDigest ∨
    p = .writeDigest ∧ slot = .digest ∧ bytes = s.d2o.take s.opsz ∧ next = .run

theorem exec_acquire (hi : IsSignCommand i) (hc : s.ctl = .running i .acquire) :
    exec i s = .next (s.acquireStep i) := by
  rcases hi with rfl | rfl
  · rw [exec, execSignRnd, pointOf_running hc]
  · rw [exec, execSignDet, pointOf_running hc]

theorem exec_writeOperand (hi : IsSignCommand i) {slot : Slot} {bytes : Bytes} {next : Point}
    (hw : s.WritesOperand p slot bytes next) (hc : s.ctl = .running i p) :
    exec i s = .next (s.writeStep i slot bytes next) := by
  rcases hi with rfl | rfl
  · rw [exec, execSignRnd, pointOf_running hc]
    rcases hw with ⟨rfl, rfl, rfl, rfl⟩ | ⟨rfl, rfl, rfl, rfl⟩ | ⟨rfl, rfl, rfl, rfl⟩ <;> rfl
  · rw [exec, execSignDet, pointOf_running hc]
    rcases hw with ⟨rfl, rfl, rfl, rfl⟩ | ⟨rfl, rfl, rfl, rfl⟩ | ⟨rfl, rfl, rfl, rfl⟩ <;> rfl

theorem exec_run (hi : IsSignCommand i) (hc : s.ctl = .running i .run) : exec i s = .next (s.runStep i) := by
  rcases hi with rfl | rfl
  · rw [exec, execSignRnd, pointOf_running hc]
  · rw [exec, execSignDet, pointOf_running hc]

theorem exec_wait (hi : IsSignCommand i) (hc : s.ctl = .running i .wait) : exec i s = .next (s.waitStep i) := by
  rcases hi with rfl | rfl
  · rw [exec, execSignRnd, pointOf_running hc]
  · rw [exec, execSignDet, pointOf_running hc]

/-! ## The channel's answers (43_retry_controller.md R170 to R173) -/

/-- `s` after an answered Ch.acquire, `D2O` written in the same step (log entry 10). -/
def State.acquireSpent (s : State) (rest : List AcquireAnswer) : State :=
  { s.putD2o with oracles := { s.oracles with acquire := rest }, trace := .acquire :: s.trace }

/-- `s` after an answered Ch.write_operand. -/
def State.writeSpent (s : State) (slot : Slot) (bytes : Bytes) (rest : List CallAnswer) : State :=
  { s with
    oracles := { s.oracles with write := rest }
    trace := .writeOperand s.handle slot bytes :: s.trace }

/-- `s` after an answered Ch.run. -/
def State.runSpent (s : State) (rest : List CallAnswer) : State :=
  { s with oracles := { s.oracles with run := rest }, trace := .run s.handle :: s.trace }

/-- `s` after an answered Ch.wait. -/
def State.waitSpent (s : State) (rest : List WaitAnswer) : State :=
  { s with oracles := { s.oracles with wait := rest }, trace := .wait s.handle :: s.trace }

/-- `s` after a Ch.wait whose answer is no FATAL: HANDLE is none again (43_retry_controller.md R172). -/
def State.waitReleased (s : State) (rest : List WaitAnswer) : State := { s.waitSpent rest with handle := none }

section Acquire
variable {rest : List AcquireAnswer}

theorem acquireStep_ok {h : Nat} (ho : s.oracles.acquire = .ok h :: rest) :
    s.acquireStep i = { s.acquireSpent rest with handle := some h }.goto i .writePriv := by
  have hd : s.putD2o.oracles.acquire = .ok h :: rest := ho
  simp only [State.acquireStep, hd]; rfl

theorem acquireStep_fatal {c : FatalCause} (ho : s.oracles.acquire = .fatal c :: rest) :
    s.acquireStep i = (s.acquireSpent rest).chFault i c := by
  have hd : s.putD2o.oracles.acquire = .fatal c :: rest := ho
  simp only [State.acquireStep, hd]; rfl

end Acquire

section Call
variable {slot : Slot} {bytes : Bytes} {next : Point} {rest : List CallAnswer}

theorem writeStep_ok (ho : s.oracles.write = .ok :: rest) :
    s.writeStep i slot bytes next = (s.writeSpent slot bytes rest).goto i next := by
  rw [State.writeStep, ho]; rfl

theorem writeStep_fatal {c : FatalCause} (ho : s.oracles.write = .fatal c :: rest) :
    s.writeStep i slot bytes next = (s.writeSpent slot bytes rest).chFault i c := by
  rw [State.writeStep, ho]; rfl

theorem runStep_ok (ho : s.oracles.run = .ok :: rest) : s.runStep i = (s.runSpent rest).goto i .wait := by
  rw [State.runStep, ho]; rfl

theorem runStep_fatal {c : FatalCause} (ho : s.oracles.run = .fatal c :: rest) :
    s.runStep i = (s.runSpent rest).chFault i c := by
  rw [State.runStep, ho]; rfl

end Call

section Wait
variable {rest : List WaitAnswer}

theorem waitStep_fatal {c : FatalCause} (ho : s.oracles.wait = .fatal c :: rest) :
    s.waitStep i = (s.waitSpent rest).chFault i c := by
  rw [State.waitStep, ho]; rfl

theorem waitStep_success {r z : Bytes} (ho : s.oracles.wait = .success r z :: rest) :
    s.waitStep i = (s.waitReleased rest).giveSignature i r z := by
  rw [State.waitStep, ho]; rfl

/-- The outcomes on which the loop tries again (43_retry_controller.md R171). -/
def Retryable (a : WaitAnswer) : Prop := a = .notInvertible ∨ a = .invalidSignature

theorem waitStep_retryable {a : WaitAnswer} (ha : Retryable a) (ho : s.oracles.wait = a :: rest) :
    s.waitStep i = (s.waitReleased rest).nextAttempt i := by
  rcases ha with rfl | rfl <;> rw [State.waitStep, ho] <;> rfl

end Wait

/-- A FATAL ends the command with HARDWARE_FAULT and its cause (43_retry_controller.md R172). -/
theorem chFault_sessionFailed (hi : IsSignCommand i) (hm : memWf s.mem = true) (c : FatalCause) :
    SessionFailed i .hardwareFault { s with faultInfo := chanCause c } (s.chFault i c) :=
  raise_sessionFailed (s := { s with faultInfo := chanCause c }) hm hi.isSecret (by decide)

/-- `D2O` after its write: the digest operand at its head (43_retry_controller.md R173). -/
theorem putD2o_d2o (s : State) :
    s.putD2o.d2o = digest2op s.params.d2opSelect s.digest s.opsz ++ s.d2o.drop s.opsz :=
  splice_zero (length_digest2op _ _ _)

/-- Settles O33: each call of submit has its step (`exec_acquire` and the lemmas beside it), an answer OK leads to the
next call (`acquireStep_ok` and those beside it), and a FATAL is `chFault`. -/
theorem submitCallsTheChannelInOrder : Obligations.SubmitCallsTheChannelInOrder := by
  intro s i (hi : IsSignCommand i) _ hm
  refine ⟨fun hc d hd => ⟨fun h rest ho => ?_, fun c rest ho => ⟨_, exec_acquire hi hc, ?_⟩⟩,
    fun p slot bytes next (hw : s.WritesOperand p slot bytes next) hc =>
      ⟨fun rest ho => ?_, fun c rest ho => ⟨_, exec_writeOperand hi hw hc, ?_⟩⟩,
    fun hc => ⟨fun rest ho => ?_, fun c rest ho => ⟨_, exec_run hi hc, ?_⟩⟩⟩
  · have hd2o : s.putD2o.d2o = d ++ s.d2o.drop s.opsz := by
      rw [putD2o_d2o, hd]
      exact congrArg (· ++ _) (digest2op_eq_ite (length_bytes _ _) _ _)
    rw [exec_acquire hi hc, acquireStep_ok ho, ← hd2o]; rfl
  · rw [acquireStep_fatal ho]
    exact chFault_sessionFailed (s := s.acquireSpent rest) hi hm c
  · rw [exec_writeOperand hi hw hc, writeStep_ok ho]; rfl
  · rw [writeStep_fatal ho]
    exact chFault_sessionFailed (s := s.writeSpent slot bytes rest) hi hm c
  · rw [exec_run hi hc, runStep_ok ho]; rfl
  · rw [runStep_fatal ho]
    exact chFault_sessionFailed (s := s.runSpent rest) hi hm c

/-! ## The signature (43_retry_controller.md R175, R179) -/

section Signature
variable {r z : Bytes}

/-- `s` with the channel's `r` and `z` in SIG_R and SIG_S, zero above OPSZ. -/
def State.fillSignature (s : State) (r z : Bytes) : State := (s.fill .sigR r).fill .sigS z

theorem fillSignature_memForm (hm : memWf s.mem = true) : memWf (s.fillSignature r z).mem = true :=
  fill_memForm (s := s.fill .sigR r) (fill_memForm hm _ _) _ _

theorem fillSignature_sigS (hm : memWf s.mem = true) (hz : z.length ≤ s.bufcap) :
    BufHolds (s.fillSignature r z) .sigS z :=
  fill_bufHolds (s := s.fill .sigR r) (fill_memForm hm _ _) _ hz

theorem fillSignature_sigR (hp : s.params.ok) (hm : memWf s.mem = true) (hr : r.length ≤ s.bufcap)
    (hz : z.length ≤ s.bufcap) : BufHolds (s.fillSignature r z) .sigR r := by
  have hs : SameOutside [.sigS] (s.fill .sigR r) (s.fillSignature r z) :=
    fill_sameOutside (fill_memForm hm _ _) (by simp) hz
  exact hs.bufHolds (bufcap_le hp) rfl (by simp) hr (fill_bufHolds hm _ hr)

theorem fillSignature_sameOutside (hm : memWf s.mem = true) (hr : r.length ≤ s.bufcap) (hz : z.length ≤ s.bufcap)
    {xs : List Buf} (h1 : .sigR ∈ xs) (h2 : .sigS ∈ xs) : SameOutside xs s (s.fillSignature r z) :=
  (fill_sameOutside hm h1 hr).trans (fill_sameOutside (s := s.fill .sigR r) (fill_memForm hm _ _) h2 hz) rfl

/-- The end of a SIGN command leaves what SIG_R and SIG_S hold. -/
theorem finish_signature (hi : IsSignCommand i) (hp : s.params.ok) (hm : memWf s.mem = true)
    (hr : r.length ≤ s.bufcap) (hz : z.length ≤ s.bufcap) :
    BufHolds ((s.fillSignature r z).finish i) .sigR r ∧ BufHolds ((s.fillSignature r z).finish i) .sigS z := by
  have hf := finish_sameOutside (s := s.fillSignature r z) (fillSignature_memForm hm) hi.isSecret
  exact ⟨hf.bufHolds (bufcap_le hp) (terminate_bufcap _ _ _) (by simp) hr (fillSignature_sigR hp hm hr hz),
    hf.bufHolds (bufcap_le hp) (terminate_bufcap _ _ _) (by simp) hz (fillSignature_sigS hm hz)⟩

theorem finish_signature_sessionEnded (hi : IsSignCommand i) (hm : memWf s.mem = true) (hr : r.length ≤ s.bufcap)
    (hz : z.length ≤ s.bufcap) : SessionEnded [.sigR, .sigS] .none s ((s.fillSignature r z).finish i) := by
  obtain ⟨hk, hd, ho, hf⟩ := terminate_sessionEnded (s := s.fillSignature r z) (xs := [.sigR, .sigS]) hi.isSecret
    (fillSignature_memForm hm) .none (fun hn => absurd hi.isSign (by simp [isSign_of_isNonce hn])) (by simp)
  exact ⟨hk, hd, (fillSignature_sameOutside hm hr hz (by simp) (by simp)).trans ho rfl,
    congrArg (fun u => { u with mem := s.mem }) hf⟩

/-- `r` and `z` of OPSZ bytes go into SIG_R and SIG_S as they are. -/
theorem giveSignature_eq (hr : r.length = s.opsz) (hz : z.length = s.opsz) :
    s.giveSignature i r z = (s.fillSignature r z).finish i := by
  rw [State.giveSignature, fit_of_length hr, fit_of_length hz]; rfl

end Signature

/-- Settles O34: the step of Ch.wait fills SIG_R and SIG_S and finishes (`finish_signature`,
`finish_signature_sessionEnded`). -/
theorem signSuccessGivesTheSignature : Obligations.SignSuccessGivesTheSignature := by
  intro s i r z rest (hi : IsSignCommand i) hp hm hc hl ho hr hz
  have hcap : s.opsz ≤ s.bufcap := hl.trans (le_max_right _ _)
  refine ⟨_, exec_wait hi hc, ?_⟩
  rw [waitStep_success ho, giveSignature_eq (s := s.waitReleased rest) hr hz]
  obtain ⟨h1, h2⟩ := finish_signature (s := s.waitReleased rest) hi hp hm (hr.trans_le hcap)
    (hz.trans_le hcap)
  exact ⟨h1, h2, finish_signature_sessionEnded (s := s.waitReleased rest) hi hm
    (hr.trans_le hcap) (hz.trans_le hcap)⟩

/-! ## The next attempt (43_retry_controller.md R174 to R178) -/

theorem nextAttempt_exhausted (h : s.attempts.toNat = s.maxAtt.toNat + 1) :
    s.nextAttempt i = s.raise i .tooManyAttempts := if_pos h

theorem nonceForRetry_fresh (hr : s.rfcRetry = false) : s.nonceForRetry .signDet = s.startDerive .signDet := by
  simp [State.nonceForRetry, Instr.isDet, hr]

theorem nonceForRetry_continue (hr : s.rfcRetry = true) : s.nonceForRetry .signDet = s.goto .signDet .reject := by
  simp [State.nonceForRetry, Instr.isDet, hr]

section Again
variable (h : s.attempts.toNat ≠ s.maxAtt.toNat + 1)
include h

theorem nextAttempt_again : s.nextAttempt i = { s with attempts := s.attempts + 1 }.nonceForRetry i := if_neg h

theorem nextAttempt_signRnd : s.nextAttempt .signRnd =
    { s with attempts := s.attempts + 1, draws := 0, ctl := .running .signRnd .draw } := nextAttempt_again h

theorem nextAttempt_signDet_fresh (hr : s.rfcRetry = false) : s.nextAttempt .signDet = { s with
    attempts := s.attempts + 1
    nonce := { s.nonce with det := true, retry := 0, step := .step0 }
    ctl := .running .signDet .derive } :=
  (nextAttempt_again h).trans (nonceForRetry_fresh (s := { s with attempts := s.attempts + 1 }) hr)

theorem nextAttempt_signDet_continue (hr : s.rfcRetry = true) : s.nextAttempt .signDet =
    { s with attempts := s.attempts + 1, ctl := .running .signDet .reject } :=
  (nextAttempt_again h).trans (nonceForRetry_continue (s := { s with attempts := s.attempts + 1 }) hr)

end Again

/-- Settles O35: a retryable outcome is `nextAttempt`, by its cases, and a FATAL is `chFault`. -/
theorem retryableOutcomeStartsTheNextAttempt : Obligations.RetryableOutcomeStartsTheNextAttempt := by
  rintro s _ i a rest (hi : IsSignCommand i) _ hm hc ho rfl
  refine ⟨fun ha hx => ⟨_, exec_wait hi hc, ?_⟩, fun ha hx => ?_, fun c hf => ⟨_, exec_wait hi hc, ?_⟩⟩
  · rw [waitStep_retryable ha ho, nextAttempt_exhausted (s := s.waitReleased rest) hx]
    exact raise_sessionFailed (s := s.waitReleased rest) hm hi.isSecret (by decide)
  · rw [exec_wait hi hc, waitStep_retryable ha ho]
    refine ⟨?_, ?_, ?_⟩
    · rintro rfl; rw [nextAttempt_signRnd (s := s.waitReleased rest) hx]; rfl
    · rintro rfl hr; rw [nextAttempt_signDet_fresh (s := s.waitReleased rest) hx hr]; rfl
    · rintro rfl hr; rw [nextAttempt_signDet_continue (s := s.waitReleased rest) hx hr]; rfl
  · rw [waitStep_fatal (ho.trans (by rw [hf]))]
    exact chFault_sessionFailed (s := s.waitSpent rest) hi hm c

end Sys2Proof.Machine
end

section
/-! PROOFS. Engine-only runs of SIGN_RND (43_retry_controller.md R174, R175, R180): one attempt from its draw to Ch.wait,
a first attempt that signs, and the exhaustion of the attempts. -/

namespace Sys2Proof.Machine

open Sys2Proof

variable {s t u v w : State} {i : Instr} {p : Point}

/-! ## Runs in which the command stays busy -/

/-- `k` steps lead from `u` to `v`, BUSY being 1 before each of them. -/
def LeadsBusy (k : Nat) (u v : State) : Prop :=
  Leads k u v ∧ ∀ j, j < k → ∃ t, runSteps j u = .next t ∧ t.busy = true

theorem leadsBusy_of_exec (hin : u.inputs = []) (hb : u.busy = true) (hc : u.ctl = .running i p)
    (hx : exec i u = .next v) : LeadsBusy 1 u v := by
  have hs : step u = .next v := by rw [step_no_input hin, engineStep_running hc, hx]
  refine ⟨leads_of_step hs, fun j hj => ?_⟩
  obtain rfl : j = 0 := by omega
  exact ⟨u, rfl, hb⟩

/-- A busy stretch before `v` and one from `v` on: step `a + j` of the run is step `j` from `v`. -/
theorem LeadsBusy.busy_add {a k : Nat} (h : LeadsBusy a u v)
    (h' : ∀ j, j < k → ∃ t, runSteps j v = .next t ∧ t.busy = true) (j : Nat) (hj : j < a + k) :
    ∃ t, runSteps j u = .next t ∧ t.busy = true := by
  obtain ⟨hl, hb⟩ := h
  by_cases hja : j < a
  · exact hb j hja
  · obtain ⟨d, rfl⟩ : ∃ d, j = d + a := ⟨j - a, by omega⟩
    rw [hl d]
    exact h' d (by omega)

theorem LeadsBusy.trans {a b : Nat} (h : LeadsBusy a u v) (h' : LeadsBusy b v w) : LeadsBusy (a + b) u w :=
  ⟨h.1.trans h'.1, h.busy_add h'.2⟩

theorem terminate_attempts (s : State) (cmd : Option Instr) (e : ErrCode) :
    (s.terminate cmd e).attempts = s.attempts := by
  unfold State.terminate
  rcases wipeSession_eq (s.wipeOutput cmd e) cmd with h | h <;> rw [h] <;> simp

/-! ## An attempt's nonce (41_nonce_random.md R131) -/

/-- SIGN_RND is at rnd_k's first draw, and only the engine moves. -/
structure AtFirstDraw (s : State) : Prop where
  inputs : s.inputs = []
  busy : s.busy = true
  ctl : s.ctl = .running .signRnd .draw
  draws : s.draws = 0
  params : s.params.ok

theorem AtFirstDraw.draws_ne (h : AtFirstDraw s) : s.draws ≠ s.params.rndMaxDraws := by
  obtain ⟨-, -, -, -, -, hmax⟩ := h.params
  rw [h.draws]; omega

/-- `s` at Ch.acquire, the draw taken and its masked value `c` in T. -/
def State.nonceAccepted (s : State) (rest : List EntropyAnswer) (c : Nat) : State :=
  { s.entropySpent rest with
    nonce := { s.nonce with t := be s.opsz c ++ s.nonce.t.drop s.opsz, tlen := s.opsz }
    ctl := .running .signRnd .acquire }

theorem nonceAccepted_cand (rest : List EntropyAnswer) (c : Nat) : (s.nonceAccepted rest c).cand = be s.opsz c :=
  List.take_left' (length_be _ _)

/-- A draw of OPSZ bytes that is in range once masked to the order's bit length. -/
def State.DrawInRange (s : State) (e : Bytes) : Prop :=
  e.length = s.opsz ∧ 1 ≤ beInt e % 2 ^ bitlen s.q ∧ beInt e % 2 ^ bitlen s.q < s.q

theorem signRnd_onRandomPath : OnRandomPath .signRnd .acquire := .inr ⟨rfl, rfl⟩

/-- `s` at rnd_k's test, the answered draw `e` in T. -/
def State.drawTaken (s : State) (rest : List EntropyAnswer) (e : Bytes) : State :=
  { s.entropySpent rest with
    nonce := { s.nonce with t := e ++ s.nonce.t.drop s.opsz, tlen := s.opsz }
    ctl := .running .signRnd .test }

theorem drawStep_drawTaken (h : AtFirstDraw s) {e : Bytes} (he : e.length = s.opsz) {rest : List EntropyAnswer}
    (ho : s.oracles.entropy = .bytes e :: rest) : s.drawStep .signRnd = s.drawTaken rest e := by
  rw [drawStep_drawn h.draws_ne ho, fit_of_length he]; rfl

/-- The test passes a draw in range and leaves its masked value in T. -/
theorem testStep_drawTaken {e : Bytes} (he : s.DrawInRange e) (rest : List EntropyAnswer) :
    (s.drawTaken rest e).testStep .signRnd .acquire = s.nonceAccepted rest (beInt e % 2 ^ bitlen s.q) := by
  obtain ⟨hl, h1, h2⟩ := he
  have hcand : (s.drawTaken rest e).cand = e := List.take_left' hl
  have hrest : (s.drawTaken rest e).nonce.t.drop s.opsz = s.nonce.t.drop s.opsz := List.drop_left' hl
  have hc : beInt e % 2 ^ bitlen s.q = beInt (s.drawTaken rest e).cand % 2 ^ (s.drawTaken rest e).qlen := by
    rw [hcand]; rfl
  have hin : ¬ (beInt e % 2 ^ bitlen s.q = 0 ∨ (s.drawTaken rest e).q ≤ beInt e % 2 ^ bitlen s.q) := by
    change ¬ (_ ∨ s.q ≤ _); omega
  rw [testStep_eq hc, if_neg hin, State.nonceAccepted, ← hrest]; rfl

/-- A draw in range takes two steps: the Entropy call and the test. -/
theorem leadsBusy_nonceAccepted (h : AtFirstDraw s) {e : Bytes} (he : s.DrawInRange e) {rest : List EntropyAnswer}
    (ho : s.oracles.entropy = .bytes e :: rest) :
    LeadsBusy 2 s (s.nonceAccepted rest (beInt e % 2 ^ bitlen s.q)) := by
  have hdraw : LeadsBusy 1 s (s.drawTaken rest e) := leadsBusy_of_exec h.inputs h.busy h.ctl <| by
    rw [exec_draw signRnd_onRandomPath h.ctl, drawStep_drawTaken h he.1 ho]
  have htest : LeadsBusy 1 (s.drawTaken rest e) _ := leadsBusy_of_exec h.inputs h.busy rfl <| by
    rw [exec_test signRnd_onRandomPath rfl, testStep_drawTaken he]
  exact hdraw.trans htest

/-! ## submit, its calls all answered (43_retry_controller.md R172, R173) -/

/-- `s` inside submit at point `p`, with `h` as the handle, the answers `o` to come and the calls `calls` made. -/
def State.inSubmit (s : State) (i : Instr) (p : Point) (h : Nat) (o : Oracles) (calls : List OracleCall) : State :=
  { s with handle := some h, oracles := o, trace := calls ++ s.trace, ctl := .running i p }

section Submit
variable {h : Nat} {o : Oracles} {calls : List OracleCall} {ar : List AcquireAnswer} {wr rr : List CallAnswer}
  (hi : IsSignCommand i) (hin : s.inputs = []) (hb : s.busy = true)
include hi hin hb

theorem leadsBusy_acquire (hc : s.ctl = .running i .acquire) (ho : s.oracles.acquire = .ok h :: ar) :
    LeadsBusy 1 s (s.putD2o.inSubmit i .writePriv h { s.oracles with acquire := ar } [.acquire]) :=
  leadsBusy_of_exec hin hb hc (by rw [exec_acquire hi hc, acquireStep_ok ho]; rfl)

theorem leadsBusy_write {slot : Slot} {bytes : Bytes} {next : Point} (hw : s.WritesOperand p slot bytes next)
    (ho : o.write = .ok :: wr) : LeadsBusy 1 (s.inSubmit i p h o calls)
      (s.inSubmit i next h { o with write := wr } (.writeOperand (some h) slot bytes :: calls)) :=
  leadsBusy_of_exec hin hb rfl <| by
    rw [exec_writeOperand (s := s.inSubmit i p h o calls) hi hw rfl, writeStep_ok ho]; rfl

theorem leadsBusy_run (ho : o.run = .ok :: rr) : LeadsBusy 1 (s.inSubmit i .run h o calls)
    (s.inSubmit i .wait h { o with run := rr } (.run (some h) :: calls)) :=
  leadsBusy_of_exec hin hb rfl <| by
    rw [exec_run (s := s.inSubmit i .run h o calls) hi rfl, runStep_ok ho]; rfl

/-- The three operands go to the channel in their order. -/
theorem leadsBusy_operands (ho : o.write = .ok :: .ok :: .ok :: wr) : LeadsBusy 3 (s.inSubmit i .writePriv h o calls)
    (s.inSubmit i .run h { o with write := wr } ([.writeOperand (some h) .digest s.d2oVal,
      .writeOperand (some h) .nonce s.cand, .writeOperand (some h) .priv s.privKey] ++ calls)) := by
  have hpriv := leadsBusy_write (h := h) (calls := calls) hi hin hb (.inl ⟨rfl, rfl, rfl, rfl⟩) ho
  have hnonce := hpriv.trans (leadsBusy_write hi hin hb (.inr (.inl ⟨rfl, rfl, rfl, rfl⟩)) rfl)
  exact hnonce.trans (leadsBusy_write hi hin hb (.inr (.inr ⟨rfl, rfl, rfl, rfl⟩)) rfl)

/-- submit takes five steps to Ch.wait: acquire, the operands, and run. -/
theorem leadsBusy_submit (hc : s.ctl = .running i .acquire) (ha : s.oracles.acquire = .ok h :: ar)
    (hw : s.oracles.write = .ok :: .ok :: .ok :: wr) (hr : s.oracles.run = .ok :: rr) :
    LeadsBusy 5 s (s.putD2o.inSubmit i .wait h { s.oracles with acquire := ar, write := wr, run := rr }
      [.run (some h), .writeOperand (some h) .digest s.putD2o.d2oVal, .writeOperand (some h) .nonce s.cand,
        .writeOperand (some h) .priv s.privKey, .acquire]) :=
  ((leadsBusy_acquire hi hin hb hc ha).trans (leadsBusy_operands (s := s.putD2o) hi hin hb hw)).trans
    (leadsBusy_run (s := s.putD2o) hi hin hb hr)

end Submit

theorem d2oVal_putD2o (s : State) : s.putD2o.d2oVal = digest2op s.params.d2opSelect s.digest s.opsz :=
  take_splice_zero (length_digest2op _ _ _)

/-! ## An attempt of SIGN_RND (43_retry_controller.md R174, R175) -/

/-- `s` at Ch.wait of an attempt whose draw masks to `c` and whose handle is `h`, the answers `o` to come. -/
def State.attempted (s : State) (c h : Nat) (o : Oracles) : State :=
  { s with
    draws := s.draws + 1
    nonce := { s.nonce with t := be s.opsz c ++ s.nonce.t.drop s.opsz, tlen := s.opsz }
    d2o := s.putD2o.d2o
    handle := some h
    oracles := o
    trace := [.run (some h), .writeOperand (some h) .digest (digest2op s.params.d2opSelect s.digest s.opsz),
      .writeOperand (some h) .nonce (be s.opsz c), .writeOperand (some h) .priv s.privKey, .acquire,
      .entropy s.opsz] ++ s.trace
    ctl := .running .signRnd .wait }

/-- submit at Ch.wait, begun with the masked draw `c` in T. -/
theorem inSubmit_nonceAccepted (s : State) (er : List EntropyAnswer) (c h : Nat) (o : Oracles) :
    (s.nonceAccepted er c).putD2o.inSubmit .signRnd .wait h o
      [.run (some h), .writeOperand (some h) .digest (digest2op s.params.d2opSelect s.digest s.opsz),
        .writeOperand (some h) .nonce (be s.opsz c), .writeOperand (some h) .priv s.privKey, .acquire] =
      s.attempted c h o := by
  simp only [State.nonceAccepted, State.putD2o, State.entropySpent, State.inSubmit, State.attempted]
  rfl

/-- An attempt takes seven steps to Ch.wait when its draw is in range and the channel answers OK. -/
theorem leadsBusy_attempted (hs : AtFirstDraw s) {e : Bytes} (he : s.DrawInRange e) {h : Nat} {er : List EntropyAnswer}
    {ar : List AcquireAnswer} {wr rr : List CallAnswer} (ho : s.oracles.entropy = .bytes e :: er)
    (ha : s.oracles.acquire = .ok h :: ar) (hw : s.oracles.write = .ok :: .ok :: .ok :: wr)
    (hr : s.oracles.run = .ok :: rr) : LeadsBusy 7 s (s.attempted (beInt e % 2 ^ bitlen s.q) h
      { s.oracles with entropy := er, acquire := ar, write := wr, run := rr }) := by
  have hsub := leadsBusy_submit (s := s.nonceAccepted er (beInt e % 2 ^ bitlen s.q)) signRnd_isSignCommand
    hs.inputs hs.busy rfl ha hw hr
  have hfinal := inSubmit_nonceAccepted s er (beInt e % 2 ^ bitlen s.q) h
    { s.oracles with entropy := er, acquire := ar, write := wr, run := rr }
  rw [d2oVal_putD2o, nonceAccepted_cand] at hsub
  exact hfinal ▸ (leadsBusy_nonceAccepted hs he ho).trans hsub

/-- `s` at the first draw of attempt 0. -/
def State.startedRnd (s : State) : State := { s with attempts := 1, draws := 0, ctl := .running .signRnd .draw }

/-- SIGN_RND's first step with its checks passing: attempt 0 begins. -/
theorem leadsBusy_signRnd_start (hinv : s.Inv) (hj : s.justAccepted .signRnd) (hk : s.checksOf .signRnd = true) :
    LeadsBusy 1 s s.startedRnd := by
  obtain ⟨hc, hb, hin⟩ := hj
  obtain ⟨hstart, -⟩ := signStartsWithItsChecks s .signRnd (.inl rfl) hinv.params hinv.memForm hc
  exact leadsBusy_of_exec hin hb hc
    ((hstart ⟨hash_of_checks hk (by decide), curve_of_checks hk⟩).1 rfl)

theorem atFirstDraw_startedRnd (hinv : s.Inv) (hj : s.justAccepted .signRnd) : AtFirstDraw s.startedRnd := by
  obtain ⟨-, hb, hin⟩ := hj
  exact ⟨hin, hb, rfl, rfl, hinv.params⟩

theorem runSteps_exec_one (hin : s.inputs = []) (hc : s.ctl = .running i p) (hx : exec i s = .next t) :
    runSteps 1 s = .next t := by
  rw [runSteps_succ_next (t := t) (by rw [step_no_input hin, engineStep_running hc, hx])]; rfl

/-! ## A first attempt that signs (43_retry_controller.md R172 to R175) -/

/-- The step of Ch.wait with SUCCESS(r, z), as the end of a run. -/
theorem runSteps_success (hi : IsSignCommand i) (hin : s.inputs = []) (hp : s.params.ok) (hm : memWf s.mem = true)
    (hc : s.ctl = .running i .wait) (hcap : s.opsz ≤ s.bufcap) {r z : Bytes} {rest : List WaitAnswer}
    (ho : s.oracles.wait = .success r z :: rest) (hr : r.length = s.opsz) (hz : z.length = s.opsz) :
    ∃ t, runSteps 1 s = .next t ∧ t.busy = false ∧ t.err = .none ∧ t.attempts = s.attempts ∧ BufHolds t .sigR r ∧
      BufHolds t .sigS z ∧ t.trace = .wait s.handle :: s.trace := by
  obtain ⟨hsr, hss⟩ := finish_signature (s := s.waitReleased rest) hi hp hm (hr.trans_le hcap) (hz.trans_le hcap)
  have hatt : ((s.waitReleased rest).fillSignature r z).attempts = s.attempts := by
    rw [State.fillSignature, State.fill_attempts, State.fill_attempts]; rfl
  refine ⟨((s.waitReleased rest).fillSignature r z).finish i, runSteps_exec_one hin hc ?_, rfl, rfl,
    (terminate_attempts _ _ _).trans hatt, hsr, hss, terminate_trace _ _ _⟩
  rw [exec_wait hi hc, waitStep_success ho, giveSignature_eq (s := s.waitReleased rest) hr hz]

/-- Settles O37: one step for the checks, seven to Ch.wait (`leadsBusy_attempted`), and one that gives the signature
(`runSteps_success`). -/
theorem signRndFirstAttemptSigns : Obligations.SignRndFirstAttemptSigns := by
  intro s e r z c h er ar wr rr tr hinv hj hk he hel hc h1 h2 ha hw hr ho hrl hzl
  subst hc
  obtain ⟨hrun, -⟩ := (leadsBusy_signRnd_start hinv hj hk).trans
    (leadsBusy_attempted (atFirstDraw_startedRnd hinv hj) (e := e) ⟨hel, h1, h2⟩ he ha hw hr)
  obtain ⟨-, -, hin⟩ := hj
  obtain ⟨t, ht, hend⟩ := runSteps_success (i := .signRnd) (s := s.startedRnd.attempted (beInt e % 2 ^ bitlen s.q) h
    { s.oracles with entropy := er, acquire := ar, write := wr, run := rr }) signRnd_isSignCommand hin hinv.params
    hinv.memForm rfl (opsz_le_cap hk) ho hrl hzl
  exact ⟨t, (hrun 1).trans ht, hend⟩

/-! ## The exhaustion of the attempts (43_retry_controller.md R175, R180) -/

/-- The answers of attempts that take the draws `ds` and the handles `hs` and end with the outcomes `ws`, before the
answers `o`. -/
def retryScript (ds : List Bytes) (hs : List Nat) (ws : List WaitAnswer) (o : Oracles) : Oracles where
  entropy := ds.map .bytes ++ o.entropy
  acquire := hs.map .ok ++ o.acquire
  write := List.replicate (3 * ds.length) .ok ++ o.write
  run := List.replicate ds.length .ok ++ o.run
  wait := ws ++ o.wait
  hmacAnswers := o.hmacAnswers

/-- The command stays busy for `k` steps and has then ended with TOO_MANY_ATTEMPTS and ATTEMPTS = `n`. -/
def ExhaustsAfter (k n : Nat) (s : State) : Prop :=
  (∀ j, j < k → ∃ t, runSteps j s = .next t ∧ t.busy = true) ∧
    ∃ t, runSteps k s = .next t ∧ t.busy = false ∧ t.err = .tooManyAttempts ∧ t.attempts.toNat = n

theorem LeadsBusy.exhausts {a k n : Nat} (h : LeadsBusy a u v) (h' : ExhaustsAfter k n v) :
    ExhaustsAfter (a + k) n u := by
  obtain ⟨hb, t, ht, hend⟩ := h'
  exact ⟨h.busy_add hb, t, by rw [add_comm, h.1, ht], hend⟩

/-- An attempt of the script takes seven steps to Ch.wait and leaves the script of the later ones. -/
theorem leadsBusy_scripted (hs : AtFirstDraw s) {e : Bytes} (he : s.DrawInRange e) {h : Nat} {a : WaitAnswer}
    {ds : List Bytes} {hh : List Nat} {ws : List WaitAnswer} {o : Oracles}
    (ho : s.oracles = retryScript (e :: ds) (h :: hh) (a :: ws) o) :
    LeadsBusy 7 s (s.attempted (beInt e % 2 ^ bitlen s.q) h (retryScript ds hh (a :: ws) o)) := by
  have hrun := leadsBusy_attempted hs he (h := h) (er := (retryScript ds hh ws o).entropy)
    (ar := (retryScript ds hh ws o).acquire) (wr := (retryScript ds hh ws o).write)
    (rr := (retryScript ds hh ws o).run) (by rw [ho]; rfl) (by rw [ho]; rfl) (by rw [ho]; rfl) (by rw [ho]; rfl)
  rw [ho] at hrun
  exact hrun

/-- At Ch.wait of the last attempt a retryable outcome ends the command. -/
theorem exhaustsAfter_wait (hin : s.inputs = []) (hb : s.busy = true) (hc : s.ctl = .running .signRnd .wait)
    {a : WaitAnswer} (ha : Retryable a) {rest : List WaitAnswer} (ho : s.oracles.wait = a :: rest)
    (hx : s.attempts.toNat = s.maxAtt.toNat + 1) : ExhaustsAfter 1 (s.maxAtt.toNat + 1) s := by
  refine ⟨fun j hj => ?_, (s.waitReleased rest).raise .signRnd .tooManyAttempts, runSteps_exec_one hin hc ?_, rfl, rfl,
    (congrArg BitVec.toNat (terminate_attempts _ _ _)).trans hx⟩
  · obtain rfl : j = 0 := by omega
    exact ⟨s, rfl, hb⟩
  · rw [exec_wait signRnd_isSignCommand hc, waitStep_retryable ha ho,
      nextAttempt_exhausted (s := s.waitReleased rest) hx]

/-- `s` at the first draw of its next attempt. -/
def State.retried (s : State) (rest : List WaitAnswer) : State :=
  { s.waitReleased rest with attempts := s.attempts + 1, draws := 0, ctl := .running .signRnd .draw }

/-- At Ch.wait of an earlier attempt a retryable outcome leads to the next one. -/
theorem leadsBusy_retried (hin : s.inputs = []) (hb : s.busy = true) (hc : s.ctl = .running .signRnd .wait)
    {a : WaitAnswer} (ha : Retryable a) {rest : List WaitAnswer} (ho : s.oracles.wait = a :: rest)
    (hx : s.attempts.toNat ≠ s.maxAtt.toNat + 1) : LeadsBusy 1 s (s.retried rest) :=
  leadsBusy_of_exec hin hb hc <| by
    rw [exec_wait signRnd_isSignCommand hc, waitStep_retryable ha ho, nextAttempt_signRnd (s := s.waitReleased rest) hx]
    rfl

theorem atFirstDraw_retried {rest : List WaitAnswer} (hin : s.inputs = []) (hb : s.busy = true) (hp : s.params.ok) :
    AtFirstDraw (s.retried rest) := ⟨hin, hb, rfl, rfl, hp⟩

/-- What no attempt changes: the input list, BUSY, and what the loop's checks read. -/
structure KeepsSetup (s t : State) : Prop where
  inputs : t.inputs = s.inputs
  busy : t.busy = s.busy
  params : t.params = s.params
  opsz8 : t.opsz8 = s.opsz8
  mem : t.mem = s.mem
  maxAtt : t.maxAtt = s.maxAtt

theorem keepsSetup_attempted (s : State) (c h : Nat) (o : Oracles) : KeepsSetup s (s.attempted c h o) :=
  ⟨rfl, rfl, rfl, rfl, rfl, rfl⟩

theorem keepsSetup_retried (s : State) (rest : List WaitAnswer) : KeepsSetup s (s.retried rest) :=
  ⟨rfl, rfl, rfl, rfl, rfl, rfl⟩

theorem KeepsSetup.trans (h : KeepsSetup s t) (h' : KeepsSetup t u) : KeepsSetup s u :=
  ⟨h'.inputs.trans h.inputs, h'.busy.trans h.busy, h'.params.trans h.params, h'.opsz8.trans h.opsz8,
    h'.mem.trans h.mem, h'.maxAtt.trans h.maxAtt⟩

theorem KeepsSetup.drawInRange (h : KeepsSetup s t) {e : Bytes} (he : s.DrawInRange e) : t.DrawInRange e := by
  have hl : t.opsz = s.opsz := congrArg BitVec.toNat h.opsz8
  have hq : t.q = s.q := by rw [State.q, State.order, State.bytes, h.mem, hl]; rfl
  rwa [State.DrawInRange, hl, hq]

/-- An attempt of the script that is not the last takes eight steps and leads to the first draw of the next one. -/
theorem leadsBusy_failedAttempt (hs : AtFirstDraw s) {e : Bytes} (he : s.DrawInRange e) {h : Nat} {a : WaitAnswer}
    (ha : Retryable a) {ds : List Bytes} {hh : List Nat} {ws : List WaitAnswer} {o : Oracles}
    (ho : s.oracles = retryScript (e :: ds) (h :: hh) (a :: ws) o) (hx : s.attempts.toNat ≠ s.maxAtt.toNat + 1) :
    ∃ t, LeadsBusy 8 s t ∧ AtFirstDraw t ∧ KeepsSetup s t ∧ t.oracles = retryScript ds hh ws o ∧
      t.attempts = s.attempts + 1 := by
  have hwait := leadsBusy_scripted hs he ho
  have hkeep := keepsSetup_attempted s (beInt e % 2 ^ bitlen s.q) h (retryScript ds hh (a :: ws) o)
  have hin := hkeep.inputs.trans hs.inputs
  have hb := hkeep.busy.trans hs.busy
  have hp := (congrArg Params.ok hkeep.params).mpr hs.params
  exact ⟨_, hwait.trans (leadsBusy_retried (rest := ws ++ o.wait) hin hb rfl ha rfl hx),
    atFirstDraw_retried hin hb hp, hkeep.trans (keepsSetup_retried _ _), rfl, rfl⟩

/-- ATTEMPTS does not wrap while it is at most MAX_ATTEMPTS (10_state.md R29). -/
theorem toNat_attempts_succ (h : s.attempts.toNat ≤ s.maxAtt.toNat) :
    (s.attempts + 1).toNat = s.attempts.toNat + 1 := by
  have := s.maxAtt.isLt
  simp [BitVec.toNat_add]; omega

/-- From the first draw of an attempt, with the draws `ds` for it and all later ones and every outcome retryable, the
command takes eight steps for each attempt and ends. -/
theorem exhaustsAfter_attempts {ds : List Bytes} {hh : List Nat} {ws : List WaitAnswer} {o : Oracles}
    (hs : AtFirstDraw s) (hl : hh.length = ds.length) (hw : ws.length = ds.length)
    (hds : ∀ e ∈ ds, s.DrawInRange e) (hws : ∀ a ∈ ws, Retryable a) (ho : s.oracles = retryScript ds hh ws o)
    (hlast : s.attempts.toNat ≤ s.maxAtt.toNat + 1) (hm : s.attempts.toNat + ds.length = s.maxAtt.toNat + 2) :
    ExhaustsAfter (8 * ds.length) (s.maxAtt.toNat + 1) s := by
  induction ds generalizing s hh ws with
  | nil => rw [List.length_nil] at hm; omega
  | cons e ds ih =>
    obtain ⟨h, hh, rfl⟩ := List.exists_of_length_succ hh hl
    obtain ⟨a, ws, rfl⟩ := List.exists_of_length_succ ws hw
    obtain ⟨he, hds⟩ := List.forall_mem_cons.1 hds
    obtain ⟨ha, hws⟩ := List.forall_mem_cons.1 hws
    rw [List.length_cons] at hm
    by_cases hx : s.attempts.toNat = s.maxAtt.toNat + 1
    · have hend := (leadsBusy_scripted hs he ho).exhausts (exhaustsAfter_wait hs.inputs hs.busy rfl ha rfl hx)
      rwa [List.length_cons, show ds.length = 0 by omega]
    · obtain ⟨t, hrun, ht, hkeep, hto, htatt⟩ := leadsBusy_failedAttempt hs he ha ho hx
      have hsucc : t.attempts.toNat = s.attempts.toNat + 1 := by rw [htatt, toNat_attempts_succ (by omega)]
      have hrest := ih ht (Nat.succ.inj hl) (Nat.succ.inj hw) (fun e he => hkeep.drawInRange (hds e he)) hws hto
        (by rw [hkeep.maxAtt]; omega) (by rw [hkeep.maxAtt]; omega)
      rw [hkeep.maxAtt] at hrest
      rw [List.length_cons, mul_add_one, add_comm]
      exact hrun.exhausts hrest

/-- Settles O38: one step for the checks, and eight for each of the MAX_ATTEMPTS + 1 attempts
(`exhaustsAfter_attempts`). -/
theorem signRndExhaustsItsAttempts : Obligations.SignRndExhaustsItsAttempts := by
  intro s n ds hh ws er ar wr rr tr hinv hj hk hn hdl hhl hwl hds hws he ha hw hr ho
  have hscript : s.startedRnd.oracles = retryScript ds hh ws ⟨er, ar, wr, rr, tr, s.oracles.hmacAnswers⟩ := by
    rw [retryScript, hdl, ← he, ← ha, ← hw, ← hr, ← ho]; rfl
  have hruns := exhaustsAfter_attempts (atFirstDraw_startedRnd hinv hj) (hhl.trans hdl.symm) (hwl.trans hdl.symm) hds
    hws hscript (by change 1 ≤ s.maxAtt.toNat + 1; omega) (by change 1 + _ = s.maxAtt.toNat + 2; omega)
  obtain ⟨hbusy, hend⟩ := (leadsBusy_signRnd_start hinv hj hk).exhausts hruns
  rw [hdl, add_comm] at hbusy hend
  rw [hn] at hbusy hend ⊢
  exact ⟨fun k hle => hbusy k (Nat.lt_succ_of_le hle), hend⟩

end Sys2Proof.Machine
end

section
/-! PROOFS. The control family (44_control.md): what NOP and ZEROIZE write and what they leave unchanged. -/

namespace Sys2Proof.Machine

open Sys2Proof

variable {s : State} {i : Instr}

/-! ## The end of a command outside the nonce and signing commands (60_exceptions.md R215) -/

theorem finish_plain (hi : isSecret i = false) : s.finish i = s.ended .none :=
  terminate_plain (by simpa [isSecret] using hi) .none

theorem exec_nop (s : State) : exec .nop s = .next (s.ended .none) :=
  congrArg Host.Outcome.next (finish_plain rfl)

/-! ## The wipe of several buffers (44_control.md R201) -/

/-- The wipes change the memory only. -/
theorem foldl_wipe_frame (xs : List Buf) (m : Memory) :
    { xs.foldl State.wipe s with mem := m } = { s with mem := m } := by
  induction xs generalizing s with
  | nil => rfl
  | cons y ys ih => exact ih

theorem foldl_wipe_bufcap (xs : List Buf) : (xs.foldl State.wipe s).bufcap = s.bufcap :=
  (congrArg State.bufcap (foldl_wipe_frame (s := s) xs s.mem) :)

/-- A byte after the buffers `xs` are wiped in turn: zero in any of them, as before elsewhere. -/
theorem foldl_wipe_read (h : memWf s.mem = true) (xs : List Buf) (a : Nat) :
    memRead (xs.foldl State.wipe s).mem a =
      if ∃ x ∈ xs, bufBase x ≤ a ∧ a < bufBase x + s.bufcap then 0 else memRead s.mem a := by
  induction xs generalizing s with
  | nil => simp
  | cons y ys ih =>
    rw [List.foldl_cons, ih (wipe_memForm h y), State.wipe_bufcap, wipe_read h]
    simp only [List.exists_mem_cons_iff, or_comm (a := bufBase y ≤ a ∧ _), ite_or]

theorem foldl_wipe_bufZero (h : memWf s.mem = true) {xs : List Buf} {x : Buf} (hx : x ∈ xs) :
    BufZero (xs.foldl State.wipe s) x := fun j hj => by
  have hj : j < s.bufcap := by rwa [foldl_wipe_bufcap] at hj
  rw [foldl_wipe_read h, if_pos ⟨x, hx, Nat.le_add_right _ _, Nat.add_lt_add_left hj _⟩]

theorem foldl_wipe_sameOutside (h : memWf s.mem = true) (xs : List Buf) :
    SameOutside xs s (xs.foldl State.wipe s) := fun a ha => by
  rw [foldl_wipe_read h, if_neg]
  rintro ⟨x, hx, hin⟩
  have := ha x hx
  omega

/-! ## ZEROIZE (44_control.md R201) -/

theorem mem_allBufs (x : Buf) : x ∈ allBufs := by cases x <;> simp [allBufs]

/-- A wipe does not depend on the hidden state. -/
theorem hiddenWiped_wipe (s : State) (x : Buf) : s.hiddenWiped.wipe x = (s.wipe x).hiddenWiped := rfl

/-- Session and operands together: all nine buffers, in the order of their windows, and the hidden state. -/
theorem wipeOperands_zeroizeSession (s : State) :
    s.zeroizeSession.wipeOperands = (allBufs.foldl State.wipe s).hiddenWiped := by
  have hs : s.zeroizeSession = ((s.wipe .key).wipe .digest).hiddenWiped := rfl
  simp only [hs, State.wipeOperands, hiddenWiped_wipe, allBufs, List.foldl_cons, List.foldl_nil]

theorem exec_zeroize (s : State) :
    exec .zeroize s = .next ((allBufs.foldl State.wipe s).hiddenWiped.ended .none) := by
  rw [← wipeOperands_zeroizeSession]
  exact congrArg Host.Outcome.next (finish_plain rfl)

theorem hiddenWiped_ended_mem (s : State) (e : ErrCode) : (s.hiddenWiped.ended e).mem = s.mem := rfl

theorem hiddenWiped_ended_bufcap (s : State) (e : ErrCode) : (s.hiddenWiped.ended e).bufcap = s.bufcap := rfl

/-- The end of a command and the hidden state's wipe do not depend on the memory. -/
theorem hiddenWiped_ended_with_mem (s : State) (e : ErrCode) (m : Memory) :
    { s.hiddenWiped.ended e with mem := m } = (State.ended { s with mem := m } e).hiddenWiped := rfl

/-! ## The obligations -/

/-- Settles O20: outside the nonce and signing commands, to finish is to write the termination fields
(`finish_plain`). -/
theorem nopOnlyTerminates : Obligations.NopOnlyTerminates := ⟨rfl, exec_nop⟩

/-- Settles O21: ZEROIZE ends with the nine buffers wiped one after the other (`foldl_wipe_read`), the hidden state
wiped, and nothing else changed (`foldl_wipe_frame`). -/
theorem zeroizeWipesEveryBuffer : Obligations.ZeroizeWipesEveryBuffer := by
  refine ⟨rfl, fun s _ hm => ⟨_, exec_zeroize s, fun x => ?_, ?_, ?_⟩⟩
  · exact bufZero_congr (hiddenWiped_ended_mem _ _) (hiddenWiped_ended_bufcap _ _)
      (foldl_wipe_bufZero hm (mem_allBufs x))
  · exact sameOutside_congr (hiddenWiped_ended_mem _ _) (foldl_wipe_sameOutside hm allBufs)
  · rw [hiddenWiped_ended_with_mem, foldl_wipe_frame]

end Sys2Proof.Machine
end

section
/-! PROOFS. Exceptions (60_exceptions.md): acceptance of a command word, clearing the pending bits, and what every end
of a command leaves: its code and fault cause, INTSTAT.DONE, and a zeroized session. -/

namespace Sys2Proof.Machine

open Sys2Proof

variable {s t u : State} {i : Instr} {e : ErrCode} {c : FaultCause}

/-! ## Acceptance (60_exceptions.md R214) -/

theorem isSign_iff : i.isSign = true ↔ i = .signRnd ∨ i = .signDet := by
  cases i <;> simp [Instr.isSign]

theorem isSignWord_iff {w : Word} :
    isSignWord w = true ↔ (decode w).toOption = some .signRnd ∨ (decode w).toOption = some .signDet := by
  unfold isSignWord
  cases decode w with
  | ok i => simp [isSign_iff, Except.toOption]
  | error _ => simp [Except.toOption]

/-- Settles O6: while BUSY = 0 a CMD write is not dropped and accepts its word (`isSignWord_iff`); while BUSY = 1 it is
dropped, CMD being writable (`writeEffect_dropped`). -/
theorem commandAcceptance : Obligations.CommandAcceptance := by
  intro s w rest h
  refine ⟨fun hb => ?_, fun hb => ?_⟩
  · rw [step_writeReg (r := .cmd) (dropsWrite_idle hb) h]
    simp only [State.regSet, State.accept, State.respond, isSignWord_iff]
    rfl
  · have hd := writeEffect_dropped (s := { s with inputs := rest }) (wd := .w32) (v := w) hb (writable_reg .cmd)
      (by decide) (by decide)
    exact (step_write (by decide) rfl h).trans (congrArg (Host.Outcome.next <| State.respond · false 0) hd)

/-! ## The codes of each command (60_exceptions.md R212) -/

/-- The row of command `i` in R212's table: the codes it can end with, HARDWARE_FAULT with its FAULTINFO causes. -/
def CanEndWith (i : Instr) (e : ErrCode) (c : FaultCause) : Prop :=
  match i with
  | .nop | .zeroize => e = .none
  | .cmp _ _ | .add _ | .sub _ | .rshift _ | .trunc _ | .bits2int _ | .bits2oct _ | .d2op _ =>
    e = .none ∨ e = .invalidArgument
  | .nonceRnd => e = .none ∨ e = .invalidArgument ∨ e = .insufficientEntropy ∨ (e = .hardwareFault ∧ c = .entropy)
  | .nonceDet => e = .none ∨ e = .invalidArgument ∨ e = .tooManyAttempts
  | .signRnd => e = .none ∨ e = .invalidArgument ∨ e = .tooManyAttempts ∨ e = .insufficientEntropy ∨
      (e = .hardwareFault ∧ c ≠ .none)
  | .signDet => e = .none ∨ e = .invalidArgument ∨ e = .tooManyAttempts ∨
      (e = .hardwareFault ∧ c ≠ .none ∧ c ≠ .entropy)

theorem canEndWith_none : CanEndWith i .none c := by
  cases i <;> simp [CanEndWith]

theorem canEndWith_invalidArgument (hi : i ≠ .nop ∧ i ≠ .zeroize) : CanEndWith i .invalidArgument c := by
  cases i <;> simp_all [CanEndWith]

theorem canEndWith_tooManyAttempts (hi : i = .nonceDet ∨ IsSignCommand i) : CanEndWith i .tooManyAttempts c := by
  rcases hi with rfl | rfl | rfl <;> simp [CanEndWith]

theorem canEndWith_insufficientEntropy (hi : i = .nonceRnd ∨ i = .signRnd) : CanEndWith i .insufficientEntropy c := by
  rcases hi with rfl | rfl <;> simp [CanEndWith]

/-- The entropy source's FAIL is cause 4. -/
theorem canEndWith_entropyFault (hi : i = .nonceRnd ∨ i = .signRnd) : CanEndWith i .hardwareFault .entropy := by
  rcases hi with rfl | rfl <;> simp [CanEndWith]

/-- A FATAL of the channel is a cause 1 to 3. -/
theorem canEndWith_channelFault (hi : IsSignCommand i) (f : FatalCause) :
    CanEndWith i .hardwareFault (chanCause f) := by
  have hf : chanCause f ≠ .none ∧ chanCause f ≠ .entropy := by cases f <;> decide
  rcases hi with rfl | rfl <;> simp [CanEndWith, hf]

/-! ## What an engine step of a command can do: run on, or terminate (60_exceptions.md R215) -/

/-- `t` is the termination of `i`, with a code of `i`'s row, in a state whose memory has the canonical form if that of
`s` has. -/
def Terminates (i : Instr) (s t : State) : Prop :=
  ∃ (u : State) (e : ErrCode), t = u.terminate (some i) e ∧ CanEndWith i e u.faultInfo ∧
    (memWf s.mem = true → memWf u.mem = true)

/-- The step leaves BUSY as it is, or terminates the command. -/
def RunsOnOrTerminates (i : Instr) (s t : State) : Prop := t.busy = s.busy ∨ Terminates i s t

theorem runsOnOrTerminates_raise (hc : CanEndWith i e u.faultInfo) (hm : u.mem = s.mem) :
    RunsOnOrTerminates i s (u.raise i e) :=
  .inr ⟨u, e, rfl, hc, fun h => hm ▸ h⟩

theorem runsOnOrTerminates_finish (hm : memWf s.mem = true → memWf u.mem = true) :
    RunsOnOrTerminates i s (u.finish i) :=
  .inr ⟨u, .none, rfl, canEndWith_none, hm⟩

theorem runsOnOrTerminates_hwFault (hc : CanEndWith i .hardwareFault c) (hm : u.mem = s.mem) :
    RunsOnOrTerminates i s (u.hwFault i c) :=
  runsOnOrTerminates_raise (u := { u with faultInfo := c }) hc hm

theorem runsOnOrTerminates_withHmac {key msg : Bytes} {f : State → Bytes → State} (hu : u.busy = s.busy)
    (hf : ∀ v k, (f v k).busy = v.busy) : RunsOnOrTerminates i s (u.withHmac key msg f) := by
  rcases withHmac_cases (s := u) key msg f with ⟨_, h⟩ | ⟨_, h⟩ <;> rw [h]
  · exact .inl hu
  · exact .inl ((hf _ _).trans hu)

/-! ### The bigint family, rnd_k and the RFC 6979 machine -/

theorem runsOnOrTerminates_bigint (hi : i ≠ .nop ∧ i ≠ .zeroize) {ok : Bool} {f : State → State}
    (hm : memWf s.mem = true → memWf (f s).mem = true) : RunsOnOrTerminates i s (s.bigint i ok f) := by
  unfold State.bigint
  split_ifs
  · exact runsOnOrTerminates_finish hm
  · exact runsOnOrTerminates_raise (canEndWith_invalidArgument hi) rfl

theorem runsOnOrTerminates_drawStep (hi : i = .nonceRnd ∨ i = .signRnd) : RunsOnOrTerminates i s (s.drawStep i) := by
  by_cases hd : s.draws = s.params.rndMaxDraws
  · rw [drawStep_exhausted hd]
    exact runsOnOrTerminates_raise (canEndWith_insufficientEntropy hi) rfl
  cases ho : s.oracles.entropy with
  | nil => rw [drawStep_unanswered hd ho]; exact .inl rfl
  | cons a rest =>
    cases a with
    | fail =>
      rw [drawStep_failed hd ho]
      exact runsOnOrTerminates_hwFault (u := s.entropySpent rest) (canEndWith_entropyFault hi) rfl
    | bytes b => rw [drawStep_drawn hd ho]; exact .inl rfl

theorem runsOnOrTerminates_giveNonce (hm : u.mem = s.mem) : RunsOnOrTerminates i s (u.giveNonce i) :=
  runsOnOrTerminates_finish fun h => fill_memForm (hm ▸ h) _ _

theorem runsOnOrTerminates_enterDerive (hu : u.busy = s.busy) : RunsOnOrTerminates i s (u.enterDerive i) :=
  runsOnOrTerminates_withHmac (u := u.startDerive i) hu fun _ _ => rfl

theorem runsOnOrTerminates_deriveStep (hi : i = .nonceDet ∨ i = .signDet) {accept : State → State}
    (ha : RunsOnOrTerminates i s (accept (s.putT s.reducedCand))) : RunsOnOrTerminates i s (s.deriveStep i accept) := by
  unfold State.deriveStep
  cases s.nonce.step
  case step5 => exact .inl rfl
  case step6 =>
    dsimp only
    unfold State.rfc6
    split_ifs
    · exact runsOnOrTerminates_raise (canEndWith_tooManyAttempts (hi.imp_right .inr)) rfl
    · exact runsOnOrTerminates_withHmac rfl fun _ _ => rfl
    · exact ha
  all_goals exact runsOnOrTerminates_withHmac rfl fun _ _ => rfl

/-! ### The retry controller (43_retry_controller.md R172, R175) -/

section Retry
variable (hi : IsSignCommand i)
include hi

theorem runsOnOrTerminates_chFault (hm : u.mem = s.mem) (f : FatalCause) :
    RunsOnOrTerminates i s (u.chFault i f) :=
  runsOnOrTerminates_hwFault (canEndWith_channelFault hi f) hm

theorem runsOnOrTerminates_acquireStep : RunsOnOrTerminates i s (s.acquireStep i) := by
  cases ho : s.oracles.acquire with
  | nil =>
    have hd : s.putD2o.oracles.acquire = [] := ho
    simp only [State.acquireStep, hd]
    exact .inl rfl
  | cons a rest =>
    cases a with
    | fatal f => rw [acquireStep_fatal ho]; exact runsOnOrTerminates_chFault (u := s.acquireSpent rest) hi rfl f
    | ok h => rw [acquireStep_ok ho]; exact .inl rfl

theorem runsOnOrTerminates_writeStep {slot : Slot} {b : Bytes} {next : Point} :
    RunsOnOrTerminates i s (s.writeStep i slot b next) := by
  cases ho : s.oracles.write with
  | nil => rw [State.writeStep, ho]; exact .inl rfl
  | cons a rest =>
    cases a with
    | fatal f => rw [writeStep_fatal ho]; exact runsOnOrTerminates_chFault (u := s.writeSpent slot b rest) hi rfl f
    | ok => rw [writeStep_ok ho]; exact .inl rfl

theorem runsOnOrTerminates_runStep : RunsOnOrTerminates i s (s.runStep i) := by
  cases ho : s.oracles.run with
  | nil => rw [State.runStep, ho]; exact .inl rfl
  | cons a rest =>
    cases a with
    | fatal f => rw [runStep_fatal ho]; exact runsOnOrTerminates_chFault (u := s.runSpent rest) hi rfl f
    | ok => rw [runStep_ok ho]; exact .inl rfl

theorem runsOnOrTerminates_nextAttempt (hu : u.busy = s.busy) (hm : u.mem = s.mem) :
    RunsOnOrTerminates i s (u.nextAttempt i) := by
  unfold State.nextAttempt State.nonceForRetry
  split_ifs
  · exact runsOnOrTerminates_raise (canEndWith_tooManyAttempts (.inr hi)) hm
  all_goals exact .inl hu

theorem runsOnOrTerminates_waitStep : RunsOnOrTerminates i s (s.waitStep i) := by
  have again {a : WaitAnswer} {rest : List WaitAnswer} (ha : Retryable a) (ho : s.oracles.wait = a :: rest) :
      RunsOnOrTerminates i s (s.waitStep i) := by
    rw [waitStep_retryable ha ho]
    exact runsOnOrTerminates_nextAttempt (u := s.waitReleased rest) hi rfl rfl
  cases ho : s.oracles.wait with
  | nil => rw [State.waitStep, ho]; exact .inl rfl
  | cons a rest =>
    cases a with
    | fatal f => rw [waitStep_fatal ho]; exact runsOnOrTerminates_chFault (u := s.waitSpent rest) hi rfl f
    | success r z =>
      rw [waitStep_success ho]
      exact runsOnOrTerminates_finish fun h =>
        fillSignature_memForm (s := s.waitReleased rest) (r := fit s.opsz r) (z := fit s.opsz z) h
    | notInvertible => exact again (.inl rfl) ho
    | invalidSignature => exact again (.inr rfl) ho

theorem runsOnOrTerminates_signStart : RunsOnOrTerminates i s (s.signStart i) := by
  unfold State.signStart State.firstAttempt
  dsimp only
  split_ifs
  · exact runsOnOrTerminates_enterDerive (u := { s with attempts := 1 }) rfl
  · exact .inl rfl
  · refine runsOnOrTerminates_raise (canEndWith_invalidArgument ?_) rfl
    rcases hi with rfl | rfl <;> decide

end Retry

/-! ### The commands -/

theorem foldl_wipe_memForm (h : memWf s.mem = true) (xs : List Buf) : memWf (xs.foldl State.wipe s).mem = true := by
  induction xs generalizing s with
  | nil => exact h
  | cons y ys ih => exact ih (wipe_memForm h y)

theorem execZeroize_runsOnOrTerminates (h : execZeroize s = .next t) : RunsOnOrTerminates .zeroize s t := by
  cases h
  refine runsOnOrTerminates_finish fun hm => ?_
  rw [wipeOperands_zeroizeSession]
  exact foldl_wipe_memForm hm allBufs

theorem execNonceRnd_runsOnOrTerminates (h : execNonceRnd s = .next t) : RunsOnOrTerminates .nonceRnd s t := by
  cases h
  split
  · exact runsOnOrTerminates_drawStep (.inl rfl)
  · exact .inl rfl
  · exact runsOnOrTerminates_giveNonce rfl
  split_ifs
  · exact .inl rfl
  · exact runsOnOrTerminates_raise (canEndWith_invalidArgument (by decide)) rfl

theorem execNonceDet_runsOnOrTerminates (h : execNonceDet s = .next t) : RunsOnOrTerminates .nonceDet s t := by
  cases h
  split
  · exact runsOnOrTerminates_deriveStep (.inl rfl) (runsOnOrTerminates_giveNonce rfl)
  split_ifs
  · exact runsOnOrTerminates_enterDerive rfl
  · exact runsOnOrTerminates_raise (canEndWith_invalidArgument (by decide)) rfl

theorem execSignRnd_runsOnOrTerminates (h : execSignRnd s = .next t) : RunsOnOrTerminates .signRnd s t := by
  have hi : IsSignCommand .signRnd := .inl rfl
  cases h
  split
  · exact runsOnOrTerminates_drawStep (.inr rfl)
  · exact .inl rfl
  · exact runsOnOrTerminates_acquireStep hi
  · exact runsOnOrTerminates_writeStep hi
  · exact runsOnOrTerminates_writeStep hi
  · exact runsOnOrTerminates_writeStep hi
  · exact runsOnOrTerminates_runStep hi
  · exact runsOnOrTerminates_waitStep hi
  · exact runsOnOrTerminates_signStart hi

theorem execSignDet_runsOnOrTerminates (h : execSignDet s = .next t) : RunsOnOrTerminates .signDet s t := by
  have hi : IsSignCommand .signDet := .inr rfl
  cases h
  split
  · exact runsOnOrTerminates_deriveStep (.inr rfl) (.inl rfl)
  · exact runsOnOrTerminates_withHmac rfl fun _ _ => rfl
  · exact runsOnOrTerminates_acquireStep hi
  · exact runsOnOrTerminates_writeStep hi
  · exact runsOnOrTerminates_writeStep hi
  · exact runsOnOrTerminates_writeStep hi
  · exact runsOnOrTerminates_runStep hi
  · exact runsOnOrTerminates_waitStep hi
  · exact runsOnOrTerminates_signStart hi

/-- Every engine step of a command leaves BUSY as it is or terminates the command with a code of its row. -/
theorem exec_runsOnOrTerminates (h : exec i s = .next t) : RunsOnOrTerminates i s t := by
  cases i with
  | nop => cases h; exact runsOnOrTerminates_finish id
  | zeroize => exact execZeroize_runsOnOrTerminates h
  | cmp => cases h; exact runsOnOrTerminates_bigint (by simp) id
  | add => cases h; exact runsOnOrTerminates_bigint (by simp) fun hm => setBytes_memForm hm _ _
  | sub | rshift | trunc | bits2int | bits2oct | d2op =>
    cases h; exact runsOnOrTerminates_bigint (by simp) fun hm => fill_memForm hm _ _
  | nonceRnd => exact execNonceRnd_runsOnOrTerminates h
  | nonceDet => exact execNonceDet_runsOnOrTerminates h
  | signRnd => exact execSignRnd_runsOnOrTerminates h
  | signDet => exact execSignDet_runsOnOrTerminates h

/-- The engine step that takes BUSY away is the command's termination. -/
theorem exec_terminates (h : exec i s = .next t) (hs : s.busy = true) (ht : t.busy = false) : Terminates i s t :=
  (exec_runsOnOrTerminates h).resolve_left (by simp [hs, ht])

/-! ## What termination leaves (60_exceptions.md R212, R215, R216) -/

theorem terminate_faultInfo (s : State) (cmd : Option Instr) (e : ErrCode) :
    (s.terminate cmd e).faultInfo = s.faultInfo := by
  unfold State.terminate
  rcases wipeSession_eq (s.wipeOutput cmd e) cmd with h | h <;> rw [h] <;> simp

theorem terminate_hiddenZero (hi : isSecret i = true) : HiddenZero (s.terminate (some i) e) := by
  rw [terminate_session hi]
  exact hiddenZero_zeroizeSession _

/-- Settles O54: the step that ends a command is a termination with a code of its row (`exec_terminates`). -/
theorem commandsEndWithTheirCodes : Obligations.CommandsEndWithTheirCodes := by
  intro s t i _ h hs ht
  obtain ⟨u, e, rfl, hc, -⟩ := exec_terminates h hs ht
  have hrow : CanEndWith i (u.terminate (some i) e).err (u.terminate (some i) e).faultInfo := by
    rwa [terminate_faultInfo]
  exact hrow

/-- Settles O55: the step that ends a command is its termination (`exec_terminates`), which zeroizes the session
(`terminate_sessionEnded`), and the outputs too where it fails (`raise_sessionFailed`). -/
theorem terminationZeroizesTheSession : Obligations.TerminationZeroizesTheSession := by
  intro s t i hi _ hm h hs ht
  have hsec : isSecret i = true := by rcases hi with rfl | rfl | rfl | rfl <;> rfl
  obtain ⟨u, e, rfl, -, hmu⟩ := exec_terminates h hs ht
  have hm := hmu hm
  obtain ⟨hkey, hdigest, -, -⟩ := terminate_sessionEnded (xs := [.nonce, .sigR, .sigS]) hsec hm e (by simp) (by simp)
  exact ⟨hkey, hdigest, terminate_hiddenZero hsec, rfl, rfl, rfl, fun he => (raise_sessionFailed hm hsec he).2⟩

/-! ## The pending bits (60_exceptions.md R221) -/

/-- An engine step that ends a command sets both DONE bits and leaves the engine idle. -/
theorem engineStep_ends (h : engineStep s = .next t) (hs : s.busy = true) (ht : t.busy = false) :
    t.donePend = true ∧ t.done = true ∧ t.ctl = .idle := by
  unfold engineStep at h
  split at h
  next => cases h; rw [hs] at ht; cases ht
  next => cases h; exact ⟨rfl, rfl, rfl⟩
  next =>
    obtain ⟨u, e, rfl, -, -⟩ := exec_terminates h hs ht
    exact ⟨rfl, rfl, rfl⟩

/-- Settles O47: INTSTAT and INTEN take a write, BUSY or not, and the step that ends a command sets INTSTAT.DONE
(`engineStep_ends`). -/
theorem intstatIsWriteOneToClear : Obligations.IntstatIsWriteOneToClear :=
  ⟨fun _ _ _ => ⟨step_writeReg (r := .intstat) dropsWrite_intstat, step_writeReg (r := .inten) dropsWrite_inten⟩,
    fun _ _ => engineStep_ends⟩

end Sys2Proof.Machine
end

section
/-! PROOFS. Reset (70_reset_and_hazards.md R240, R241) and oracle calls that are never answered (R248). -/

namespace Sys2Proof.Machine

open Sys2Proof

variable {s u : State} {i : Instr} {p : Point}

/-! ## What reset leaves (70_reset_and_hazards.md R240, R241) -/

section Reset

variable {q : Params} {o : Oracles} {ins : List Input} {tr : List OracleCall} {a : Resp}

/-- What each register reads right after reset (70_reset_and_hazards.md R240). -/
def resetView : Reg → Word
  | .id => 0x69790001
  | .maxatt => 0x000000FF
  | .ctrl | .cfg | .cmd | .status | .inten | .intstat | .attempts | .faultinfo | .aluImm | .qlen => 0

/-- After reset OPSZ is 0, so QLEN is the bit length of the empty string. -/
theorem qlenView_resetWith : (State.resetWith q o ins tr a).qlenView = 0 := by
  have h0 : min (State.resetWith q o ins tr a).opsz (State.resetWith q o ins tr a).bufcap = 0 := Nat.zero_min _
  rw [State.qlenView, h0]; rfl

theorem regView_resetWith (r : Reg) : (State.resetWith q o ins tr a).regView r = resetView r := by
  cases r
  case id => rfl
  case cmd => rfl
  case aluImm => rfl
  case qlen => rw [State.regView, qlenView_resetWith]; rfl
  case ctrl => exact BitVec.eq_of_toNat_eq toNat_regView_ctrl
  case cfg => exact BitVec.eq_of_toNat_eq toNat_regView_cfg
  case status => exact BitVec.eq_of_toNat_eq toNat_statusWord
  case inten => exact BitVec.eq_of_toNat_eq toNat_regView_inten
  case intstat => exact BitVec.eq_of_toNat_eq toNat_regView_intstat
  case maxatt => exact BitVec.eq_of_toNat_eq toNat_regView_maxatt
  case attempts => exact BitVec.eq_of_toNat_eq toNat_regView_attempts
  case faultinfo => exact BitVec.eq_of_toNat_eq toNat_regView_faultinfo

/-- Every item of R240 holds its reset value. -/
def HoldsResetValues (t : State) : Prop :=
  (∀ r, t.regView r = resetView r) ∧ (∀ (x : Buf) (j : Nat), memRead t.mem (bufBase x + j) = 0) ∧ HiddenZero t ∧
    t.ctl = .idle ∧ t.irq = false

theorem holdsResetValues_resetWith : HoldsResetValues (State.resetWith q o ins tr a) :=
  ⟨regView_resetWith, fun _ _ => rfl, ⟨rfl, rfl, rfl, rfl⟩, rfl, rfl⟩

theorem inv_resetWith (h : q.ok) : (State.resetWith q o ins tr a).Inv :=
  inv_idle ⟨h, memWf_nil, fun _ ha => absurd rfl ha, Nat.zero_le _⟩ ⟨rfl, rfl, rfl, rfl⟩ rfl rfl nofun

end Reset

/-- Whatever the opaque constants are, the parameters after reset are as 00_scope.md R7 asks. -/
theorem config_params_ok : Config.params.ok := by
  have hop := Config.maxOpszPred.isLt
  have hhl := Config.maxHlenPred.isLt
  have hds : ∀ d ∈ Config.params.digestSizes, ∀ n ∈ d, 1 ≤ n ∧ n ≤ Config.params.maxHlen := by
    intro d hd n hn
    obtain ⟨alg, -, rfl⟩ := List.mem_map.1 hd
    obtain ⟨raw, -, rfl⟩ := Option.mem_map.1 hn
    exact ⟨Nat.succ_pos _, Nat.mod_lt raw (Nat.succ_pos _)⟩
  exact ⟨Nat.mul_mod_right _ _, ⟨Nat.succ_pos _, hop⟩, ⟨Nat.succ_pos _, hhl⟩,
    by simp [Config.params], hds, Nat.succ_pos _⟩

/-- Settles O7: R240's values hold of every reset state (`holdsResetValues_resetWith`). -/
theorem resetStateHoldsTheResetValues : Obligations.ResetStateHoldsTheResetValues :=
  holdsResetValues_resetWith

/-- Settles O8: the step that takes a reset answers `resetInput`, which is a reset state. -/
theorem resetInputAbandonsTheCommand : Obligations.ResetInputAbandonsTheCommand := by
  intro s rest h
  have hstep : step s = .next { s with inputs := rest }.resetInput := by rw [step, h]
  exact ⟨_, hstep, holdsResetValues_resetWith⟩

/-- Settles O58: an idle state with zero hidden state and memory, and with parameters that meet R7. -/
theorem resetStateMeetsTheInvariant : Obligations.ResetStateMeetsTheInvariant :=
  inv_resetWith config_params_ok

/-! ## The engine's step while its call is not answered (70_reset_and_hazards.md R248) -/

theorem withHmac_unanswered {key msg : Bytes} {f : State → Bytes → State} (h : s.oracles.hmacAnswers = some 0) :
    s.withHmac key msg f = s := by
  rcases withHmac_cases (s := s) key msg f with ⟨-, h1⟩ | ⟨h0, -⟩
  · exact h1
  · exact absurd h h0

theorem rejectKey_unanswered {f : State → State} (h : s.oracles.hmacAnswers = some 0) : s.rejectKey f = s :=
  withHmac_unanswered h

theorem forcedReject_unanswered (h : s.oracles.hmacAnswers = some 0) : s.forcedReject i = s := by
  rw [State.forcedReject, rejectKey_unanswered h]

/-- Every step of derive but step 5, which makes no call, and a step 6 that accepts or gives up. -/
theorem deriveStep_unanswered {accept : State → State} (h : s.oracles.hmacAnswers = some 0)
    (h5 : s.nonce.step ≠ .step5)
    (h6 : s.nonce.step = .step6 → outOfRange s.reducedCand s.order = true ∧ s.nonce.retry ≠ s.maxAtt) :
    s.deriveStep i accept = s := by
  unfold State.deriveStep
  split
  next => exact withHmac_unanswered h
  next => exact withHmac_unanswered h
  next => exact withHmac_unanswered h
  next => exact withHmac_unanswered h
  next => exact withHmac_unanswered h
  next hn => exact absurd hn h5
  next hn =>
    obtain ⟨hr, hm⟩ := h6 hn
    rw [State.rfc6, if_pos hr, if_neg hm, rejectKey_unanswered h]

theorem acquireStep_unanswered (h : s.oracles.acquire = []) : s.acquireStep i = s.putD2o := by
  have hd : s.putD2o.oracles.acquire = [] := h
  simp only [State.acquireStep, hd]

theorem writeStep_unanswered {slot : Slot} {bytes : Bytes} {next : Point} (h : s.oracles.write = []) :
    s.writeStep i slot bytes next = s := by
  rw [State.writeStep, h]

theorem runStep_unanswered (h : s.oracles.run = []) : s.runStep i = s := by
  rw [State.runStep, h]

theorem waitStep_unanswered (h : s.oracles.wait = []) : s.waitStep i = s := by
  rw [State.waitStep, h]

theorem splice_splice_zero (x y : Bytes) : splice (splice x 0 y) 0 y = splice x 0 y := by
  simp [splice]

/-- D2O is written from inputs that its write leaves alone, so writing it again changes nothing. -/
theorem putD2o_putD2o (s : State) : s.putD2o.putD2o = s.putD2o :=
  congrArg (fun d => { s with d2o := d }) (splice_splice_zero _ _)

theorem exec_reject (hc : s.ctl = .running .signDet .reject) : exec .signDet s = .next (s.forcedReject .signDet) := by
  rw [exec, execSignDet, pointOf_running hc]

/-! ## Runs of a step that leaves the state as it is -/

theorem runSteps_of_step_self (h : step s = .next s) (k : Nat) : runSteps k s = .next s := by
  induction k with
  | zero => rfl
  | succ k ih => rw [runSteps_succ_next h]; exact ih

theorem runSteps_succ_of_step_self (h : step s = .next u) (hu : step u = .next u) (k : Nat) :
    runSteps (k + 1) s = .next u := by
  rw [runSteps_succ_next h]; exact runSteps_of_step_self hu k

theorem step_of_exec (hin : s.inputs = []) (hc : s.ctl = .running i p) (hx : exec i s = .next u) :
    step s = .next u := by
  rw [step_no_input hin, engineStep_running hc, hx]

/-- After any number of steps the engine stands where it stood, with BUSY = 1, the memory and the trace unchanged. -/
def StaysInCall (s : State) : Prop :=
  ∀ k, ∃ t, runSteps k s = .next t ∧ t.ctl = s.ctl ∧ t.busy = true ∧ t.mem = s.mem ∧ t.trace = s.trace

/-- The points of submit at which a channel call is made, each with its script at the end (43_retry_controller.md R172). -/
def State.ChannelSilent (s : State) (p : Point) : Prop :=
  p = .acquire ∧ s.oracles.acquire = [] ∨
    (p = .writePriv ∨ p = .writeNonce ∨ p = .writeDigest) ∧ s.oracles.write = [] ∨
    p = .run ∧ s.oracles.run = [] ∨ p = .wait ∧ s.oracles.wait = []

section Stays

variable (hin : s.inputs = []) (hb : s.busy = true)
include hin hb

theorem staysInCall_of_exec_self (hc : s.ctl = .running i p) (hx : exec i s = .next s) : StaysInCall s := fun k =>
  ⟨s, runSteps_of_step_self (step_of_exec hin hc hx) k, rfl, hb, rfl, rfl⟩

/-- The first step at Ch.acquire writes D2O (log entry 10); from then on the step changes nothing. -/
theorem staysInCall_acquire (hi : IsSignCommand i) (hc : s.ctl = .running i .acquire) (ho : s.oracles.acquire = []) :
    StaysInCall s := by
  have hfirst : exec i s = .next s.putD2o := by rw [exec_acquire hi hc, acquireStep_unanswered ho]
  have hagain : exec i s.putD2o = .next s.putD2o := by
    rw [exec_acquire (s := s.putD2o) hi hc, acquireStep_unanswered (s := s.putD2o) ho, putD2o_putD2o]
  rintro (_ | k)
  · exact ⟨s, rfl, rfl, hb, rfl, rfl⟩
  · have hstay : step s.putD2o = .next s.putD2o := step_of_exec (s := s.putD2o) hin hc hagain
    exact ⟨s.putD2o, runSteps_succ_of_step_self (step_of_exec hin hc hfirst) hstay k, rfl, hb, rfl, rfl⟩

theorem staysInCall_channel (hi : IsSignCommand i) (hc : s.ctl = .running i p) (h : s.ChannelSilent p) :
    StaysInCall s := by
  rcases h with ⟨rfl, ho⟩ | ⟨hp, ho⟩ | ⟨rfl, ho⟩ | ⟨rfl, ho⟩
  · exact staysInCall_acquire hin hb hi hc ho
  · obtain ⟨slot, bytes, next, hw⟩ : ∃ slot bytes next, s.WritesOperand p slot bytes next := by
      rcases hp with rfl | rfl | rfl <;> simp [State.WritesOperand]
    exact staysInCall_of_exec_self hin hb hc (by rw [exec_writeOperand hi hw hc, writeStep_unanswered ho])
  · exact staysInCall_of_exec_self hin hb hc (by rw [exec_run hi hc, runStep_unanswered ho])
  · exact staysInCall_of_exec_self hin hb hc (by rw [exec_wait hi hc, waitStep_unanswered ho])

end Stays

/-! ## The start of derive(FRESH) with its call not answered (log entry 10) -/

theorem hashOk_and_curveOk_of_checksOf (hi : i = .nonceDet ∨ i = .signDet) (h : s.checksOf i = true) :
    (s.hashOk && s.curveOk) = true := by
  rcases hi with rfl | rfl <;> simpa [State.checksOf, and_comm] using h

/-- The first step enters derive(FRESH) at its step 0; for SIGN_DET it has counted attempt 0. -/
theorem exec_det_start_unanswered (hi : i = .nonceDet ∨ i = .signDet) (hc : s.ctl = .running i .start)
    (hk : s.checksOf i = true) (ho : s.oracles.hmacAnswers = some 0) :
    ∃ n, exec i s = .next (State.startDerive { s with attempts := n } i) := by
  have hok := hashOk_and_curveOk_of_checksOf hi hk
  rcases hi with rfl | rfl
  · exact ⟨s.attempts, by rw [exec_nonceDet_start hc, if_pos hok, enterDerive_unanswered ho]⟩
  · refine ⟨1, ?_⟩
    rw [exec_sign_start (.inr rfl) hc, if_pos hok]
    exact congrArg _ (enterDerive_unanswered (s := { s with attempts := 1 }) ho)

theorem exec_startDerive_unanswered (hi : i = .nonceDet ∨ i = .signDet) (ho : u.oracles.hmacAnswers = some 0) :
    exec i (u.startDerive i) = .next (u.startDerive i) := by
  obtain ⟨accept, hx⟩ := exec_derive (s := u.startDerive i) hi rfl
  rw [hx, deriveStep_unanswered (s := u.startDerive i) ho nofun nofun]

/-- Settles O57: at each call the step leaves the state as it is (`staysInCall_of_exec_self`), but for D2O at Ch.acquire
(`staysInCall_channel`); the start of derive leads to such a state in one step (`exec_det_start_unanswered`). -/
theorem unansweredCallsLeaveTheEngineStuck : Obligations.UnansweredCallsLeaveTheEngineStuck := by
  rintro s i p c hc hb hin rfl
  refine ⟨fun h => ?calls, ?start⟩
  case calls =>
    rcases h with ⟨hi, rfl, hd, ho⟩ | ⟨hi, h⟩ | ⟨hi, rfl, h5, h6, ho⟩ | ⟨rfl, rfl, ho⟩
    · obtain ⟨accepted, hr⟩ : ∃ accepted, OnRandomPath i accepted := by
        rcases hi with rfl | rfl <;> simp [OnRandomPath]
      exact staysInCall_of_exec_self hin hb hc (by rw [exec_draw hr hc, drawStep_unanswered hd ho])
    · exact staysInCall_channel hin hb hi hc h
    · obtain ⟨accept, hx⟩ := exec_derive hi hc
      have hr : s.nonce.step = .step6 → outOfRange s.reducedCand s.order = true ∧ s.nonce.retry ≠ s.maxAtt := by
        rw [outOfRange_iff, beInt_reducedCand]; exact h6
      exact staysInCall_of_exec_self hin hb hc (by rw [hx, deriveStep_unanswered ho h5 hr])
    · exact staysInCall_of_exec_self hin hb hc (by rw [exec_reject hc, forcedReject_unanswered ho])
  case start =>
    rintro ⟨hi, rfl, hk, ho⟩ k
    obtain ⟨n, hx⟩ := exec_det_start_unanswered hi hc hk ho
    have hstay := step_of_exec (s := State.startDerive { s with attempts := n } i) hin rfl
      (exec_startDerive_unanswered (u := { s with attempts := n }) hi ho)
    exact ⟨_, runSteps_succ_of_step_self (step_of_exec hin hc hx) hstay k, rfl, rfl, hb, rfl, rfl⟩

end Sys2Proof.Machine
end
